-- ==== Sys2Proof/Word.lean ====
section
/-! DEFINITION. The word types of FQHL (spec/00_scope.md R9, spec/10_state.md). -/

namespace Sys2Proof

/-- A byte, `UInt(8)` (00_scope.md R9). -/
abbrev Byte := BitVec 8

/-- A pointer, `UInt(PW)` with `PW = log2(N) + 1 <= 8` (00_scope.md R6), held in the low `PW` bits of eight.
DESIGN CHOICE, safe: one width for every legal `N` (log 2). -/
abbrev Ptr := BitVec 8

/-- An event counter, `UInt(CNT_W)` with `CNT_W <= 32` (00_scope.md R6), held in the low `CNT_W` bits of 32.
DESIGN CHOICE, safe: one width for every legal `CNT_W` (log 2). -/
abbrev Cnt := BitVec 32

/-- A frame: a sequence of bytes (00_scope.md R14). -/
abbrev Frame := List Byte

end Sys2Proof
end

