-- ==== Sys2Proof/Config.lean ====
section
/-! DEFINITION. The build-time parameters of FQHL (spec/00_scope.md R6, R7, R8) and its free values. -/

namespace Sys2Proof

/-- The three frame queue instances of the reference composition (10_state.md R30). -/
inductive Queue where
  | qr
  | qh
  | qt
  deriving DecidableEq, Repr

/-- The parameters each queue instance has of its own (00_scope.md R6, 10_state.md R33). -/
structure FqParams where
  N : Nat
  S : Nat
  deriving DecidableEq, Repr

/-- The parameters of FQHL (00_scope.md R6). They are build-time constants (70_reset_and_hazards.md R340). -/
structure Params where
  qr        : FqParams
  qh        : FqParams
  qt        : FqParams
  M         : Nat
  CNT_W     : Nat
  FLAG      : Byte
  ESC       : Byte
  T_FLAG    : Byte
  T_ESC     : Byte
  LEN_FIELD : Bool
  deriving DecidableEq, Repr

namespace Params

def fq (p : Params) : Queue → FqParams
  | .qr => p.qr
  | .qh => p.qh
  | .qt => p.qt

/-- The capacity of queue `q` in frames. -/
def N (p : Params) (q : Queue) : Nat := (p.fq q).N

/-- The number of synchroniser stages of queue `q`, per crossing. -/
def S (p : Params) (q : Queue) : Nat := (p.fq q).S

end Params

/-- `N` is a power of two with `2 <= N <= 128`, and `S >= 2` (00_scope.md R6, R7). -/
def FqParams.legal (f : FqParams) : Bool :=
  [2, 4, 8, 16, 32, 64, 128].contains f.N && decide (2 ≤ f.S)

/-- The constraints of 00_scope.md R6 and R7; a configuration that breaks one is not admitted. -/
def Params.legal (p : Params) : Bool :=
  p.qr.legal && p.qh.legal && p.qt.legal
  && decide (1 ≤ p.M) && decide (p.M ≤ 255)
  && decide (1 ≤ p.CNT_W) && decide (p.CNT_W ≤ 32)
  && decide ([p.FLAG, p.ESC, p.T_FLAG, p.T_ESC].Nodup)

/-- The defaults of 00_scope.md R6 (HDLC byte values, 90_conflicts.md C1). -/
def Params.default : Params where
  qr := ⟨4, 2⟩
  qh := ⟨4, 2⟩
  qt := ⟨4, 2⟩
  M := 127
  CNT_W := 16
  FLAG := 0x7E
  ESC := 0x7D
  T_FLAG := 0x5E
  T_ESC := 0x5D
  LEN_FIELD := true

/-- The SLIP byte values of 00_scope.md R8, another legal configuration. -/
def Params.slip : Params :=
  { Params.default with FLAG := 0xC0, ESC := 0xDB, T_FLAG := 0xDC, T_ESC := 0xDD }

/-- The `k`-th draw: the value an observer gets when it samples an output of a foreign clock domain
(10_state.md R56, 93_implementation_defined.md I2). A FREE VALUE: nothing constrains it (log 6). -/
opaque Config.freeDraw : Nat → BitVec 32

end Sys2Proof
end

