-- ==== Sys2Proof/Syntax.lean ====
section
/-! DEFINITION. The encoded forms of FQHL: one constructor per row of spec/opcode_table.json, and the ports that carry them. -/

namespace Sys2Proof

/-- The clock domains (10_state.md R32). -/
inductive Domain where
  | radio
  | task
  | link
  deriving DecidableEq, Repr

/-- The agents that drive a port (10_state.md R30, R31). The synchroniser agents drive none. -/
inductive Agent where
  | radio
  | task
  | host
  | frx
  | ftx
  deriving DecidableEq, Repr

/-- What carries an encoded form (30_encoding.md R110): a queue's producer port, its consumer port, or the
host-link receive stream. -/
inductive Port where
  | w (q : Queue)
  | r (q : Queue)
  | rx
  deriving DecidableEq, Repr

/-- The one agent that drives each port (70_reset_and_hazards.md R335, 10_state.md R30). -/
def Port.driver : Port → Agent
  | .w .qr => .radio
  | .w .qh => .frx
  | .w .qt => .task
  | .r .qr => .task
  | .r .qh => .task
  | .r .qt => .ftx
  | .rx => .host

/-- FRX and FTX are inside the block: they issue operations only within their own steps (43_framer_rx.md R220,
44_framer_tx.md R260). -/
def Agent.external : Agent → Bool
  | .radio => true
  | .task => true
  | .host => true
  | .frx => false
  | .ftx => false

/-- One constructor per row of spec/opcode_table.json. `q` is the queue whose port carries the command word.
A field the operation ignores is kept, and no meaning reads it (30_encoding.md R115, log 18). -/
inductive Instr where
  /-- PCW `0b000` -/
  | wNop (q : Queue) (data : Byte)
  /-- PCW `0b001` -/
  | wByte (q : Queue) (data : Byte)
  /-- PCW `0b010` -/
  | wCommit (q : Queue) (data : Byte)
  /-- PCW `0b011` -/
  | wAbort (q : Queue) (data : Byte)
  /-- PCW `0b100` -/
  | wClrcnt (q : Queue) (data : Byte)
  /-- PCW `0b101`, reserved -/
  | wRsv5 (q : Queue) (data : Byte)
  /-- PCW `0b11x`, reserved; `x` is the free bit -/
  | wRsv67 (q : Queue) (x : BitVec 1) (data : Byte)
  /-- CCW `0b000` -/
  | rNop (q : Queue) (idx : Byte)
  /-- CCW `0b001` -/
  | rRead (q : Queue) (idx : Byte)
  /-- CCW `0b010` -/
  | rPop (q : Queue) (idx : Byte)
  /-- CCW `0b011` -/
  | rClrerr (q : Queue) (idx : Byte)
  /-- CCW `0b1xx`, reserved; `xx` are the free bits -/
  | rRsv (q : Queue) (xx : BitVec 2) (idx : Byte)
  /-- the wire byte `FLAG` -/
  | wireFlag
  /-- the wire byte `ESC` -/
  | wireEsc
  /-- the wire byte `T_FLAG` -/
  | wireTFlag
  /-- the wire byte `T_ESC` -/
  | wireTEsc
  /-- any other wire byte -/
  | wireData (b : Byte)
  deriving DecidableEq, Repr

end Sys2Proof
end

