-- ==== Sys2Proof/WellFormed.lean ====
section
/-! DEFINITION. Which instructions an encoding exists for (spec/opcode_table.json, spec/30_encoding.md R119). -/

namespace Sys2Proof

/-- The four byte values that are rows of their own; `WIRE_DATA` "matches only when no row above matches"
(opcode_table.json). -/
def Params.framingByte (p : Params) (b : Byte) : Bool :=
  b == p.FLAG || b == p.ESC || b == p.T_FLAG || b == p.T_ESC

/-- Every command word encodes an instruction, whatever its fields (30_encoding.md R115, R116); a `WIRE_DATA` byte
is none of the four framing bytes. -/
def Instr.wf (p : Params) : Instr → Bool
  | .wNop _ _ => true
  | .wByte _ _ => true
  | .wCommit _ _ => true
  | .wAbort _ _ => true
  | .wClrcnt _ _ => true
  | .wRsv5 _ _ => true
  | .wRsv67 _ _ _ => true
  | .rNop _ _ => true
  | .rRead _ _ => true
  | .rPop _ _ => true
  | .rClrerr _ _ => true
  | .rRsv _ _ _ => true
  | .wireFlag => true
  | .wireEsc => true
  | .wireTFlag => true
  | .wireTEsc => true
  | .wireData b => !p.framingByte b

end Sys2Proof
end

