-- ==== Sys2Proof/Decode.lean ====
section
/-! DEFINITION. Decoding what a port carries, total, rejecting by name; and the encoder, written from the same
tables (spec/30_encoding.md R110 to R116, R119). -/

namespace Sys2Proof

/-- Why a presented value is no encoded form. There is one reason only: it is wider than the form (30_encoding.md R110).
Every 11-bit command word and every byte decodes (R116, R119). -/
inductive Reject where
  /-- a command word has 11 bits -/
  | widerThan11
  /-- a wire byte has 8 bits -/
  | widerThan8
  deriving DecidableEq, Repr

/-- The width of the form a port carries (30_encoding.md R110). -/
def Port.width : Port → Nat
  | .w _ => 11
  | .r _ => 11
  | .rx => 8

/-- The port that carries an instruction (30_encoding.md R110). -/
def Instr.port : Instr → Port
  | .wNop q _ => .w q
  | .wByte q _ => .w q
  | .wCommit q _ => .w q
  | .wAbort q _ => .w q
  | .wClrcnt q _ => .w q
  | .wRsv5 q _ => .w q
  | .wRsv67 q _ _ => .w q
  | .rNop q _ => .r q
  | .rRead q _ => .r q
  | .rPop q _ => .r q
  | .rClrerr q _ => .r q
  | .rRsv q _ _ => .r q
  | .wireFlag => .rx
  | .wireEsc => .rx
  | .wireTFlag => .rx
  | .wireTEsc => .rx
  | .wireData _ => .rx

/-- `OP`, bits 10:8 of a command word (30_encoding.md R111, R113). -/
def opField (w : BitVec 11) : BitVec 3 := w.extractLsb' 8 3

/-- `DATA` or `IDX`, bits 7:0 of a command word, unchanged (30_encoding.md R111, R113, R115). -/
def operandField (w : BitVec 11) : Byte := w.extractLsb' 0 8

/-- The producer operation codes (30_encoding.md R112). -/
def decodePcw (q : Queue) (w : BitVec 11) : Instr :=
  match (opField w).toNat with
  | 0 => .wNop q (operandField w)
  | 1 => .wByte q (operandField w)
  | 2 => .wCommit q (operandField w)
  | 3 => .wAbort q (operandField w)
  | 4 => .wClrcnt q (operandField w)
  | 5 => .wRsv5 q (operandField w)
  | _ => .wRsv67 q (w.extractLsb' 8 1) (operandField w)

/-- The consumer operation codes (30_encoding.md R114). -/
def decodeCcw (q : Queue) (w : BitVec 11) : Instr :=
  match (opField w).toNat with
  | 0 => .rNop q (operandField w)
  | 1 => .rRead q (operandField w)
  | 2 => .rPop q (operandField w)
  | 3 => .rClrerr q (operandField w)
  | _ => .rRsv q (w.extractLsb' 8 2) (operandField w)

/-- The wire symbol classes (30_encoding.md R119), the rows of opcode_table.json in their order. -/
def decodeWire (p : Params) (b : Byte) : Instr :=
  if b = p.FLAG then .wireFlag
  else if b = p.ESC then .wireEsc
  else if b = p.T_FLAG then .wireTFlag
  else if b = p.T_ESC then .wireTEsc
  else .wireData b

/-- What the value `raw` on port `port` means. -/
def decode (p : Params) (port : Port) (raw : Nat) : Except Reject Instr :=
  match port with
  | .w q => if raw < 2 ^ 11 then .ok (decodePcw q (BitVec.ofNat 11 raw)) else .error .widerThan11
  | .r q => if raw < 2 ^ 11 then .ok (decodeCcw q (BitVec.ofNat 11 raw)) else .error .widerThan11
  | .rx => if raw < 2 ^ 8 then .ok (decodeWire p (BitVec.ofNat 8 raw)) else .error .widerThan8

/-- A command word: `OP` above the operand, `(OP << 8) | operand` (30_encoding.md R111, R113). -/
def commandWord (op : BitVec 3) (operand : Byte) : Nat := (op.toNat <<< 8) ||| operand.toNat

/-- The port and the word that carry an instruction (30_encoding.md R111 to R114, R119). -/
def encode (p : Params) : Instr → Port × Nat
  | .wNop q d => (.w q, commandWord 0b000 d)
  | .wByte q d => (.w q, commandWord 0b001 d)
  | .wCommit q d => (.w q, commandWord 0b010 d)
  | .wAbort q d => (.w q, commandWord 0b011 d)
  | .wClrcnt q d => (.w q, commandWord 0b100 d)
  | .wRsv5 q d => (.w q, commandWord 0b101 d)
  | .wRsv67 q x d => (.w q, commandWord (0b11#2 ++ x) d)
  | .rNop q d => (.r q, commandWord 0b000 d)
  | .rRead q d => (.r q, commandWord 0b001 d)
  | .rPop q d => (.r q, commandWord 0b010 d)
  | .rClrerr q d => (.r q, commandWord 0b011 d)
  | .rRsv q xx d => (.r q, commandWord (0b1#1 ++ xx) d)
  | .wireFlag => (.rx, p.FLAG.toNat)
  | .wireEsc => (.rx, p.ESC.toNat)
  | .wireTFlag => (.rx, p.T_FLAG.toNat)
  | .wireTEsc => (.rx, p.T_ESC.toNat)
  | .wireData b => (.rx, b.toNat)

/-- The port on which a table word of `nbits` bits is read: a wire byte where it has at most eight bits, else the
producer port of `QR`. A CCW has the width and the patterns of a PCW, so the port alone tells them apart, and
`(nbits, w)` does not name one. DESIGN CHOICE, safe (log 5). -/
def tablePort (nbits : Nat) : Port := if nbits ≤ 8 then .rx else .w .qr

/-- The instruction the decoder reads from a table word, at the default parameters. -/
def decodeTableWord (nbits w : Nat) : Option Instr :=
  (decode Params.default (tablePort nbits) w).toOption

end Sys2Proof
end

