-- ==== Sys2Proof/Machine/State.lean ====
section
/-! DEFINITION. The state of FQHL as plain data (spec/10_state.md), its reset value, and the reasons a step can stop. -/

namespace Sys2Proof.Machine

/-- `w_result` (10_state.md R37). -/
inductive WResult where
  | none
  | ok
  | full
  | tooLong
  deriving DecidableEq, Repr

/-- `r_result` (10_state.md R42); the code 3 is never written (93_implementation_defined.md I7). -/
inductive RResult where
  | none
  | ok
  | empty
  deriving DecidableEq, Repr

/-- `d_state`, the enumeration of five states that 10_state.md R48 admits. -/
inductive DState where
  | hunt
  | start
  | lenEsc
  | body
  | bodyEsc
  deriving DecidableEq, Repr

/-- `d_last_err` (10_state.md R49). -/
inductive DError where
  | none
  | delim
  | escape
  | length
  deriving DecidableEq, Repr

/-- `e_state` (10_state.md R52). -/
inductive EState where
  | idle
  | len
  | data
  | close
  deriving DecidableEq, Repr

/-- The slot memory of one queue: the bytes written so far, addresses strictly rising. An unlisted address holds no
value (20_memory.md R84). -/
abbrev Memory := List Host.Cell

/-- One frame queue instance (10_state.md R34 to R43). -/
structure Fq where
  wbin       : Ptr
  wgray      : Ptr
  rsync      : List Ptr
  w_open     : Bool
  w_len      : Byte
  w_discard  : Bool
  w_oversize : Bool
  w_result   : WResult
  w_drop_cnt : Cnt
  w_long_cnt : Cnt
  w_operr    : Bool
  rbin       : Ptr
  rgray      : Ptr
  wsync      : List Ptr
  r_rdata    : Byte
  r_result   : RResult
  r_operr    : Bool
  mem        : Memory
  deriving DecidableEq, Repr

/-- The decoder's registers (10_state.md R47). -/
structure Frx where
  d_state    : DState
  d_len      : Byte
  d_cnt      : Byte
  d_err_cnt  : Cnt
  d_ok_cnt   : Cnt
  d_last_err : DError
  deriving DecidableEq, Repr

/-- The encoder's registers (10_state.md R51). -/
structure Ftx where
  e_state  : EState
  e_pend   : Bool
  e_pbyte  : Byte
  e_len    : Byte
  e_idx    : Byte
  e_ok_cnt : Cnt
  deriving DecidableEq, Repr

/-- Everything an agent can observe on a port or at FRX and FTX (10_state.md R44 to R46, R50, R52;
60_exceptions.md R310). -/
inductive Output where
  | wStatus (q : Queue)
  | wFull (q : Queue)
  | wLevel (q : Queue)
  | wIrq (q : Queue)
  | wDropCnt (q : Queue)
  | wLongCnt (q : Queue)
  | rStatus (q : Queue)
  | rEmpty (q : Queue)
  | rLevel (q : Queue)
  | rIrq (q : Queue)
  | rLen (q : Queue)
  | rRdata (q : Queue)
  | dStatus
  | dErrCnt
  | dOkCnt
  | eStatus
  | eOkCnt
  deriving DecidableEq, Repr

/-- One step of one agent (10_state.md R31), as the environment or the interleaving presents it. -/
inductive Event where
  /-- agent `a` presents the value `raw` on port `port` (a command word, or a byte HOST offers) -/
  | command (a : Agent) (port : Port) (raw : Nat)
  /-- HOST accepts a byte, so FTX steps (44_framer_tx.md R260) -/
  | ftx
  /-- one clock of `q.SYNC_W2R` (42_sync.md R201) -/
  | syncW2R (q : Queue)
  /-- one clock of `q.SYNC_R2W` (42_sync.md R202) -/
  | syncR2W (q : Queue)
  /-- `RESET` of the whole block (70_reset_and_hazards.md R330) -/
  | reset
  /-- a reset of one domain alone, which a model refuses (70_reset_and_hazards.md R333) -/
  | partialReset (d : Domain)
  /-- an observer in domain `d` samples output `o` (10_state.md R56) -/
  | sample (d : Domain) (o : Output)
  deriving DecidableEq, Repr

/-- The state of FQHL, in the reference composition of 10_state.md R30 (log 23). -/
structure State where
  /-- the build-time parameters; no step changes them (70_reset_and_hazards.md R340, log 1) -/
  params  : Params
  qr      : Fq
  qh      : Fq
  qt      : Fq
  frx     : Frx
  ftx     : Ftx
  /-- the bytes FTX has emitted, oldest first (10_state.md R53) -/
  txlog   : List Byte
  /-- the model's own: the steps still to come, the next one first (log 3) -/
  pending : List Event
  /-- the model's own: how many free values foreign-domain reads have drawn (log 6) -/
  draws   : Nat
  /-- the model's own: what the latest observation showed its observer (log 7) -/
  seen    : BitVec 32
  deriving DecidableEq, Repr

/-- Why the machine stops with a fault. Both are unreachable from reset (20_memory.md R84, R210 of 42_sync.md). -/
inductive Fault where
  /-- SAFE. Raised by a read of slot memory (`R_READ`, `r_len`, and FTX through them) of a byte that has not been
  written: it holds no value (20_memory.md R84, 93_implementation_defined.md I1; log 8). -/
  | unwrittenSlotByte
  /-- SAFE. Raised by an access to a data byte outside `slot[i].data[0 .. M-1]`, which does not exist
  (20_memory.md R80; log 10). -/
  | outsideSlot
  deriving DecidableEq, Repr

/-- Why the machine refuses a step. -/
inductive Refusal where
  /-- SAFE. Raised by `exec` for an instruction that has no meaning yet. -/
  | notModelled (mnemonic : String)
  /-- SAFE. Raised by every step and meaning under parameters that break 00_scope.md R7: "the model refuses it and
  gives it no meaning" (log 14). -/
  | illegalConfiguration
  /-- SAFE. Raised by a reset of one clock domain alone: "A model refuses such a step"
  (70_reset_and_hazards.md R333; log 13). -/
  | partialReset
  /-- SAFE. Raised by a command presented by an agent that is not the port's one driver, or by FRX or FTX outside
  their own steps: "a model refuses it" (70_reset_and_hazards.md R335; log 12). -/
  | notTheDriver
  /-- SAFE. Raised by a presented value wider than the form its port carries (30_encoding.md R110; log 24). -/
  | notAPortWord (why : Reject)
  deriving DecidableEq, Repr

/-- A queue with `S` synchroniser stages at the reset values of 10_state.md R34 to R42; `mem` is what the slot memory
holds, which reset does not change (R43). -/
def Fq.resetTo (S : Nat) (mem : Memory) : Fq where
  wbin := 0
  wgray := 0
  rsync := List.replicate S 0
  w_open := false
  w_len := 0
  w_discard := false
  w_oversize := false
  w_result := .none
  w_drop_cnt := 0
  w_long_cnt := 0
  w_operr := false
  rbin := 0
  rgray := 0
  wsync := List.replicate S 0
  r_rdata := 0
  r_result := .none
  r_operr := false
  mem := mem

/-- The reset values of 10_state.md R47. -/
def Frx.reset : Frx where
  d_state := .hunt
  d_len := 0
  d_cnt := 0
  d_err_cnt := 0
  d_ok_cnt := 0
  d_last_err := .none

/-- The reset values of 10_state.md R51. -/
def Ftx.reset : Ftx where
  e_state := .idle
  e_pend := false
  e_pbyte := 0
  e_len := 0
  e_idx := 0
  e_ok_cnt := 0

/-- The block right after reset under parameters `p`: every register at its reset value, no slot byte written, nothing
sent, and (the model's own fields) no step pending, no draw taken, nothing seen. -/
def State.resetWith (p : Params) : State where
  params := p
  qr := Fq.resetTo p.qr.S []
  qh := Fq.resetTo p.qh.S []
  qt := Fq.resetTo p.qt.S []
  frx := Frx.reset
  ftx := Ftx.reset
  txlog := []
  pending := []
  draws := 0
  seen := 0

/-- The machine right after reset, at the default parameters (00_scope.md R6; 70_reset_and_hazards.md R330). -/
def State.reset : State := State.resetWith Params.default

end Sys2Proof.Machine
end

