-- ==== Sys2Proof/Machine/Ops.lean ====
section
/-! DEFINITION. The operations every meaning shares: gray code and pointer arithmetic (spec/00_scope.md R13), slot memory
(spec/20_memory.md R80 to R84), synchroniser shifts (spec/42_sync.md R201, R202), and how a meaning ends. -/

namespace Sys2Proof.Machine

/-! ## Pointers, gray code and counters (00_scope.md R6, R13) -/

/-- `AW = log2(N)`. -/
def aw (N : Nat) : Nat := N.log2

/-- `PW = AW + 1`. -/
def pw (N : Nat) : Nat := aw N + 1

/-- `gray(b) = b ^ (b >> 1)` (00_scope.md R13). -/
def gray (b : Ptr) : Ptr := b ^^^ (b >>> 1)

/-- The inverse of `gray`: bit `i` of the result is the exclusive-or of the bits `i` and above of `g`, which is the
bit-by-bit rule of 00_scope.md R13 written as shifts. -/
def gray2bin (g : Ptr) : Ptr := (List.range 8).foldl (fun b k => b ^^^ (g >>> k)) 0

/-- `slotidx(p) = p[AW-1:0]`, that is `p mod N` (00_scope.md R13). -/
def slotidx (N : Nat) (p : Ptr) : Nat := p.toNat % N

/-- `FULLMASK = 0b11 << (PW-2)` (00_scope.md R13). -/
def fullMask (N : Nat) : Ptr := 0b11#8 <<< (pw N - 2)

/-- `(p + 1) mod 2N` (00_scope.md R11). -/
def ptrSucc (N : Nat) (p : Ptr) : Ptr := BitVec.ofNat 8 ((p.toNat + 1) % (2 * N))

/-- `(a - b) mod 2N` (00_scope.md R11); `2N` divides the 256 at which eight bits wrap. -/
def ptrDiff (N : Nat) (a b : Ptr) : Ptr := BitVec.ofNat 8 ((a - b).toNat % (2 * N))

/-- The largest value of a counter, `2^CNT_W - 1`. -/
def cntMax (p : Params) : Cnt := BitVec.ofNat 32 (2 ^ p.CNT_W - 1)

/-- `sat_inc` (00_scope.md R13). -/
def satInc (p : Params) (c : Cnt) : Cnt := if c = cntMax p then c else c + 1

/-! ## Slot memory -/

/-- The byte at an address; `none` where nothing has been written (20_memory.md R84). -/
def Memory.read : Memory → Nat → Option Byte
  | [], _ => none
  | (k, v) :: m, a => if k = a then some v else Memory.read m a

/-- Writing a byte keeps the addresses strictly rising. -/
def Memory.write : Memory → Nat → Byte → Memory
  | [], a, v => [(a, v)]
  | (k, u) :: m, a, v =>
    if a < k then (a, v) :: (k, u) :: m
    else if a = k then (a, v) :: m
    else (k, u) :: Memory.write m a v

/-- The canonical form: addresses strictly rising. No entry equals what an unlisted address reads as, since that is
no value at all. -/
abbrev Memory.wf (m : Memory) : Prop := List.Pairwise (fun c d => c.1 < d.1) m

/-- `n` bytes from address `a` upward; `none` if one of them has not been written. -/
def Memory.readBytes (m : Memory) : Nat → Nat → Option (List Byte)
  | _, 0 => some []
  | a, n + 1 =>
    match m.read a, Memory.readBytes m (a + 1) n with
    | some b, some bs => some (b :: bs)
    | _, _ => none

/-- The address of `slot[i].len`, in the flat layout 20_memory.md R80 offers. DESIGN CHOICE, safe (log 11). -/
def lenAddr (p : Params) (i : Nat) : Nat := i * (p.M + 1)

/-- The address of `slot[i].data[j]` (20_memory.md R80). -/
def dataAddr (p : Params) (i j : Nat) : Nat := i * (p.M + 1) + 1 + j

/-- The number of bytes of a queue's slot memory (20_memory.md R80). -/
def memSize (p : Params) (q : Queue) : Nat := p.N q * (p.M + 1)

/-- `MemWrite(q, i, j, v)` (00_scope.md R12). A data byte outside the slots of 20_memory.md R80 does not exist. -/
def memWrite (p : Params) (q : Queue) (i j : Nat) (v : Byte) (m : Memory) : Except Fault Memory :=
  if i < p.N q ∧ j < p.M then .ok (m.write (dataAddr p i j) v) else .error .outsideSlot

/-- `MemRead(q, i, j)` (00_scope.md R12). -/
def memRead (p : Params) (q : Queue) (i j : Nat) (m : Memory) : Except Fault Byte :=
  if i < p.N q ∧ j < p.M then
    match m.read (dataAddr p i j) with
    | some v => .ok v
    | none => .error .unwrittenSlotByte
  else .error .outsideSlot

/-- The byte `slot[i].len`. -/
def lenRead (p : Params) (i : Nat) (m : Memory) : Except Fault Byte :=
  match m.read (lenAddr p i) with
  | some v => .ok v
  | none => .error .unwrittenSlotByte

/-! ## Synchroniser chains -/

/-- One clock of a chain: stage 0 takes the source, stage `j` takes what stage `j-1` held (42_sync.md R201, R202). -/
def shiftIn (src : Ptr) (chain : List Ptr) : List Ptr := src :: chain.dropLast

/-- The last stage, `chain[S-1]`; a chain has at least two stages (00_scope.md R6). Of no stage at all, which no run
reaches, it is 0. DESIGN CHOICE, unsafe there (log 22). -/
def lastStage (chain : List Ptr) : Ptr := chain.getLastD 0

/-! ## The instances of the composition -/

/-- The queue instance `q`. -/
def State.fq (s : State) : Queue → Fq
  | .qr => s.qr
  | .qh => s.qh
  | .qt => s.qt

/-- The state with queue instance `q` replaced. -/
def State.setFq (s : State) (q : Queue) (f : Fq) : State :=
  match q with
  | .qr => { s with qr := f }
  | .qh => { s with qh := f }
  | .qt => { s with qt := f }

/-! ## How a meaning ends -/

/-- A meaning under parameters that break 00_scope.md R7 is refused (log 14). -/
def ifLegal (p : Params) (k : Host.Outcome State Fault Refusal) : Host.Outcome State Fault Refusal :=
  if p.legal then k else .refused .illegalConfiguration

/-- The step whose effect is `r`. -/
def finish (s : State) (r : Except Fault State) : Host.Outcome State Fault Refusal :=
  ifLegal s.params <|
    match r with
    | .ok s' => .next s'
    | .error e => .fault e

/-- The step of queue `q` whose effect on the queue is `r`; nothing else changes. -/
def finishFq (s : State) (q : Queue) (r : Except Fault Fq) : Host.Outcome State Fault Refusal :=
  finish s (r.map (s.setFq q))

end Sys2Proof.Machine
end

