-- ==== Sys2Proof/Machine/Clocks.lean ====
section
/-! DEFINITION. The synchroniser steps (spec/42_sync.md R201, R202) and `RESET` (spec/70_reset_and_hazards.md R330). They
have no encoding (spec/30_encoding.md R110). -/

namespace Sys2Proof.Machine

/-- `q.SYNC_W2R` (42_sync.md R201). -/
def Fq.syncW2R (f : Fq) : Fq := { f with wsync := shiftIn f.wgray f.wsync }

/-- `q.SYNC_R2W` (42_sync.md R202). -/
def Fq.syncR2W (f : Fq) : Fq := { f with rsync := shiftIn f.rgray f.rsync }

/-- One clock of the read domain's synchroniser of queue `q`. -/
def syncW2R (q : Queue) (s : State) : State := s.setFq q (s.fq q).syncW2R

/-- One clock of the write domain's synchroniser of queue `q`. -/
def syncR2W (q : Queue) (s : State) : State := s.setFq q (s.fq q).syncR2W

/-- `RESET`: every register of every domain to its reset value; the slot memory and `txlog` unchanged
(70_reset_and_hazards.md R330). The model's own fields stay: the interleaving goes on (log 20). -/
def resetAll (s : State) : State :=
  { s with
    qr := Fq.resetTo s.params.qr.S s.qr.mem
    qh := Fq.resetTo s.params.qh.S s.qh.mem
    qt := Fq.resetTo s.params.qt.S s.qt.mem
    frx := Frx.reset
    ftx := Ftx.reset }

end Sys2Proof.Machine
end

