-- ==== Sys2Proof/Machine/Flags.lean ====
section
/-! DEFINITION. Every flag, level, status word and derived output (spec/10_state.md R44 to R46, R50, R52;
spec/42_sync.md R204 to R207; spec/41_queue_read.md R180; spec/60_exceptions.md R310), and reading one (R56). -/

namespace Sys2Proof.Machine

/-! ## The codes of the enumerations -/

/-- 10_state.md R37. -/
def WResult.code : WResult → BitVec 2
  | .none => 0
  | .ok => 1
  | .full => 2
  | .tooLong => 3

/-- 10_state.md R42. -/
def RResult.code : RResult → BitVec 2
  | .none => 0
  | .ok => 1
  | .empty => 2

/-- 10_state.md R48. -/
def DState.code : DState → BitVec 3
  | .hunt => 0
  | .start => 1
  | .lenEsc => 2
  | .body => 3
  | .bodyEsc => 4

/-- 10_state.md R49. -/
def DError.code : DError → BitVec 2
  | .none => 0
  | .delim => 1
  | .escape => 2
  | .length => 3

/-- 10_state.md R52. -/
def EState.code : EState → BitVec 2
  | .idle => 0
  | .len => 1
  | .data => 2
  | .close => 3

/-! ## The write domain of a queue -/

/-- `rq = rsync[S-1]` (10_state.md R35). -/
def Fq.rq (f : Fq) : Ptr := lastStage f.rsync

/-- `w_full` (42_sync.md R204). -/
def Fq.w_full (N : Nat) (f : Fq) : Bool := f.wgray == f.rq ^^^ fullMask N

/-- `w_level` (42_sync.md R206). -/
def Fq.w_level (N : Nat) (f : Fq) : Byte := ptrDiff N f.wbin (gray2bin f.rq)

/-- `w_irq` (60_exceptions.md R310). -/
def Fq.w_irq (N : Nat) (f : Fq) : Bool := !f.w_full N

/-- `W_STATUS` (10_state.md R45), from bit 15 down. -/
def Fq.W_STATUS (N : Nat) (f : Fq) : BitVec 16 :=
  f.w_level N
    ++ (0#1 ++ BitVec.ofBool f.w_operr ++ f.w_result.code ++ BitVec.ofBool f.w_oversize
      ++ BitVec.ofBool f.w_discard ++ BitVec.ofBool f.w_open ++ BitVec.ofBool (f.w_full N) : BitVec 8)

/-! ## The read domain of a queue -/

/-- `wq = wsync[S-1]` (10_state.md R41). -/
def Fq.wq (f : Fq) : Ptr := lastStage f.wsync

/-- `r_empty` (42_sync.md R205). -/
def Fq.r_empty (f : Fq) : Bool := f.rgray == f.wq

/-- `r_level` (42_sync.md R207). -/
def Fq.r_level (N : Nat) (f : Fq) : Byte := ptrDiff N (gray2bin f.wq) f.rbin

/-- `r_irq` (60_exceptions.md R310). -/
def Fq.r_irq (f : Fq) : Bool := !f.r_empty

/-- `r_len` (41_queue_read.md R180). It reads the slot memory only while `r_empty = 0`. -/
def Fq.r_len (p : Params) (q : Queue) (f : Fq) : Except Fault Byte :=
  if f.r_empty then .ok 0 else lenRead p (slotidx (p.N q) f.rbin) f.mem

/-- `R_STATUS` (10_state.md R46), from bit 15 down. -/
def Fq.R_STATUS (N : Nat) (f : Fq) : BitVec 16 :=
  f.r_level N
    ++ (0#4 ++ BitVec.ofBool f.r_operr ++ f.r_result.code ++ BitVec.ofBool f.r_empty : BitVec 8)

/-! ## The framer -/

/-- `D_STATUS` (10_state.md R50). -/
def Frx.D_STATUS (d : Frx) : BitVec 8 := 0#3 ++ d.d_last_err.code ++ d.d_state.code

/-- `E_STATUS` (10_state.md R52). -/
def Ftx.E_STATUS (e : Ftx) : BitVec 8 := 0#5 ++ BitVec.ofBool e.e_pend ++ e.e_state.code

/-! ## Observing an output -/

/-- The domain of a queue's producer port (10_state.md R32). -/
def wDomain : Queue → Domain
  | .qr => .radio
  | .qh => .link
  | .qt => .task

/-- The domain of a queue's consumer port (10_state.md R32). -/
def rDomain : Queue → Domain
  | .qr => .task
  | .qh => .task
  | .qt => .link

/-- The domain an output is defined in (10_state.md R44, R56). An observer is named by its domain (log 26). -/
def Output.domain : Output → Domain
  | .wStatus q => wDomain q
  | .wFull q => wDomain q
  | .wLevel q => wDomain q
  | .wIrq q => wDomain q
  | .wDropCnt q => wDomain q
  | .wLongCnt q => wDomain q
  | .rStatus q => rDomain q
  | .rEmpty q => rDomain q
  | .rLevel q => rDomain q
  | .rIrq q => rDomain q
  | .rLen q => rDomain q
  | .rRdata q => rDomain q
  | .dStatus => .link
  | .dErrCnt => .link
  | .dOkCnt => .link
  | .eStatus => .link
  | .eOkCnt => .link

/-- The width of an output in bits (10_state.md R44 to R52). -/
def Output.width (p : Params) : Output → Nat
  | .wStatus _ => 16
  | .wFull _ => 1
  | .wLevel _ => 8
  | .wIrq _ => 1
  | .wDropCnt _ => p.CNT_W
  | .wLongCnt _ => p.CNT_W
  | .rStatus _ => 16
  | .rEmpty _ => 1
  | .rLevel _ => 8
  | .rIrq _ => 1
  | .rLen _ => 8
  | .rRdata _ => 8
  | .dStatus => 8
  | .dErrCnt => p.CNT_W
  | .dOkCnt => p.CNT_W
  | .eStatus => 8
  | .eOkCnt => p.CNT_W

/-- The value an output has in its own domain, zero-extended. -/
def Output.value (s : State) : Output → Except Fault (BitVec 32)
  | .wStatus q => .ok (((s.fq q).W_STATUS (s.params.N q)).setWidth 32)
  | .wFull q => .ok ((BitVec.ofBool ((s.fq q).w_full (s.params.N q))).setWidth 32)
  | .wLevel q => .ok (((s.fq q).w_level (s.params.N q)).setWidth 32)
  | .wIrq q => .ok ((BitVec.ofBool ((s.fq q).w_irq (s.params.N q))).setWidth 32)
  | .wDropCnt q => .ok (s.fq q).w_drop_cnt
  | .wLongCnt q => .ok (s.fq q).w_long_cnt
  | .rStatus q => .ok (((s.fq q).R_STATUS (s.params.N q)).setWidth 32)
  | .rEmpty q => .ok ((BitVec.ofBool (s.fq q).r_empty).setWidth 32)
  | .rLevel q => .ok (((s.fq q).r_level (s.params.N q)).setWidth 32)
  | .rIrq q => .ok ((BitVec.ofBool (s.fq q).r_irq).setWidth 32)
  | .rLen q => ((s.fq q).r_len s.params q).map (·.setWidth 32)
  | .rRdata q => .ok ((s.fq q).r_rdata.setWidth 32)
  | .dStatus => .ok (s.frx.D_STATUS.setWidth 32)
  | .dErrCnt => .ok s.frx.d_err_cnt
  | .dOkCnt => .ok s.frx.d_ok_cnt
  | .eStatus => .ok (s.ftx.E_STATUS.setWidth 32)
  | .eOkCnt => .ok s.ftx.e_ok_cnt

/-- The free value a foreign-domain read of a `w`-bit output draws: any `w`-bit value (10_state.md R56; log 6). -/
def foreignDraw (w k : Nat) : BitVec 32 := BitVec.ofNat 32 ((Config.freeDraw k).toNat % 2 ^ w)

/-- An observer in domain `d` samples output `o`. In the output's own domain it sees the value; in any other it sees a
draw (10_state.md R56, 70_reset_and_hazards.md R339). No state of FQHL changes (20_memory.md R88): only the model's own
`seen` and `draws` do (log 6, log 7). -/
def sample (d : Domain) (o : Output) (s : State) : Except Fault State :=
  if o.domain = d then
    match o.value s with
    | .ok v => .ok { s with seen := v }
    | .error e => .error e
  else
    .ok { s with seen := foreignDraw (o.width s.params) s.draws, draws := s.draws + 1 }

end Sys2Proof.Machine
end

