-- ==== Sys2Proof/Machine/Operands.lean ====
section
/-! DEFINITION. The operand forms: the byte a wire row stands for, and the escape code of the wire
(spec/30_encoding.md R115, R117, R118; spec/43_framer_rx.md R225). `DATA` and `IDX` are used unchanged (R115). -/

namespace Sys2Proof.Machine

/-- `escb(v)` (30_encoding.md R117). -/
def escb (p : Params) (v : Byte) : List Byte :=
  if v = p.FLAG then [p.ESC, p.T_FLAG]
  else if v = p.ESC then [p.ESC, p.T_ESC]
  else [v]

/-- `unesc(c)` (43_framer_rx.md R225). -/
def unesc (p : Params) (c : Byte) : Option Byte :=
  if c = p.T_FLAG then some p.FLAG
  else if c = p.T_ESC then some p.ESC
  else none

/-- The length header `H` of an encoded frame of `L` bytes (30_encoding.md R118). -/
def lenHeader (p : Params) (L : Nat) : List Byte :=
  if p.LEN_FIELD then escb p (BitVec.ofNat 8 L) else []

/-- `encode(F)` (30_encoding.md R118). -/
def encodeFrame (p : Params) (F : Frame) : List Byte :=
  [p.FLAG] ++ lenHeader p F.length ++ F.flatMap (escb p) ++ [p.FLAG]

end Sys2Proof.Machine
end

