-- ==== Sys2Proof/Machine/QueueWrite.lean ====
section
/-! DEFINITION. The producer operations of a queue (spec/40_queue_write.md R150 to R163) and the meanings of the PCW rows.
The operations do not depend on which agent drives the port (spec/10_state.md R30). -/

namespace Sys2Proof.Machine

/-- The frame-assembly values an operation works with. -/
structure Assembly where
  len      : Byte
  discard  : Bool
  oversize : Bool
  deriving DecidableEq, Repr

/-- `open_frame()` (40_queue_write.md R152): fullness is decided once, when the frame opens. -/
def openFrame (N : Nat) (f : Fq) : Assembly where
  len := 0
  discard := f.w_full N
  oversize := false

/-- The frame being assembled, opened now if none is (40_queue_write.md R151, R155). -/
def Fq.assembly (N : Nat) (f : Fq) : Assembly :=
  if f.w_open then ⟨f.w_len, f.w_discard, f.w_oversize⟩ else openFrame N f

/-- No frame open: what `W_COMMIT` and `W_ABORT` leave of the frame-assembly registers (40_queue_write.md R155, R157). -/
def Fq.closeFrame (f : Fq) : Fq :=
  { f with w_open := false, w_len := 0, w_discard := false, w_oversize := false }

/-- `W_NOP` (40_queue_write.md R153). -/
def Fq.wNop (f : Fq) : Fq := f

/-- `W_BYTE d` (40_queue_write.md R151). -/
def Fq.wByte (p : Params) (q : Queue) (d : Byte) (f : Fq) : Except Fault Fq :=
  let a := f.assembly (p.N q)
  if a.discard then
    .ok { f with w_open := true, w_len := a.len, w_discard := true, w_oversize := a.oversize }
  else if a.len.toNat = p.M then
    .ok { f with w_open := true, w_len := a.len, w_discard := false, w_oversize := true }
  else
    match memWrite p q (slotidx (p.N q) f.wbin) a.len.toNat d f.mem with
    | .ok m =>
      .ok { f with mem := m, w_open := true, w_len := a.len + 1, w_discard := false, w_oversize := a.oversize }
    | .error e => .error e

/-- `W_COMMIT` (40_queue_write.md R155): publish the frame, or drop and count it. -/
def Fq.wCommit (p : Params) (q : Queue) (f : Fq) : Fq :=
  let a := f.assembly (p.N q)
  if a.discard then
    { f.closeFrame with w_drop_cnt := satInc p f.w_drop_cnt, w_result := .full }
  else if a.oversize then
    { f.closeFrame with w_long_cnt := satInc p f.w_long_cnt, w_result := .tooLong }
  else
    { f.closeFrame with
      mem := f.mem.write (lenAddr p (slotidx (p.N q) f.wbin)) a.len
      wbin := ptrSucc (p.N q) f.wbin
      wgray := gray (ptrSucc (p.N q) f.wbin)
      w_result := .ok }

/-- `W_ABORT` (40_queue_write.md R157). -/
def Fq.wAbort (f : Fq) : Fq := { f.closeFrame with w_result := .none }

/-- `W_CLRCNT` (40_queue_write.md R158). -/
def Fq.wClrcnt (f : Fq) : Fq := { f with w_drop_cnt := 0, w_long_cnt := 0, w_operr := false }

/-- `W_RSV`, a reserved producer code (40_queue_write.md R159). -/
def Fq.wRsv (f : Fq) : Fq := { f with w_operr := true }

/-! ## The meanings of the PCW rows -/

/-- `W_NOP` on `q.W`. -/
def execWNop (q : Queue) (s : State) : Host.Outcome State Fault Refusal :=
  finishFq s q (.ok (s.fq q).wNop)

/-- `W_BYTE d` on `q.W`. -/
def execWByte (q : Queue) (d : Byte) (s : State) : Host.Outcome State Fault Refusal :=
  finishFq s q ((s.fq q).wByte s.params q d)

/-- `W_COMMIT` on `q.W`. -/
def execWCommit (q : Queue) (s : State) : Host.Outcome State Fault Refusal :=
  finishFq s q (.ok ((s.fq q).wCommit s.params q))

/-- `W_ABORT` on `q.W`. -/
def execWAbort (q : Queue) (s : State) : Host.Outcome State Fault Refusal :=
  finishFq s q (.ok (s.fq q).wAbort)

/-- `W_CLRCNT` on `q.W`. -/
def execWClrcnt (q : Queue) (s : State) : Host.Outcome State Fault Refusal :=
  finishFq s q (.ok (s.fq q).wClrcnt)

/-- The reserved code `0b101` on `q.W`. -/
def execWRsv5 (q : Queue) (s : State) : Host.Outcome State Fault Refusal :=
  finishFq s q (.ok (s.fq q).wRsv)

/-- The reserved codes `0b110` and `0b111` on `q.W`. -/
def execWRsv67 (q : Queue) (s : State) : Host.Outcome State Fault Refusal :=
  finishFq s q (.ok (s.fq q).wRsv)

end Sys2Proof.Machine
end

