-- ==== Sys2Proof/Machine/LinkRx.lean ====
section
/-! DEFINITION. The host-link decoder FRX (spec/43_framer_rx.md R220 to R241) and the meanings of the wire rows. -/

namespace Sys2Proof.Machine

/-- The one producer operation an FRX step issues on `QH.W` (43_framer_rx.md R220). -/
inductive FrxOp where
  | nop
  | byte (v : Byte)
  | commit
  | abort
  deriving DecidableEq, Repr

/-- The operation, executed by 40_queue_write.md. -/
def FrxOp.run (p : Params) (f : Fq) : FrxOp → Except Fault Fq
  | .nop => .ok f.wNop
  | .byte v => f.wByte p .qh v
  | .commit => .ok (f.wCommit p .qh)
  | .abort => .ok f.wAbort

/-- `err(code, next)` (43_framer_rx.md R221). -/
def Frx.err (p : Params) (code : DError) (next : DState) (d : Frx) : Frx × FrxOp :=
  ({ d with
      d_err_cnt := satInc p d.d_err_cnt
      d_last_err := code
      d_state := next
      d_cnt := 0
      d_len := 0 }, .abort)

/-- `accept_len(v)` (43_framer_rx.md R222). -/
def Frx.acceptLen (p : Params) (v : Byte) (d : Frx) : Frx × FrxOp :=
  if p.M < v.toNat then d.err p .length .hunt
  else ({ d with d_len := v, d_cnt := 0, d_state := .body }, .nop)

/-- `data(v)` (43_framer_rx.md R223). -/
def Frx.data (p : Params) (v : Byte) (d : Frx) : Frx × FrxOp :=
  if (p.LEN_FIELD ∧ d.d_cnt = d.d_len) ∨ d.d_cnt.toNat = p.M then d.err p .length .hunt
  else ({ d with d_cnt := d.d_cnt + 1, d_state := .body }, .byte v)

/-- `end_frame()` (43_framer_rx.md R224). -/
def Frx.endFrame (p : Params) (d : Frx) : Frx × FrxOp :=
  if p.LEN_FIELD ∧ d.d_cnt.toNat < d.d_len.toNat then d.err p .delim .start
  else
    ({ d with d_ok_cnt := satInc p d.d_ok_cnt, d_state := .start, d_cnt := 0, d_len := 0 }, .commit)

/-- HUNT (43_framer_rx.md R226). -/
def Frx.inHunt (p : Params) (b : Byte) (d : Frx) : Frx × FrxOp :=
  if b = p.FLAG then ({ d with d_state := .start }, .nop) else (d, .nop)

/-- START (43_framer_rx.md R227). -/
def Frx.inStart (p : Params) (b : Byte) (d : Frx) : Frx × FrxOp :=
  if b = p.FLAG then (d, .nop)
  else if b = p.ESC then ({ d with d_state := if p.LEN_FIELD then .lenEsc else .bodyEsc }, .nop)
  else if p.LEN_FIELD then d.acceptLen p b
  else d.data p b

/-- LEN_ESC (43_framer_rx.md R228). -/
def Frx.inLenEsc (p : Params) (b : Byte) (d : Frx) : Frx × FrxOp :=
  if b = p.FLAG then d.err p .escape .start
  else
    match unesc p b with
    | some v => d.acceptLen p v
    | none => d.err p .escape .hunt

/-- BODY (43_framer_rx.md R229). -/
def Frx.inBody (p : Params) (b : Byte) (d : Frx) : Frx × FrxOp :=
  if b = p.FLAG then d.endFrame p
  else if b = p.ESC then ({ d with d_state := .bodyEsc }, .nop)
  else d.data p b

/-- BODY_ESC (43_framer_rx.md R230). -/
def Frx.inBodyEsc (p : Params) (b : Byte) (d : Frx) : Frx × FrxOp :=
  if b = p.FLAG then d.err p .escape .start
  else
    match unesc p b with
    | some v => d.data p v
    | none => d.err p .escape .hunt

/-- What FRX does with one byte: its new registers and the operation it issues (43_framer_rx.md R220). -/
def Frx.byte (p : Params) (b : Byte) (d : Frx) : Frx × FrxOp :=
  match d.d_state with
  | .hunt => d.inHunt p b
  | .start => d.inStart p b
  | .lenEsc => d.inLenEsc p b
  | .body => d.inBody p b
  | .bodyEsc => d.inBodyEsc p b

/-- The three results of one decoder step (43_framer_rx.md R237). -/
inductive FrxOutcome where
  | frame
  | framingError
  | incomplete
  deriving DecidableEq, Repr

/-- Which result a step gives: a frame if it issued `W_COMMIT`, a framing error if it called `err`, which issues
`W_ABORT`, and incomplete otherwise (43_framer_rx.md R237). -/
def FrxOp.outcome : FrxOp → FrxOutcome
  | .nop => .incomplete
  | .byte _ => .incomplete
  | .commit => .frame
  | .abort => .framingError

/-- `decode(s, bs)` (43_framer_rx.md R237): one FRX step per byte, and the operations issued, oldest first. -/
def Frx.decode (p : Params) : Frx → List Byte → Frx × List FrxOp
  | d, [] => (d, [])
  | d, b :: bs =>
    ((Frx.decode p (d.byte p b).1 bs).1, (d.byte p b).2 :: (Frx.decode p (d.byte p b).1 bs).2)

/-- One FRX step on the byte `b`: FRX's registers and `QH` change together (43_framer_rx.md R220). -/
def frxStep (b : Byte) (s : State) : Host.Outcome State Fault Refusal :=
  finish s (((s.frx.byte s.params b).2.run s.params s.qh).map
    (fun f => { s with frx := (s.frx.byte s.params b).1, qh := f }))

/-! ## The meanings of the wire rows -/

/-- HOST offers `FLAG`. -/
def execWireFlag (s : State) : Host.Outcome State Fault Refusal := frxStep s.params.FLAG s

/-- HOST offers `ESC`. -/
def execWireEsc (s : State) : Host.Outcome State Fault Refusal := frxStep s.params.ESC s

/-- HOST offers `T_FLAG`. -/
def execWireTFlag (s : State) : Host.Outcome State Fault Refusal := frxStep s.params.T_FLAG s

/-- HOST offers `T_ESC`. -/
def execWireTEsc (s : State) : Host.Outcome State Fault Refusal := frxStep s.params.T_ESC s

/-- HOST offers any other byte. -/
def execWireData (b : Byte) (s : State) : Host.Outcome State Fault Refusal := frxStep b s

end Sys2Proof.Machine
end

