-- ==== Sys2Proof/Machine/QueueRead.lean ====
section
/-! DEFINITION. The consumer operations of a queue (spec/41_queue_read.md R180 to R189) and the meanings of the CCW rows. -/

namespace Sys2Proof.Machine

/-- The byte `R_READ idx` returns (41_queue_read.md R181): a byte of the head frame, or 0x00 where the queue is empty or
the index is at or beyond the frame's length. -/
def Fq.readByte (p : Params) (q : Queue) (idx : Byte) (f : Fq) : Except Fault Byte :=
  if f.r_empty then .ok 0
  else
    match lenRead p (slotidx (p.N q) f.rbin) f.mem with
    | .ok len =>
      if idx.toNat < len.toNat then memRead p q (slotidx (p.N q) f.rbin) idx.toNat f.mem else .ok 0
    | .error e => .error e

/-- `R_NOP` (41_queue_read.md R182). -/
def Fq.rNop (f : Fq) : Fq := f

/-- `R_READ idx` (41_queue_read.md R181): `r_rdata` holds the byte returned. -/
def Fq.rRead (p : Params) (q : Queue) (idx : Byte) (f : Fq) : Except Fault Fq :=
  match f.readByte p q idx with
  | .ok v => .ok { f with r_rdata := v }
  | .error e => .error e

/-- `R_POP` (41_queue_read.md R183). -/
def Fq.rPop (N : Nat) (f : Fq) : Fq :=
  if f.r_empty then { f with r_result := .empty }
  else { f with rbin := ptrSucc N f.rbin, rgray := gray (ptrSucc N f.rbin), r_result := .ok }

/-- `R_CLRERR` (41_queue_read.md R184). -/
def Fq.rClrerr (f : Fq) : Fq := { f with r_operr := false }

/-- `R_RSV`, a reserved consumer code (41_queue_read.md R185). -/
def Fq.rRsv (f : Fq) : Fq := { f with r_operr := true }

/-! ## The meanings of the CCW rows -/

/-- `R_NOP` on `q.R`. -/
def execRNop (q : Queue) (s : State) : Host.Outcome State Fault Refusal :=
  finishFq s q (.ok (s.fq q).rNop)

/-- `R_READ idx` on `q.R`. -/
def execRRead (q : Queue) (idx : Byte) (s : State) : Host.Outcome State Fault Refusal :=
  finishFq s q ((s.fq q).rRead s.params q idx)

/-- `R_POP` on `q.R`. -/
def execRPop (q : Queue) (s : State) : Host.Outcome State Fault Refusal :=
  finishFq s q (.ok ((s.fq q).rPop (s.params.N q)))

/-- `R_CLRERR` on `q.R`. -/
def execRClrerr (q : Queue) (s : State) : Host.Outcome State Fault Refusal :=
  finishFq s q (.ok (s.fq q).rClrerr)

/-- The reserved codes `0b100` to `0b111` on `q.R`. -/
def execRRsv (q : Queue) (s : State) : Host.Outcome State Fault Refusal :=
  finishFq s q (.ok (s.fq q).rRsv)

end Sys2Proof.Machine
end

