-- ==== Sys2Proof/Machine/Dispatch.lean ====
section
/-! DEFINITION. exec: one arm per constructor of Instr, each one direct call of its meaning. -/

namespace Sys2Proof.Machine

def exec (i : Instr) (s : State) : Host.Outcome State Fault Refusal :=
  match i with
  | .wNop q _ => Sys2Proof.Machine.execWNop q s
  | .wByte q data => Sys2Proof.Machine.execWByte q data s
  | .wCommit q _ => Sys2Proof.Machine.execWCommit q s
  | .wAbort q _ => Sys2Proof.Machine.execWAbort q s
  | .wClrcnt q _ => Sys2Proof.Machine.execWClrcnt q s
  | .wRsv5 q _ => Sys2Proof.Machine.execWRsv5 q s
  | .wRsv67 q _ _ => Sys2Proof.Machine.execWRsv67 q s
  | .rNop q _ => Sys2Proof.Machine.execRNop q s
  | .rRead q idx => Sys2Proof.Machine.execRRead q idx s
  | .rPop q _ => Sys2Proof.Machine.execRPop q s
  | .rClrerr q _ => Sys2Proof.Machine.execRClrerr q s
  | .rRsv q _ _ => Sys2Proof.Machine.execRRsv q s
  | .wireFlag => Sys2Proof.Machine.execWireFlag s
  | .wireEsc => Sys2Proof.Machine.execWireEsc s
  | .wireTFlag => Sys2Proof.Machine.execWireTFlag s
  | .wireTEsc => Sys2Proof.Machine.execWireTEsc s
  | .wireData b => Sys2Proof.Machine.execWireData b s

end Sys2Proof.Machine
end

