-- ==== Sys2Proof/Machine/LinkTx.lean ====
section
/-! DEFINITION. The host-link encoder FTX (spec/44_framer_tx.md R260 to R271). Its step has no encoding (spec/30_encoding.md
R110). -/

namespace Sys2Proof.Machine

/-- `emit(b)`: append a byte to `txlog` (00_scope.md R12, 10_state.md R53). -/
def State.emit (b : Byte) (s : State) : State := { s with txlog := s.txlog ++ [b] }

/-- The byte `emit_esc(v)` emits now (44_framer_tx.md R261). -/
def escFirst (p : Params) (v : Byte) : Byte := if v = p.FLAG ∨ v = p.ESC then p.ESC else v

/-- What `emit_esc(v)` leaves pending (44_framer_tx.md R261). -/
def Ftx.pendEsc (p : Params) (v : Byte) (e : Ftx) : Ftx :=
  if v = p.FLAG then { e with e_pend := true, e_pbyte := p.T_FLAG }
  else if v = p.ESC then { e with e_pend := true, e_pbyte := p.T_ESC }
  else e

/-- The pending escape byte goes out, and nothing else happens (44_framer_tx.md R260, R266). -/
def ftxPending (s : State) : State :=
  { s with ftx := { s.ftx with e_pend := false } }.emit s.ftx.e_pbyte

/-- IDLE (44_framer_tx.md R262). -/
def ftxIdle (s : State) : Except Fault State :=
  if s.qt.r_empty then .ok s
  else
    match s.qt.r_len s.params .qt with
    | .ok L =>
      .ok ({ s with ftx := { s.ftx with
        e_len := L
        e_idx := 0
        e_state := if s.params.LEN_FIELD then .len else if L = 0 then .close else .data } }.emit s.params.FLAG)
    | .error e => .error e

/-- LEN (44_framer_tx.md R263). -/
def ftxLen (s : State) : State :=
  { s with ftx := { s.ftx.pendEsc s.params s.ftx.e_len with
      e_state := if s.ftx.e_len = 0 then .close else .data } }.emit (escFirst s.params s.ftx.e_len)

/-- DATA (44_framer_tx.md R264): `R_READ e_idx` on `QT.R`, and the byte it returns goes out. -/
def ftxData (s : State) : Except Fault State :=
  match s.qt.rRead s.params .qt s.ftx.e_idx with
  | .ok f =>
    .ok ({ s with
      qt := f
      ftx := { s.ftx.pendEsc s.params f.r_rdata with
        e_idx := s.ftx.e_idx + 1
        e_state := if s.ftx.e_idx + 1 = s.ftx.e_len then .close else s.ftx.e_state } }.emit
        (escFirst s.params f.r_rdata))
  | .error e => .error e

/-- CLOSE (44_framer_tx.md R265): the closing delimiter goes out and the frame is popped in the same step. -/
def ftxClose (s : State) : State :=
  { s with
    qt := s.qt.rPop (s.params.N .qt)
    ftx := { s.ftx with
      e_ok_cnt := satInc s.params s.ftx.e_ok_cnt
      e_state := .idle
      e_idx := 0
      e_len := 0 } }.emit s.params.FLAG

/-- One FTX step, taken when HOST accepts a byte (44_framer_tx.md R260). -/
def ftxStep (s : State) : Except Fault State :=
  if s.ftx.e_pend then .ok (ftxPending s)
  else
    match s.ftx.e_state with
    | .idle => ftxIdle s
    | .len => .ok (ftxLen s)
    | .data => ftxData s
    | .close => .ok (ftxClose s)

end Sys2Proof.Machine
end

