-- ==== Sys2Proof/Machine/Schedule.lean ====
section
/-! DEFINITION. One step of one agent (spec/10_state.md R31): what each event of the interleaving does. -/

namespace Sys2Proof.Machine

/-- May agent `a` present a word on `port` as a step of its own? It must be the port's one driver
(70_reset_and_hazards.md R335), and FRX and FTX issue operations only within their own steps. -/
def mayPresent (a : Agent) (port : Port) : Bool := a.external && port.driver == a

/-- Agent `a` presents `raw` on `port`. -/
def present (a : Agent) (port : Port) (raw : Nat) (s : State) : Host.Outcome State Fault Refusal :=
  if mayPresent a port then
    match decode s.params port raw with
    | .ok i => exec i s
    | .error why => .refused (.notAPortWord why)
  else .refused .notTheDriver

/-- The effect of one event. -/
def runEvent (e : Event) (s : State) : Host.Outcome State Fault Refusal :=
  match e with
  | .command a port raw => present a port raw s
  | .ftx => finish s (ftxStep s)
  | .syncW2R q => finish s (.ok (syncW2R q s))
  | .syncR2W q => finish s (.ok (syncR2W q s))
  | .reset => finish s (.ok (resetAll s))
  | .partialReset _ => .refused .partialReset
  | .sample d o => finish s (sample d o s)

/-- The event that presents a table word of `nbits` bits: HOST offers a byte, or RADIO issues a command word on `QR.W`
(log 5). -/
def tableEvent (nbits w : Nat) : Event :=
  .command (tablePort nbits).driver (tablePort nbits) w

end Sys2Proof.Machine
end

