-- ==== Sys2Proof/Machine/Step.lean ====
section
/-! DEFINITION. One step of the machine: the next event of the interleaving (spec/10_state.md R31, spec/00_scope.md R3). -/

namespace Sys2Proof.Machine

/-- One step. Parameters that break 00_scope.md R7 are refused. With nothing pending no agent steps, and the state stays
as it is (log 3); otherwise the first pending event happens and is gone. -/
def step (s : State) : Host.Outcome State Fault Refusal :=
  if s.params.legal then
    match s.pending with
    | [] => .next s
    | e :: rest => runEvent e { s with pending := rest }
  else .refused .illegalConfiguration

/-- `s` with a table word as the next thing presented (log 4, log 5). -/
def State.withFetchWord (s : State) (nbits w : Nat) : State :=
  { s with pending := tableEvent nbits w :: s.pending }

end Sys2Proof.Machine
end

