-- ==== Sys2Proof/Machine/Assembly.lean ====
section
/-! DEFINITION. The statements the spec writes sequences of steps in, and the pseudo-statements' expansions
(spec/30_encoding.md R123, R124). -/

namespace Sys2Proof.Machine

/-- A statement: one step (30_encoding.md R123). -/
inductive Stmt where
  | wNop (q : Queue)
  | wByte (q : Queue) (imm8 : Byte)
  | wCommit (q : Queue)
  | wAbort (q : Queue)
  | wClrcnt (q : Queue)
  | wRsv (q : Queue) (n : Nat)
  | rNop (q : Queue)
  | rRead (q : Queue) (imm8 : Byte)
  | rPop (q : Queue)
  | rClrerr (q : Queue)
  | rRsv (q : Queue) (n : Nat)
  | syncW2R (q : Queue)
  | syncR2W (q : Queue)
  | frx (imm8 : Byte)
  | ftx
  | reset
  deriving DecidableEq, Repr

/-- The port's one driver presents a word. -/
def drive (port : Port) (raw : Nat) : Event := .command port.driver port raw

/-- The step of a statement, with the encoding of 30_encoding.md R123. A statement on `QH.W` or `QT.R` names a port that
only FRX or FTX drives, and `step` refuses it (70_reset_and_hazards.md R335). -/
def Stmt.event : Stmt → Event
  | .wNop q => drive (.w q) 0x000
  | .wByte q b => drive (.w q) (0x100 ||| b.toNat)
  | .wCommit q => drive (.w q) 0x200
  | .wAbort q => drive (.w q) 0x300
  | .wClrcnt q => drive (.w q) 0x400
  | .wRsv q n => drive (.w q) (n <<< 8)
  | .rNop q => drive (.r q) 0x000
  | .rRead q i => drive (.r q) (0x100 ||| i.toNat)
  | .rPop q => drive (.r q) 0x200
  | .rClrerr q => drive (.r q) 0x300
  | .rRsv q n => drive (.r q) (n <<< 8)
  | .syncW2R q => .syncW2R q
  | .syncR2W q => .syncR2W q
  | .frx b => drive .rx b.toNat
  | .ftx => .ftx
  | .reset => .reset

/-! ## Pseudo-statements (30_encoding.md R124): each means its expansion -/

/-- `q.W FRAME b0 .. bk` -/
def frameStmts (q : Queue) (F : Frame) : List Stmt := F.map (.wByte q) ++ [.wCommit q]

/-- `q.SETTLE` -/
def settleStmts (p : Params) (q : Queue) : List Stmt :=
  List.replicate (p.S q) (.syncW2R q) ++ List.replicate (p.S q) (.syncR2W q)

/-- `q.R TAKE k` -/
def takeStmts (q : Queue) (k : Nat) : List Stmt :=
  (List.range k).map (fun i => .rRead q (BitVec.ofNat 8 i)) ++ [.rPop q]

/-- `FRX* b0 .. bk` -/
def frxStmts (bs : List Byte) : List Stmt := bs.map .frx

/-- `FTX*k` -/
def ftxStmts (k : Nat) : List Stmt := List.replicate k .ftx

/-- The state in which the steps of `prog` come next, before what was pending. -/
def State.load (s : State) (prog : List Stmt) : State :=
  { s with pending := prog.map Stmt.event ++ s.pending }

end Sys2Proof.Machine
end

