-- ==== Sys2Proof/Machine/Fairness.lean ====
section
/-! DEFINITION. Infinite runs, and the weak fairness of the synchroniser agents that spec/42_sync.md R213 assumes of them. -/

namespace Sys2Proof.Machine

/-- Event `e` happens in `s`: the step of an interleaving in which `e` comes next. -/
def State.perform (e : Event) (s : State) : Host.Outcome State Fault Refusal := step { s with pending := [e] }

/-- Event `e` is enabled in `s`: it has a next state (10_state.md R31). -/
def Enabled (e : Event) (s : State) : Prop := ∃ t, s.perform e = .next t

/-- An infinite interleaving: the event at every position. -/
abbrev Schedule := Nat → Event

/-- `σ` is the infinite run of `sched`: each state is what the event at its position makes of the state before. -/
def IsRun (sched : Schedule) (σ : Nat → State) : Prop := ∀ n, (σ n).perform (sched n) = .next (σ (n + 1))

/-- `e` is scheduled weakly fairly: from wherever it is enabled for good, it happens. -/
def WeaklyFair (sched : Schedule) (σ : Nat → State) (e : Event) : Prop :=
  ∀ n, (∀ m, n ≤ m → Enabled e (σ m)) → ∃ m, n ≤ m ∧ sched m = e

/-- A fair run: an infinite run in which every synchroniser agent is scheduled weakly fairly, "as a free-running clock
would" be (42_sync.md R213). No other agent owes a step: HOST, RADIO and TASK may stay idle (60_exceptions.md R320). A claim
that something happens some time takes this as its premise (log 16). -/
structure FairRun (sched : Schedule) (σ : Nat → State) : Prop where
  run : IsRun sched σ
  fairW2R : ∀ q : Queue, WeaklyFair sched σ (.syncW2R q)
  fairR2W : ∀ q : Queue, WeaklyFair sched σ (.syncR2W q)

end Sys2Proof.Machine
end

