-- ==== Sys2Proof/Safety.lean ====
section
/-! DEFINITION. What the claims speak of: the frames a queue holds, the occupancy and lags of spec/42_sync.md R209, and the
invariant of reachable states (spec/20_memory.md R84, R89; spec/42_sync.md R209; spec/43_framer_rx.md R234, R240;
spec/44_framer_tx.md R267). -/

namespace Sys2Proof.Machine

/-! ## The frames of a queue -/

/-- The frame slot `i` holds: its length byte and that many data bytes; `none` if one of them has not been written. -/
def Fq.slotFrame (p : Params) (f : Fq) (i : Nat) : Option Frame :=
  match f.mem.read (lenAddr p i) with
  | some len => f.mem.readBytes (dataAddr p i 0) len.toNat
  | none => none

/-- The true occupancy `k = (wbin - rbin) mod 2N` (20_memory.md R89, 42_sync.md R209). -/
def Fq.occupancy (N : Nat) (f : Fq) : Nat := (ptrDiff N f.wbin f.rbin).toNat

/-- `lag_r = (rbin - gray2bin(rq)) mod 2N` (42_sync.md R209). -/
def Fq.lagR (N : Nat) (f : Fq) : Nat := (ptrDiff N f.rbin (gray2bin f.rq)).toNat

/-- `lag_w = (wbin - gray2bin(wq)) mod 2N` (42_sync.md R209). -/
def Fq.lagW (N : Nat) (f : Fq) : Nat := (ptrDiff N f.wbin (gray2bin f.wq)).toNat

/-- The slot of the `j`-th committed frame from the head, `slotidx(rbin + j)` (20_memory.md R89). -/
def Fq.slotAt (N : Nat) (f : Fq) (j : Nat) : Nat := (f.rbin.toNat + j) % N

/-- The committed frames not yet popped, the head first. -/
def Fq.frames (p : Params) (q : Queue) (f : Fq) : List (Option Frame) :=
  (List.range (f.occupancy (p.N q))).map (fun j => f.slotFrame p (f.slotAt (p.N q) j))

/-- The bytes stored so far of the frame being assembled. -/
def Fq.assembled (p : Params) (q : Queue) (f : Fq) : Option Frame :=
  f.mem.readBytes (dataAddr p (slotidx (p.N q) f.wbin) 0) f.w_len.toNat

/-! ## The invariant of one queue -/

/-- Pointers below `2N`, and each gray copy the gray code of its pointer (42_sync.md R209, 1). -/
structure Fq.PointersInv (N : Nat) (f : Fq) : Prop where
  wbin_lt : f.wbin.toNat < 2 * N
  rbin_lt : f.rbin.toNat < 2 * N
  wgray_eq : f.wgray = gray f.wbin
  rgray_eq : f.rgray = gray f.rbin

/-- `S` stages, each a gray-coded pointer, later stages holding older values of `src` (42_sync.md R209, 2). -/
structure ChainInv (N S : Nat) (src : Ptr) (chain : List Ptr) : Prop where
  length_eq : chain.length = S
  stage_lt : ∀ g ∈ chain, (gray2bin g).toNat < 2 * N
  older : (chain.map (fun g => (ptrDiff N src (gray2bin g)).toNat)).Pairwise (· ≤ ·)

/-- `lag_w <= k` and `k + lag_r <= N` (42_sync.md R209, 3). -/
structure Fq.LagInv (N : Nat) (f : Fq) : Prop where
  lagW_le : f.lagW N ≤ f.occupancy N
  lagR_le : f.occupancy N + f.lagR N ≤ N

/-- The frame-assembly registers: clear while no frame is open; a discarded frame counts no bytes; at most `M` bytes; and
while a frame is being stored, the producer sees a free slot and has written the bytes it counted (20_memory.md R89,
40_queue_write.md R151 to R155). -/
structure Fq.AssemblyInv (p : Params) (q : Queue) (f : Fq) : Prop where
  closed : f.w_open = false → f.w_len = 0 ∧ f.w_discard = false ∧ f.w_oversize = false
  discarded : f.w_discard = true → f.w_len = 0 ∧ f.w_oversize = false
  len_le : f.w_len.toNat ≤ p.M
  oversize : f.w_oversize = true → f.w_len.toNat = p.M
  storing : f.w_open = true → f.w_discard = false →
    (f.w_level (p.N q)).toNat < p.N q ∧ (f.assembled p q).isSome = true

/-- Every committed slot holds a frame of at most `M` bytes, all of them written (20_memory.md R84, R89). -/
def Fq.SlotsInv (p : Params) (q : Queue) (f : Fq) : Prop :=
  ∀ j < f.occupancy (p.N q),
    (f.slotFrame p (f.slotAt (p.N q) j)).any (fun F => decide (F.length ≤ p.M)) = true

/-- The invariant of one queue instance: the parts above; the slot memory in canonical form and inside the slots
(20_memory.md R80); no counter above `2^CNT_W - 1` (00_scope.md R13). -/
structure Fq.Inv (p : Params) (q : Queue) (f : Fq) : Prop where
  pointers : f.PointersInv (p.N q)
  rchain : ChainInv (p.N q) (p.S q) f.rbin f.rsync
  wchain : ChainInv (p.N q) (p.S q) f.wbin f.wsync
  lags : f.LagInv (p.N q)
  assembly : f.AssemblyInv p q
  slots : f.SlotsInv p q
  mem_wf : f.mem.wf
  mem_lt : ∀ c ∈ f.mem, c.1 < memSize p q
  drop_le : f.w_drop_cnt ≤ cntMax p
  long_le : f.w_long_cnt ≤ cntMax p

/-! ## The invariants of the framer -/

/-- FRX is inside a frame (10_state.md R48). -/
def Frx.inFrame (d : Frx) : Bool :=
  match d.d_state with
  | .hunt => false
  | .start => false
  | .lenEsc => false
  | .body => true
  | .bodyEsc => true

/-- FRX's registers: lengths and counts at most `M`, and clear outside a frame (43_framer_rx.md R221 to R230). -/
structure Frx.Inv (p : Params) (d : Frx) : Prop where
  cnt_le : d.d_cnt.toNat ≤ p.M
  len_le : d.d_len.toNat ≤ p.M
  outside : d.inFrame = false → d.d_cnt = 0 ∧ d.d_len = 0
  header : p.LEN_FIELD = true → d.d_cnt.toNat ≤ d.d_len.toNat
  noHeader : p.LEN_FIELD = false → d.d_len = 0 ∧ d.d_state ≠ .lenEsc
  bodyHasByte : p.LEN_FIELD = false → d.d_state = .body → 1 ≤ d.d_cnt.toNat
  err_le : d.d_err_cnt ≤ cntMax p
  ok_le : d.d_ok_cnt ≤ cntMax p

/-- FRX and the queue it writes: a frame is open in `QH` exactly when FRX has passed bytes of it on, and `QH` never sees
an oversize frame (43_framer_rx.md R234, R240). -/
structure RxInv (d : Frx) (qh : Fq) : Prop where
  open_iff : qh.w_open = true ↔ 1 ≤ d.d_cnt.toNat
  len_eq : qh.w_open = true → qh.w_discard = false → qh.w_len = d.d_cnt
  noOversize : qh.w_oversize = false
  noLong : qh.w_long_cnt = 0

/-- FTX's registers: clear when idle, a pending byte only after an `ESC`, the index within the frame
(44_framer_tx.md R260 to R266). -/
structure Ftx.Inv (p : Params) (e : Ftx) : Prop where
  idle : e.e_state = .idle → e.e_len = 0 ∧ e.e_idx = 0 ∧ e.e_pend = false
  len : e.e_state = .len → p.LEN_FIELD = true ∧ e.e_idx = 0 ∧ e.e_pend = false
  data : e.e_state = .data → e.e_idx.toNat < e.e_len.toNat
  close : e.e_state = .close → e.e_idx = e.e_len
  pend : e.e_pend = true → e.e_pbyte = p.T_FLAG ∨ e.e_pbyte = p.T_ESC
  ok_le : e.e_ok_cnt ≤ cntMax p

/-- FTX and the queue it reads: while a frame is being sent it stays at the head of `QT`, with the length FTX latched
(44_framer_tx.md R267). -/
def TxInv (p : Params) (e : Ftx) (qt : Fq) : Prop :=
  e.e_state ≠ .idle →
    qt.r_empty = false ∧ qt.mem.read (lenAddr p (slotidx (p.N .qt) qt.rbin)) = some e.e_len

/-- The invariant of every state reachable from reset. -/
structure State.Inv (s : State) : Prop where
  legal : s.params.legal = true
  qr : s.qr.Inv s.params .qr
  qh : s.qh.Inv s.params .qh
  qt : s.qt.Inv s.params .qt
  frx : s.frx.Inv s.params
  rx : RxInv s.frx s.qh
  ftx : s.ftx.Inv s.params
  tx : TxInv s.params s.ftx s.qt

/-! ## What the claims about the counters say -/

/-- The counter `c` of `s` moves to `c'` by at most one `sat_inc` (00_scope.md R13); and from a state of the invariant, in
numbers: it stays, or it was below `2^CNT_W - 1` and is one more (10_state.md R38, 70_reset_and_hazards.md R344). -/
abbrev CounterMoves (s : State) (c c' : Cnt) : Prop :=
  (c' = c ∨ c' = satInc s.params c)
    ∧ (s.Inv → c' = c ∨ (c.toNat < 2 ^ s.params.CNT_W - 1 ∧ c'.toNat = c.toNat + 1))

/-! ## What the claims about the framer say -/

/-- `i` is a wire row that, not after an `ESC`, is the data byte `v` itself (30_encoding.md R119). -/
abbrev PlainByte (p : Params) (i : Instr) (v : Byte) : Prop :=
  (i = .wireTFlag ∧ v = p.T_FLAG) ∨ (i = .wireTEsc ∧ v = p.T_ESC)
    ∨ (i = .wireData v ∧ p.framingByte v = false)

/-- What `err(code, next)` leaves (43_framer_rx.md R221): the error counted, and `QH`'s open frame aborted
(40_queue_write.md R157). -/
def State.framingError (s : State) (code : DError) (next : DState) : State :=
  { s with
    frx := { d_state := next, d_len := 0, d_cnt := 0, d_err_cnt := satInc s.params s.frx.d_err_cnt,
             d_ok_cnt := s.frx.d_ok_cnt, d_last_err := code }
    qh := { s.qh with w_open := false, w_len := 0, w_discard := false, w_oversize := false, w_result := .none } }

/-- Instruction `i` gives FRX the length header `v` (43_framer_rx.md R222). -/
def TakesLength (i : Instr) (v : Byte) (s : State) : Prop :=
  (s.params.M < v.toNat → exec i s = .next (s.framingError .length .hunt))
  ∧ (v.toNat ≤ s.params.M →
      exec i s = .next { s with frx := { s.frx with d_len := v, d_cnt := 0, d_state := .body } })

/-- Instruction `i` gives FRX the payload byte `v` (43_framer_rx.md R223): a LENGTH error where the frame is complete, and
else one `W_BYTE v` on `QH.W`. -/
def TakesPayload (i : Instr) (v : Byte) (s : State) : Prop :=
  (((s.params.LEN_FIELD = true ∧ s.frx.d_cnt = s.frx.d_len) ∨ s.frx.d_cnt.toNat = s.params.M) →
      exec i s = .next (s.framingError .length .hunt))
  ∧ (¬ ((s.params.LEN_FIELD = true ∧ s.frx.d_cnt = s.frx.d_len) ∨ s.frx.d_cnt.toNat = s.params.M) →
      s.qh.w_len.toNat ≤ s.params.M →
      ∃ f, s.qh.wByte s.params .qh v = .ok f ∧
        exec i s = .next { s with
          frx := { s.frx with d_cnt := s.frx.d_cnt + 1, d_state := .body }
          qh := f })

/-! ## Runs -/

/-- The run of `prog` from `s`, one step per statement. -/
def runProg (s : State) (prog : List Stmt) : Host.Outcome State Fault Refusal :=
  Host.Core.run Sys2Proof.core prog.length (s.load prog)

/-- The operations of FRX that are not `W_NOP` (43_framer_rx.md R237). -/
def realOps (ops : List FrxOp) : List FrxOp := ops.filter (· != .nop)

end Sys2Proof.Machine
end

