-- ==== Sys2Proof/Certificates/Slice0/Obligations.lean ====
section
/-! DEFINITION. The statements about FQHL, each from the rules of spec/ its entry in OBLIGATIONS.json cites. -/

open Sys2Proof Sys2Proof.Machine

/-! ## Encoding -/

/-- The command codes (30_encoding.md R111 to R114): `(OP << 8) | DATA` on a producer port, `(OP << 8) | IDX` on a consumer
port; and words written out bit by bit from the spec's encodings decode to what they stand for (R111, R113, R119, R123). -/
def Obligations.CommandCodesDecode : Prop :=
  (∀ (p : Params) (q : Queue) (d : Byte),
    decode p (.w q) (0x000 + d.toNat) = .ok (.wNop q d)
    ∧ decode p (.w q) (0x100 + d.toNat) = .ok (.wByte q d)
    ∧ decode p (.w q) (0x200 + d.toNat) = .ok (.wCommit q d)
    ∧ decode p (.w q) (0x300 + d.toNat) = .ok (.wAbort q d)
    ∧ decode p (.w q) (0x400 + d.toNat) = .ok (.wClrcnt q d)
    ∧ decode p (.w q) (0x500 + d.toNat) = .ok (.wRsv5 q d)
    ∧ decode p (.w q) (0x600 + d.toNat) = .ok (.wRsv67 q 0 d)
    ∧ decode p (.w q) (0x700 + d.toNat) = .ok (.wRsv67 q 1 d)
    ∧ decode p (.r q) (0x000 + d.toNat) = .ok (.rNop q d)
    ∧ decode p (.r q) (0x100 + d.toNat) = .ok (.rRead q d)
    ∧ decode p (.r q) (0x200 + d.toNat) = .ok (.rPop q d)
    ∧ decode p (.r q) (0x300 + d.toNat) = .ok (.rClrerr q d)
    ∧ decode p (.r q) (0x400 + d.toNat) = .ok (.rRsv q 0 d)
    ∧ decode p (.r q) (0x500 + d.toNat) = .ok (.rRsv q 1 d)
    ∧ decode p (.r q) (0x600 + d.toNat) = .ok (.rRsv q 2 d)
    ∧ decode p (.r q) (0x700 + d.toNat) = .ok (.rRsv q 3 d))
  ∧ decode Params.default (.w .qr) 0b00101000001 = .ok (.wByte .qr 0x41)
  ∧ decode Params.default (.w .qt) 0b01000000000 = .ok (.wCommit .qt 0)
  ∧ decode Params.default (.r .qh) 0b00100000011 = .ok (.rRead .qh 3)
  ∧ decode Params.default (.r .qr) 0b01000000000 = .ok (.rPop .qr 0)
  ∧ decode Params.default .rx 0b01111110 = .ok .wireFlag
  ∧ decode Params.default .rx 0b01111101 = .ok .wireEsc
  ∧ decode Params.default .rx 0b01011110 = .ok .wireTFlag
  ∧ decode Params.default .rx 0b01011101 = .ok .wireTEsc
  ∧ decode Params.default .rx 0b01000001 = .ok (.wireData 0x41)

/-- Decoding the encoding of a well-formed instruction gives it back, under every legal configuration. -/
def Obligations.DecodeOfEncode : Prop :=
  ∀ (p : Params) (i : Instr), p.legal = true → i.wf p = true →
    decode p (encode p i).1 (encode p i).2 = .ok i

/-- What decodes is well-formed, and encoding it gives back the port and the value it was read from, every bit of it. -/
def Obligations.EncodeOfDecode : Prop :=
  ∀ (p : Params) (port : Port) (raw : Nat) (i : Instr), decode p port raw = .ok i →
    i.wf p = true ∧ encode p i = (port, raw)

/-- A value decodes exactly when it fits the form its port carries: no 11-bit command word and no byte is without a
meaning (30_encoding.md R110, R116). -/
def Obligations.EveryPortWordDecodes : Prop :=
  ∀ (p : Params) (port : Port) (raw : Nat),
    (∃ i, decode p port raw = .ok i ∧ i.port = port) ↔ raw < 2 ^ port.width

/-- The shape of an encoded frame (30_encoding.md R120, R122): its length, and its bound; `FLAG` stands first and last and
nowhere between; every `ESC` is followed by `T_FLAG` or `T_ESC`. -/
def Obligations.EncodedFrameShape : Prop :=
  ∀ (p : Params) (F bs : Frame) (h : Nat), p.legal = true → F.length ≤ p.M → bs = encodeFrame p F →
    (p.LEN_FIELD = true ∧ h = 1) ∨ (p.LEN_FIELD = false ∧ h = 0) →
    bs.length = 2 + h + F.length
        + ((List.replicate h (BitVec.ofNat 8 F.length) ++ F).filter (fun b => b == p.FLAG || b == p.ESC)).length
    ∧ bs.length ≤ 2 + 2 * (h + p.M)
    ∧ (∀ j, bs[j]? = some p.FLAG ↔ j = 0 ∨ j + 1 = bs.length)
    ∧ ∀ j, bs[j]? = some p.ESC → bs[j + 1]? = some p.T_FLAG ∨ bs[j + 1]? = some p.T_ESC

/-! ## The step -/

/-- When the next event is a driver's word that decodes to `i`, the step is `exec i`, the event gone. -/
def Obligations.StepRunsTheDecodedInstruction : Prop :=
  ∀ (s : State) (rest : List Event) (a : Agent) (port : Port) (raw : Nat) (i : Instr),
    s.params.legal = true → s.pending = .command a port raw :: rest → mayPresent a port = true →
    decode s.params port raw = .ok i →
    step s = exec i { s with pending := rest }

/-- The constraints on the parameters, and that a configuration that breaks one gets no meaning (00_scope.md R6, R7). -/
def Obligations.IllegalConfigurationIsRefused : Prop :=
  ∀ (s : State) (i : Instr) (p : Params), p = s.params →
    (p.legal = true ↔
      (∀ q : Queue, ∃ k, 1 ≤ k ∧ k ≤ 7 ∧ p.N q = 2 ^ k) ∧ (∀ q : Queue, 2 ≤ p.S q)
      ∧ 1 ≤ p.M ∧ p.M ≤ 255 ∧ 1 ≤ p.CNT_W ∧ p.CNT_W ≤ 32
      ∧ p.FLAG ≠ p.ESC ∧ p.FLAG ≠ p.T_FLAG ∧ p.FLAG ≠ p.T_ESC ∧ p.ESC ≠ p.T_FLAG ∧ p.ESC ≠ p.T_ESC
      ∧ p.T_FLAG ≠ p.T_ESC)
    ∧ (p.legal = false →
      step s = .refused .illegalConfiguration ∧ exec i s = .refused .illegalConfiguration)

/-- A word from an agent that is not the port's driver, and a reset of one domain alone, are refused
(70_reset_and_hazards.md R333, R335). The only admitted pairs are RADIO on `QR.W`, TASK on `QR.R`, `QH.R` and `QT.W`, and
HOST's bytes; `QH.W` and `QT.R` belong to FRX and FTX. -/
def Obligations.OnlyTheDriverMayUseAPort : Prop :=
  ∀ (s : State) (rest : List Event), s.params.legal = true →
    (∀ (a : Agent) (port : Port) (raw : Nat), s.pending = .command a port raw :: rest →
      (a, port) ∉ [(.radio, .w .qr), (.task, .r .qr), (.task, .r .qh), (.task, .w .qt), (.host, .rx)] →
      step s = .refused .notTheDriver)
    ∧ (∀ d : Domain, s.pending = .partialReset d :: rest → step s = .refused .partialReset)

/-! ## Producer operations -/

/-- `W_NOP` changes nothing; a reserved producer code sets `w_operr` and nothing else (40_queue_write.md R153, R159). The
first three clauses are their encodings. -/
def Obligations.WNopAndReservedResult : Prop :=
  ∀ (s : State) (q : Queue) (x : BitVec 1) (d : Byte), s.params.legal = true →
    decode s.params (.w q) (0x000 + d.toNat) = .ok (.wNop q d)
    ∧ decode s.params (.w q) (0x500 + d.toNat) = .ok (.wRsv5 q d)
    ∧ decode s.params (.w q) (0x600 + 0x100 * x.toNat + d.toNat) = .ok (.wRsv67 q x d)
    ∧ exec (.wNop q d) s = .next s
    ∧ exec (.wRsv5 q d) s = .next (s.setFq q { s.fq q with w_operr := true })
    ∧ exec (.wRsv67 q x d) s = .next (s.setFq q { s.fq q with w_operr := true })

/-- `W_BYTE` (40_queue_write.md R151, R152), case by case: the frame opens and is discarded; opens and stores; is already
discarded; is full of `M` bytes; stores one more. The last clause says where the model stops: on a byte count above `M`,
which no run reaches (log 10). -/
def Obligations.WByteResult : Prop :=
  ∀ (s : State) (q : Queue) (d : Byte) (f : Fq), s.params.legal = true → f = s.fq q →
    (f.w_open = false → f.w_full (s.params.N q) = true →
      exec (.wByte q d) s = .next (s.setFq q
        { f with w_open := true, w_len := 0, w_discard := true, w_oversize := false }))
    ∧ (f.w_open = false → f.w_full (s.params.N q) = false →
      exec (.wByte q d) s = .next (s.setFq q
        { f with
          mem := f.mem.write (dataAddr s.params (slotidx (s.params.N q) f.wbin) 0) d
          w_open := true, w_len := 1, w_discard := false, w_oversize := false }))
    ∧ (f.w_open = true → f.w_discard = true → exec (.wByte q d) s = .next s)
    ∧ (f.w_open = true → f.w_discard = false → f.w_len.toNat = s.params.M →
      exec (.wByte q d) s = .next (s.setFq q { f with w_oversize := true }))
    ∧ (f.w_open = true → f.w_discard = false → f.w_len.toNat < s.params.M →
      exec (.wByte q d) s = .next (s.setFq q
        { f with
          mem := f.mem.write (dataAddr s.params (slotidx (s.params.N q) f.wbin) f.w_len.toNat) d
          w_len := f.w_len + 1 }))
    ∧ (f.w_open = true → f.w_discard = false → s.params.M < f.w_len.toNat →
      exec (.wByte q d) s = .fault .outsideSlot)

/-- `W_COMMIT` (40_queue_write.md R155): an unopened frame is the empty frame, dropped where the queue is full; an open one
is dropped as FULL, dropped as TOOLONG, or published. The first clause is its encoding. -/
def Obligations.WCommitResult : Prop :=
  ∀ (s : State) (q : Queue) (d : Byte) (f g : Fq), s.params.legal = true → f = s.fq q →
    g = { f with w_open := false, w_len := 0, w_discard := false, w_oversize := false } →
    decode s.params (.w q) (0x200 + d.toNat) = .ok (.wCommit q d)
    ∧ ((f.w_open = true ∧ f.w_discard = true) ∨ (f.w_open = false ∧ f.w_full (s.params.N q) = true) →
      exec (.wCommit q d) s = .next (s.setFq q
        { g with w_drop_cnt := satInc s.params f.w_drop_cnt, w_result := .full }))
    ∧ (f.w_open = true ∧ f.w_discard = false ∧ f.w_oversize = true →
      exec (.wCommit q d) s = .next (s.setFq q
        { g with w_long_cnt := satInc s.params f.w_long_cnt, w_result := .tooLong }))
    ∧ (∀ len : Byte,
      (f.w_open = true ∧ f.w_discard = false ∧ f.w_oversize = false ∧ len = f.w_len)
        ∨ (f.w_open = false ∧ f.w_full (s.params.N q) = false ∧ len = 0) →
      exec (.wCommit q d) s = .next (s.setFq q
        { g with
          mem := f.mem.write (lenAddr s.params (slotidx (s.params.N q) f.wbin)) len
          wbin := ptrSucc (s.params.N q) f.wbin
          wgray := gray (ptrSucc (s.params.N q) f.wbin)
          w_result := .ok }))

/-- `W_ABORT` and `W_CLRCNT` (40_queue_write.md R157, R158), their encodings first. -/
def Obligations.WAbortAndClrcntResult : Prop :=
  ∀ (s : State) (q : Queue) (d : Byte), s.params.legal = true →
    decode s.params (.w q) (0x300 + d.toNat) = .ok (.wAbort q d)
    ∧ decode s.params (.w q) (0x400 + d.toNat) = .ok (.wClrcnt q d)
    ∧ exec (.wAbort q d) s = .next (s.setFq q
      { s.fq q with w_open := false, w_len := 0, w_discard := false, w_oversize := false, w_result := .none })
    ∧ exec (.wClrcnt q d) s = .next (s.setFq q
      { s.fq q with w_drop_cnt := 0, w_long_cnt := 0, w_operr := false })

/-- The frame of every producer operation: it leaves the other queues, the framer, `txlog`, the parameters, the read
domain and the read-pointer synchroniser of its queue alone; and of its own registers it writes only those its rule
names. -/
def Obligations.ProducerRegisterFrame : Prop :=
  ∀ (s t : State) (q : Queue) (i : Instr), i.port = .w q → exec i s = .next t →
    (∀ q' : Queue, q' ≠ q → t.fq q' = s.fq q')
    ∧ t.params = s.params ∧ t.frx = s.frx ∧ t.ftx = s.ftx ∧ t.txlog = s.txlog ∧ t.pending = s.pending
    ∧ t.draws = s.draws ∧ t.seen = s.seen
    ∧ (t.fq q).rbin = (s.fq q).rbin ∧ (t.fq q).rgray = (s.fq q).rgray ∧ (t.fq q).wsync = (s.fq q).wsync
    ∧ (t.fq q).r_rdata = (s.fq q).r_rdata ∧ (t.fq q).r_result = (s.fq q).r_result
    ∧ (t.fq q).r_operr = (s.fq q).r_operr ∧ (t.fq q).rsync = (s.fq q).rsync
    ∧ ((∀ d, i ≠ .wCommit q d) → (t.fq q).wbin = (s.fq q).wbin ∧ (t.fq q).wgray = (s.fq q).wgray)
    ∧ ((∀ d, i ≠ .wCommit q d) → (∀ d, i ≠ .wAbort q d) → (t.fq q).w_result = (s.fq q).w_result)
    ∧ ((∀ d, i ≠ .wCommit q d) → (∀ d, i ≠ .wClrcnt q d) →
        (t.fq q).w_drop_cnt = (s.fq q).w_drop_cnt ∧ (t.fq q).w_long_cnt = (s.fq q).w_long_cnt)
    ∧ ((∀ d, i ≠ .wClrcnt q d) → (∀ d, i ≠ .wRsv5 q d) → (∀ x d, i ≠ .wRsv67 q x d) →
        (t.fq q).w_operr = (s.fq q).w_operr)
    ∧ ((∀ d, i ≠ .wByte q d) → (∀ d, i ≠ .wCommit q d) → (∀ d, i ≠ .wAbort q d) →
        (t.fq q).w_open = (s.fq q).w_open ∧ (t.fq q).w_len = (s.fq q).w_len
        ∧ (t.fq q).w_discard = (s.fq q).w_discard ∧ (t.fq q).w_oversize = (s.fq q).w_oversize)

/-- Which byte of slot memory a producer operation can change: `W_BYTE` the byte `data[len]` of `slot[slotidx(wbin)]`, and
none in a discarded frame or one of `M` bytes; `W_COMMIT` that slot's `len`, and none unless the result is OK; the others
none (20_memory.md R81, R98). -/
def Obligations.ProducerMemoryFrame : Prop :=
  ∀ (s t : State) (q : Queue) (i : Instr), i.port = .w q → exec i s = .next t →
    (∀ d, i = .wByte q d → ∀ a,
      (a ≠ dataAddr s.params (slotidx (s.params.N q) (s.fq q).wbin) ((s.fq q).assembly (s.params.N q)).len.toNat
        ∨ ((s.fq q).assembly (s.params.N q)).discard = true
        ∨ ((s.fq q).assembly (s.params.N q)).len.toNat = s.params.M) →
      (t.fq q).mem.read a = (s.fq q).mem.read a)
    ∧ (∀ d, i = .wCommit q d → ∀ a,
      (a ≠ lenAddr s.params (slotidx (s.params.N q) (s.fq q).wbin) ∨ (t.fq q).w_result ≠ .ok) →
      (t.fq q).mem.read a = (s.fq q).mem.read a)
    ∧ ((∀ d, i ≠ .wByte q d) → (∀ d, i ≠ .wCommit q d) → ∀ a, (t.fq q).mem.read a = (s.fq q).mem.read a)

/-- While a frame is open, `W_BYTE` and `W_COMMIT` do not look at `w_full`: whatever the read-pointer synchroniser holds,
they do the same (40_queue_write.md R154). -/
def Obligations.FullnessIsSampledOnce : Prop :=
  ∀ (s t : State) (q : Queue) (i : Instr) (rs : List Ptr), (s.fq q).w_open = true →
    (∃ d, i = .wByte q d ∨ i = .wCommit q d) → exec i s = .next t →
    exec i (s.setFq q { s.fq q with rsync := rs }) = .next (t.setFq q { t.fq q with rsync := rs })

/-- A producer operation reads nothing of the read domain (40_queue_write.md R150): other read-domain registers give the
same step, with those registers carried along. -/
def Obligations.ProducerIgnoresReadDomain : Prop :=
  ∀ (s t : State) (q : Queue) (i : Instr) (rb rg : Ptr) (ws : List Ptr) (rd : Byte) (rr : RResult) (re : Bool),
    i.port = .w q → exec i s = .next t →
    exec i (s.setFq q { s.fq q with
        rbin := rb, rgray := rg, wsync := ws, r_rdata := rd, r_result := rr, r_operr := re })
      = .next (t.setFq q { t.fq q with
        rbin := rb, rgray := rg, wsync := ws, r_rdata := rd, r_result := rr, r_operr := re })

/-- The source's `enqueue(F)` on a queue with a free slot in its producer's view (40_queue_write.md R161): after the
statement `q.W FRAME F`, `F` stands behind the frames already there, and the result is OK. -/
def Obligations.EnqueueAppendsTheFrame : Prop :=
  ∀ (s : State) (q : Queue) (F : Frame), s.Inv → q ≠ .qh →
    (s.fq q).w_open = false → (s.fq q).w_full (s.params.N q) = false → F.length ≤ s.params.M →
    ∃ t, runProg s (frameStmts q F) = .next t
      ∧ (t.fq q).frames s.params q = (s.fq q).frames s.params q ++ [some F]
      ∧ (t.fq q).w_result = .ok ∧ (t.fq q).w_open = false
      ∧ (t.fq q).w_drop_cnt = (s.fq q).w_drop_cnt ∧ (t.fq q).w_long_cnt = (s.fq q).w_long_cnt

/-- `enqueue(F)` that drops `F`: as FULL where the queue is full when the frame opens, with no byte of slot memory and none
of `wbin`, `wgray`, `rbin`, `rgray` changed; as TOOLONG where `F` has more than `M` bytes, with the
frames of the queue and `wbin` unchanged. One drop is counted (40_queue_write.md R155, R156, R161; 20_memory.md R98). -/
def Obligations.EnqueueDropsAndCounts : Prop :=
  ∀ (s : State) (q : Queue) (F : Frame), s.Inv → q ≠ .qh → (s.fq q).w_open = false →
    ((s.fq q).w_full (s.params.N q) = true →
      ∃ t, runProg s (frameStmts q F) = .next t
        ∧ (t.fq q).mem = (s.fq q).mem ∧ (t.fq q).wbin = (s.fq q).wbin ∧ (t.fq q).wgray = (s.fq q).wgray
        ∧ (t.fq q).rbin = (s.fq q).rbin ∧ (t.fq q).rgray = (s.fq q).rgray
        ∧ (t.fq q).w_result = .full
        ∧ (t.fq q).w_drop_cnt = satInc s.params (s.fq q).w_drop_cnt
        ∧ (t.fq q).w_long_cnt = (s.fq q).w_long_cnt)
    ∧ ((s.fq q).w_full (s.params.N q) = false → s.params.M < F.length →
      ∃ t, runProg s (frameStmts q F) = .next t
        ∧ (t.fq q).frames s.params q = (s.fq q).frames s.params q ∧ (t.fq q).wbin = (s.fq q).wbin
        ∧ (t.fq q).w_result = .tooLong
        ∧ (t.fq q).w_drop_cnt = (s.fq q).w_drop_cnt
        ∧ (t.fq q).w_long_cnt = satInc s.params (s.fq q).w_long_cnt)

/-! ## Consumer operations -/

/-- `R_NOP`, `R_CLRERR` and the reserved consumer codes (41_queue_read.md R182, R184, R185), their encodings first. -/
def Obligations.RNopClrerrAndReservedResult : Prop :=
  ∀ (s : State) (q : Queue) (xx : BitVec 2) (i : Byte), s.params.legal = true →
    decode s.params (.r q) (0x000 + i.toNat) = .ok (.rNop q i)
    ∧ decode s.params (.r q) (0x300 + i.toNat) = .ok (.rClrerr q i)
    ∧ decode s.params (.r q) (0x400 + 0x100 * xx.toNat + i.toNat) = .ok (.rRsv q xx i)
    ∧ exec (.rNop q i) s = .next s
    ∧ exec (.rClrerr q i) s = .next (s.setFq q { s.fq q with r_operr := false })
    ∧ exec (.rRsv q xx i) s = .next (s.setFq q { s.fq q with r_operr := true })

/-- `R_READ` (41_queue_read.md R181): a byte of the head frame, or 0x00 where the queue is empty or the index is at or
beyond the frame's length. The last two clauses say where the model stops: on a slot byte no one has written, which no run
reads (20_memory.md R84, log 8), and on an index of `M` or more under a stored length above it (log 10). -/
def Obligations.RReadResult : Prop :=
  ∀ (s : State) (q : Queue) (idx : Byte) (f : Fq) (i : Nat), s.params.legal = true → f = s.fq q →
    i = slotidx (s.params.N q) f.rbin →
    (f.r_empty = true → exec (.rRead q idx) s = .next (s.setFq q { f with r_rdata := 0 }))
    ∧ (∀ len, f.r_empty = false → f.mem.read (lenAddr s.params i) = some len → len.toNat ≤ idx.toNat →
      exec (.rRead q idx) s = .next (s.setFq q { f with r_rdata := 0 }))
    ∧ (∀ len v, f.r_empty = false → f.mem.read (lenAddr s.params i) = some len → idx.toNat < len.toNat →
      idx.toNat < s.params.M → f.mem.read (dataAddr s.params i idx.toNat) = some v →
      exec (.rRead q idx) s = .next (s.setFq q { f with r_rdata := v }))
    ∧ (f.r_empty = false →
      (f.mem.read (lenAddr s.params i) = none
        ∨ ∃ len, f.mem.read (lenAddr s.params i) = some len ∧ idx.toNat < len.toNat ∧ idx.toNat < s.params.M
            ∧ f.mem.read (dataAddr s.params i idx.toNat) = none) →
      exec (.rRead q idx) s = .fault .unwrittenSlotByte)
    ∧ (∀ len, f.r_empty = false → f.mem.read (lenAddr s.params i) = some len → idx.toNat < len.toNat →
      s.params.M ≤ idx.toNat → exec (.rRead q idx) s = .fault .outsideSlot)

/-- `R_POP` (41_queue_read.md R183), its encoding first. -/
def Obligations.RPopResult : Prop :=
  ∀ (s : State) (q : Queue) (i : Byte), s.params.legal = true →
    decode s.params (.r q) (0x200 + i.toNat) = .ok (.rPop q i)
    ∧ ((s.fq q).r_empty = true → exec (.rPop q i) s = .next (s.setFq q { s.fq q with r_result := .empty }))
    ∧ ((s.fq q).r_empty = false → exec (.rPop q i) s = .next (s.setFq q
      { s.fq q with
        rbin := ptrSucc (s.params.N q) (s.fq q).rbin
        rgray := gray (ptrSucc (s.params.N q) (s.fq q).rbin)
        r_result := .ok }))

/-- The frame of every consumer operation: it writes no slot memory and no write-domain register, and of its own registers
only those its rule names (41_queue_read.md R181 to R186). -/
def Obligations.ConsumerFrame : Prop :=
  ∀ (s t : State) (q : Queue) (i : Instr), i.port = .r q → exec i s = .next t →
    (∀ q' : Queue, q' ≠ q → t.fq q' = s.fq q')
    ∧ t.params = s.params ∧ t.frx = s.frx ∧ t.ftx = s.ftx ∧ t.txlog = s.txlog ∧ t.pending = s.pending
    ∧ t.draws = s.draws ∧ t.seen = s.seen
    ∧ (∀ a, (t.fq q).mem.read a = (s.fq q).mem.read a)
    ∧ (t.fq q).wbin = (s.fq q).wbin ∧ (t.fq q).wgray = (s.fq q).wgray ∧ (t.fq q).rsync = (s.fq q).rsync
    ∧ (t.fq q).w_open = (s.fq q).w_open ∧ (t.fq q).w_len = (s.fq q).w_len
    ∧ (t.fq q).w_discard = (s.fq q).w_discard ∧ (t.fq q).w_oversize = (s.fq q).w_oversize
    ∧ (t.fq q).w_result = (s.fq q).w_result ∧ (t.fq q).w_drop_cnt = (s.fq q).w_drop_cnt
    ∧ (t.fq q).w_long_cnt = (s.fq q).w_long_cnt ∧ (t.fq q).w_operr = (s.fq q).w_operr
    ∧ (t.fq q).wsync = (s.fq q).wsync
    ∧ ((∀ k, i ≠ .rRead q k) → (t.fq q).r_rdata = (s.fq q).r_rdata)
    ∧ ((∀ k, i ≠ .rPop q k) → (t.fq q).rbin = (s.fq q).rbin ∧ (t.fq q).rgray = (s.fq q).rgray
        ∧ (t.fq q).r_result = (s.fq q).r_result)
    ∧ ((∀ k, i ≠ .rClrerr q k) → (∀ xx k, i ≠ .rRsv q xx k) → (t.fq q).r_operr = (s.fq q).r_operr)

/-- A consumer operation reads nothing of the write domain but the slot memory (41_queue_read.md R186). -/
def Obligations.ConsumerIgnoresWriteDomain : Prop :=
  ∀ (s t : State) (q : Queue) (i : Instr) (wb wg : Ptr) (rs : List Ptr) (wo wd wv we : Bool) (wl : Byte)
    (wr : WResult) (dc lc : Cnt),
    i.port = .r q → exec i s = .next t →
    exec i (s.setFq q { s.fq q with
        wbin := wb, wgray := wg, rsync := rs, w_open := wo, w_len := wl, w_discard := wd, w_oversize := wv
        w_result := wr, w_drop_cnt := dc, w_long_cnt := lc, w_operr := we })
      = .next (t.setFq q { t.fq q with
        wbin := wb, wgray := wg, rsync := rs, w_open := wo, w_len := wl, w_discard := wd, w_oversize := wv
        w_result := wr, w_drop_cnt := dc, w_long_cnt := lc, w_operr := we })

/-- `r_len` (41_queue_read.md R180), as the consumer's domain observes it. The last clause says where the model stops: on a
length no one has written (20_memory.md R84, log 8). -/
def Obligations.RLenIsTheHeadLength : Prop :=
  ∀ (s : State) (q : Queue) (f : Fq) (i : Nat), f = s.fq q → i = slotidx (s.params.N q) f.rbin →
    (f.r_empty = true → f.r_len s.params q = .ok 0)
    ∧ (∀ len, f.r_empty = false → f.mem.read (lenAddr s.params i) = some len → f.r_len s.params q = .ok len)
    ∧ (f.r_empty = false → f.mem.read (lenAddr s.params i) = none → f.r_len s.params q = .error .unwrittenSlotByte)

/-- The source's `dequeue()` on a queue the consumer sees as non-empty (41_queue_read.md R187): `r_len` is the length of
the head frame `F`, `R_READ i` returns `F[i]`, and after `q.R TAKE` the frame is gone from the front of the queue. -/
def Obligations.DequeueReturnsTheHeadFrame : Prop :=
  ∀ (s : State) (q : Queue), s.Inv → q ≠ .qt → (s.fq q).r_empty = false →
    ∃ F : Frame, ((s.fq q).frames s.params q).head? = some (some F)
      ∧ (s.fq q).r_len s.params q = .ok (BitVec.ofNat 8 F.length) ∧ F.length ≤ s.params.M
      ∧ (∀ (i : Nat) (h : i < F.length),
          exec (.rRead q (BitVec.ofNat 8 i)) s = .next (s.setFq q { s.fq q with r_rdata := F[i] }))
      ∧ ∃ t, runProg s (takeStmts q F.length) = .next t
        ∧ (t.fq q).frames s.params q = ((s.fq q).frames s.params q).tail ∧ (t.fq q).r_result = .ok

/-- While the consumer sees a frame and does not pop it, the head frame stays what it is, whatever steps are taken
(41_queue_read.md R188). -/
def Obligations.HeadFrameIsStable : Prop :=
  ∀ (s t : State) (e : Event) (rest : List Event) (q : Queue), s.Inv → s.pending = e :: rest → e ≠ .reset →
    step s = .next t → (s.fq q).r_empty = false → (t.fq q).rbin = (s.fq q).rbin →
    (t.fq q).r_empty = false
    ∧ (t.fq q).r_len s.params q = (s.fq q).r_len s.params q
    ∧ ((t.fq q).frames s.params q).head? = ((s.fq q).frames s.params q).head?
    ∧ ∀ idx, (t.fq q).readByte s.params q idx = (s.fq q).readByte s.params q idx

/-! ## Synchronisers, full and empty -/

/-- One clock of each synchroniser (42_sync.md R201, R202): stage 0 takes the gray pointer, every later stage takes the
stage before it, and nothing else changes. -/
def Obligations.SynchroniserStepsShift : Prop :=
  ∀ (s : State) (q : Queue) (rest : List Event), s.params.legal = true →
    (s.fq q).wsync.length = s.params.S q → (s.fq q).rsync.length = s.params.S q →
    (s.pending = .syncW2R q :: rest →
      ∃ ws, step s = .next ({ s with pending := rest }.setFq q { s.fq q with wsync := ws })
        ∧ ws.length = s.params.S q ∧ ws[0]? = some (s.fq q).wgray
        ∧ ∀ j, j + 1 < s.params.S q → ws[j + 1]? = (s.fq q).wsync[j]?)
    ∧ (s.pending = .syncR2W q :: rest →
      ∃ rs, step s = .next ({ s with pending := rest }.setFq q { s.fq q with rsync := rs })
        ∧ rs.length = s.params.S q ∧ rs[0]? = some (s.fq q).rgray
        ∧ ∀ j, j + 1 < s.params.S q → rs[j + 1]? = (s.fq q).rsync[j]?)

/-- The gray code of `PW` bits for every legal `N` (42_sync.md R200): one bit changes from each pointer to the next, the
wrap included, and `gray2bin` is the inverse on pointers below `2N`; and the table of `N = 4`. -/
def Obligations.GrayCodeOfEveryCapacity : Prop :=
  ∀ (c : FqParams) (b : Ptr), c.legal = true → b.toNat < 2 * c.N →
    (∃ i < pw c.N, gray b ^^^ gray (ptrSucc c.N b) = 1#8 <<< i)
    ∧ (gray b).toNat < 2 * c.N ∧ gray2bin (gray b) = b
    ∧ (gray2bin b).toNat < 2 * c.N ∧ gray (gray2bin b) = b
    ∧ [0, 1, 2, 3, 4, 5, 6, 7].map gray = [0b000, 0b001, 0b011, 0b010, 0b110, 0b111, 0b101, 0b100]

/-- `w_full` is the level `N` and `r_empty` the level 0, in every state of the invariant (42_sync.md R208). -/
def Obligations.FullAndEmptyAreLevels : Prop :=
  ∀ (s : State) (q : Queue), s.Inv →
    ((s.fq q).w_full (s.params.N q) = true ↔ ((s.fq q).w_level (s.params.N q)).toNat = s.params.N q)
    ∧ ((s.fq q).r_empty = true ↔ (s.fq q).r_level (s.params.N q) = 0)

/-- The two views bracket the true occupancy, so a flag errs only toward full and empty (42_sync.md R209, 3, and R211). -/
def Obligations.LevelsBracketTheOccupancy : Prop :=
  ∀ (s : State) (q : Queue) (N : Nat) (f : Fq), s.Inv → N = s.params.N q → f = s.fq q →
    (f.r_level N).toNat + f.lagW N = f.occupancy N
    ∧ (f.w_level N).toNat = f.occupancy N + f.lagR N
    ∧ (f.w_level N).toNat ≤ N
    ∧ (f.w_full N = false → f.occupancy N < N)
    ∧ (f.r_empty = false → 0 < f.occupancy N)

/-- `S` clocks of a synchroniser bring its view up to date (42_sync.md R212), and `q.SETTLE` both. -/
def Obligations.SynchronisersConverge : Prop :=
  ∀ (s : State) (q : Queue) (N : Nat), s.Inv → N = s.params.N q →
    (∃ t, runProg s (List.replicate (s.params.S q) (.syncR2W q)) = .next t
      ∧ (t.fq q).rq = (s.fq q).rgray ∧ ((t.fq q).w_level N).toNat = (s.fq q).occupancy N)
    ∧ (∃ t, runProg s (List.replicate (s.params.S q) (.syncW2R q)) = .next t
      ∧ (t.fq q).wq = (s.fq q).wgray ∧ ((t.fq q).r_level N).toNat = (s.fq q).occupancy N)
    ∧ (∃ t, runProg s (settleStmts s.params q) = .next t
      ∧ ((t.fq q).w_level N).toNat = (s.fq q).occupancy N
      ∧ ((t.fq q).r_level N).toNat = (s.fq q).occupancy N)

/-- Only these steps move the flags (41_queue_read.md R188, R189; 40_queue_write.md R154): `r_empty` falls at a
`q.SYNC_W2R`, and rises at a pop or a `RESET`; `w_full` rises at a commit with result OK, and falls at a `q.SYNC_R2W` or a
`RESET`. -/
def Obligations.FlagsMoveOnlyAt : Prop :=
  ∀ (s t : State) (e : Event) (rest : List Event) (q : Queue), s.Inv → s.pending = e :: rest → step s = .next t →
    ((s.fq q).r_empty = true → (t.fq q).r_empty = false → e = .syncW2R q)
    ∧ ((s.fq q).r_empty = false → (t.fq q).r_empty = true →
        e = .reset ∨ (t.fq q).rbin = ptrSucc (s.params.N q) (s.fq q).rbin)
    ∧ ((s.fq q).w_full (s.params.N q) = false → (t.fq q).w_full (s.params.N q) = true →
        (t.fq q).wbin = ptrSucc (s.params.N q) (s.fq q).wbin ∧ (t.fq q).w_result = .ok)
    ∧ ((s.fq q).w_full (s.params.N q) = true → (t.fq q).w_full (s.params.N q) = false →
        e = .syncR2W q ∨ e = .reset)

/-- The weak fairness of the synchronisers (42_sync.md R213) is what rules out a flag that stays up for ever after the other
side has acted. In a fair run, a queue that holds a frame is seen as non-empty some time, unless a `RESET` comes; and a queue
with a free slot is seen as not full some time. The fairness is a premise, not proved of the machine (log 16). -/
def Obligations.FairRunsLowerTheFlags : Prop :=
  ∀ (sched : Schedule) (σ : Nat → State) (q : Queue) (n N : Nat), FairRun sched σ → (σ n).Inv →
    N = (σ n).params.N q →
    (0 < ((σ n).fq q).occupancy N → (∀ m, n ≤ m → sched m ≠ .reset) →
      ∃ m, n ≤ m ∧ ((σ m).fq q).r_empty = false)
    ∧ (((σ n).fq q).occupancy N < N → ∃ m, n ≤ m ∧ ((σ m).fq q).w_full N = false)

/-! ## The decoder FRX -/

/-- HUNT (43_framer_rx.md R226). -/
def Obligations.FrxInHunt : Prop :=
  ∀ s : State, s.params.legal = true → s.frx.d_state = .hunt →
    exec .wireFlag s = .next { s with frx := { s.frx with d_state := .start } }
    ∧ exec .wireEsc s = .next s
    ∧ ∀ i v, PlainByte s.params i v → exec i s = .next s

/-- START (43_framer_rx.md R227). -/
def Obligations.FrxInStart : Prop :=
  ∀ s : State, s.params.legal = true → s.frx.d_state = .start →
    exec .wireFlag s = .next s
    ∧ (s.params.LEN_FIELD = true → exec .wireEsc s = .next { s with frx := { s.frx with d_state := .lenEsc } })
    ∧ (s.params.LEN_FIELD = false → exec .wireEsc s = .next { s with frx := { s.frx with d_state := .bodyEsc } })
    ∧ ∀ i v, PlainByte s.params i v →
      (s.params.LEN_FIELD = true → TakesLength i v s) ∧ (s.params.LEN_FIELD = false → TakesPayload i v s)

/-- LEN_ESC (43_framer_rx.md R228). -/
def Obligations.FrxInLenEsc : Prop :=
  ∀ s : State, s.params.legal = true → s.frx.d_state = .lenEsc →
    exec .wireFlag s = .next (s.framingError .escape .start)
    ∧ exec .wireEsc s = .next (s.framingError .escape .hunt)
    ∧ TakesLength .wireTFlag s.params.FLAG s
    ∧ TakesLength .wireTEsc s.params.ESC s
    ∧ ∀ b, s.params.framingByte b = false → exec (.wireData b) s = .next (s.framingError .escape .hunt)

/-- BODY (43_framer_rx.md R229, with `end_frame()` of R224). -/
def Obligations.FrxInBody : Prop :=
  ∀ s : State, s.params.legal = true → s.frx.d_state = .body →
    (s.params.LEN_FIELD = true → s.frx.d_cnt.toNat < s.frx.d_len.toNat →
      exec .wireFlag s = .next (s.framingError .delim .start))
    ∧ (s.params.LEN_FIELD = false ∨ s.frx.d_len.toNat ≤ s.frx.d_cnt.toNat →
      exec .wireFlag s = .next { s with
        frx := { s.frx with d_ok_cnt := satInc s.params s.frx.d_ok_cnt, d_state := .start, d_cnt := 0, d_len := 0 }
        qh := s.qh.wCommit s.params .qh })
    ∧ exec .wireEsc s = .next { s with frx := { s.frx with d_state := .bodyEsc } }
    ∧ ∀ i v, PlainByte s.params i v → TakesPayload i v s

/-- BODY_ESC (43_framer_rx.md R230). -/
def Obligations.FrxInBodyEsc : Prop :=
  ∀ s : State, s.params.legal = true → s.frx.d_state = .bodyEsc →
    exec .wireFlag s = .next (s.framingError .escape .start)
    ∧ exec .wireEsc s = .next (s.framingError .escape .hunt)
    ∧ TakesPayload .wireTFlag s.params.FLAG s
    ∧ TakesPayload .wireTEsc s.params.ESC s
    ∧ ∀ b, s.params.framingByte b = false → exec (.wireData b) s = .next (s.framingError .escape .hunt)

/-- The frame of an FRX step (43_framer_rx.md R220): it is one step of FRX and one producer step of `QH`, and touches
nothing else. Of `QH`'s slot memory `ESC` changes no byte, `FLAG` at most the `len` that `W_COMMIT` stores, and every other
byte at most the `data[len]` that `W_BYTE` stores; the last clause also bounds `wireData` of a framing byte, which no byte
decodes to. -/
def Obligations.WireByteFrame : Prop :=
  ∀ (s t : State) (i : Instr) (lenA dataA : Nat), i.port = .rx → exec i s = .next t →
    lenA = lenAddr s.params (slotidx (s.params.N .qh) s.qh.wbin) →
    dataA = dataAddr s.params (slotidx (s.params.N .qh) s.qh.wbin) (s.qh.assembly (s.params.N .qh)).len.toNat →
    t.params = s.params ∧ t.qr = s.qr ∧ t.qt = s.qt ∧ t.ftx = s.ftx ∧ t.txlog = s.txlog ∧ t.pending = s.pending
    ∧ t.draws = s.draws ∧ t.seen = s.seen
    ∧ t.qh.rbin = s.qh.rbin ∧ t.qh.rgray = s.qh.rgray ∧ t.qh.wsync = s.qh.wsync ∧ t.qh.r_rdata = s.qh.r_rdata
    ∧ t.qh.r_result = s.qh.r_result ∧ t.qh.r_operr = s.qh.r_operr ∧ t.qh.rsync = s.qh.rsync
    ∧ t.qh.w_operr = s.qh.w_operr
    ∧ (i = .wireEsc → ∀ a, t.qh.mem.read a = s.qh.mem.read a)
    ∧ (i = .wireFlag → ∀ a, a ≠ lenA → t.qh.mem.read a = s.qh.mem.read a)
    ∧ (i ≠ .wireFlag → i.wf s.params = true → ∀ a, a ≠ dataA → t.qh.mem.read a = s.qh.mem.read a)
    ∧ ∀ a, a ≠ dataA → a ≠ lenA → t.qh.mem.read a = s.qh.mem.read a

/-- Round trip (43_framer_rx.md R238, R239): from any state of FRX, after any bytes whatever, the bytes of `encode(F)` end
in the operations `W_BYTE F[0]`, .., `W_COMMIT` and in START. -/
def Obligations.FrxDecodesTheEncodedFrame : Prop :=
  ∀ (p : Params) (d : Frx) (before : List Byte) (F : Frame), p.legal = true → d.Inv p → F.length ≤ p.M →
    (p.LEN_FIELD = false → F ≠ []) →
    (Frx.decode p d (before ++ encodeFrame p F)).1.d_state = .start
    ∧ ∃ ops, realOps (Frx.decode p d (before ++ encodeFrame p F)).2 = ops ++ F.map .byte ++ [.commit]

/-- HOST sends `encode(F)` while FRX is between frames and `QH` has a free slot in FRX's view: `F` stands behind the frames
of `QH`, with its bytes in order (43_framer_rx.md R238, 20_memory.md R85). -/
def Obligations.HostFrameReachesTheQueue : Prop :=
  ∀ (s : State) (F : Frame), s.Inv → s.frx.d_state = .hunt ∨ s.frx.d_state = .start →
    s.qh.w_full (s.params.N .qh) = false → F.length ≤ s.params.M → (s.params.LEN_FIELD = false → F ≠ []) →
    ∃ t, runProg s (frxStmts (encodeFrame s.params F)) = .next t
      ∧ t.qh.frames s.params .qh = s.qh.frames s.params .qh ++ [some F]
      ∧ t.frx.d_state = .start ∧ t.frx.d_err_cnt = s.frx.d_err_cnt
      ∧ t.frx.d_ok_cnt = satInc s.params s.frx.d_ok_cnt

/-! ## The encoder FTX -/

/-- A pending escape byte goes out and nothing else happens (44_framer_tx.md R266). -/
def Obligations.FtxSendsThePendingByte : Prop :=
  ∀ (s : State) (rest : List Event), s.params.legal = true → s.pending = .ftx :: rest → s.ftx.e_pend = true →
    step s = .next { s with
      pending := rest
      ftx := { s.ftx with e_pend := false }
      txlog := s.txlog ++ [s.ftx.e_pbyte] }

/-- IDLE (44_framer_tx.md R262). The last clause says where the model stops: on a length no one has written
(20_memory.md R84, log 8). -/
def Obligations.FtxInIdle : Prop :=
  ∀ (s : State) (rest : List Event) (a : Nat), s.params.legal = true → s.pending = .ftx :: rest →
    s.ftx.e_pend = false → s.ftx.e_state = .idle →
    a = lenAddr s.params (slotidx (s.params.N .qt) s.qt.rbin) →
    (s.qt.r_empty = true → step s = .next { s with pending := rest })
    ∧ (∀ L st, s.qt.r_empty = false → s.qt.mem.read a = some L →
      (s.params.LEN_FIELD = true ∧ st = .len) ∨ (s.params.LEN_FIELD = false ∧ L = 0 ∧ st = .close)
        ∨ (s.params.LEN_FIELD = false ∧ L ≠ 0 ∧ st = .data) →
      step s = .next { s with
        pending := rest
        ftx := { s.ftx with e_len := L, e_idx := 0, e_state := st }
        txlog := s.txlog ++ [s.params.FLAG] })
    ∧ (s.qt.r_empty = false → s.qt.mem.read a = none → step s = .fault .unwrittenSlotByte)

/-- LEN (44_framer_tx.md R263, with `emit_esc` of R261). -/
def Obligations.FtxInLen : Prop :=
  ∀ (s : State) (rest : List Event) (st : EState), s.params.legal = true → s.pending = .ftx :: rest →
    s.ftx.e_pend = false → s.ftx.e_state = .len →
    (s.ftx.e_len = 0 ∧ st = .close) ∨ (s.ftx.e_len ≠ 0 ∧ st = .data) →
    (s.ftx.e_len = s.params.FLAG → step s = .next { s with
      pending := rest
      ftx := { s.ftx with e_state := st, e_pend := true, e_pbyte := s.params.T_FLAG }
      txlog := s.txlog ++ [s.params.ESC] })
    ∧ (s.ftx.e_len = s.params.ESC → step s = .next { s with
      pending := rest
      ftx := { s.ftx with e_state := st, e_pend := true, e_pbyte := s.params.T_ESC }
      txlog := s.txlog ++ [s.params.ESC] })
    ∧ (s.ftx.e_len ≠ s.params.FLAG → s.ftx.e_len ≠ s.params.ESC → step s = .next { s with
      pending := rest
      ftx := { s.ftx with e_state := st }
      txlog := s.txlog ++ [s.ftx.e_len] })

/-- DATA (44_framer_tx.md R264): the byte `R_READ e_idx` returns on `QT.R` goes out, escaped. The last clause: where that
read stops, the step stops with the same fault. -/
def Obligations.FtxInData : Prop :=
  ∀ (s : State) (rest : List Event) (st : EState), s.params.legal = true → s.pending = .ftx :: rest →
    s.ftx.e_pend = false → s.ftx.e_state = .data →
    (s.ftx.e_idx + 1 = s.ftx.e_len ∧ st = .close) ∨ (s.ftx.e_idx + 1 ≠ s.ftx.e_len ∧ st = .data) →
    (∀ v, s.qt.readByte s.params .qt s.ftx.e_idx = .ok v →
      (v = s.params.FLAG → step s = .next { s with
        pending := rest
        qt := { s.qt with r_rdata := v }
        ftx := { s.ftx with
          e_idx := s.ftx.e_idx + 1, e_state := st, e_pend := true, e_pbyte := s.params.T_FLAG }
        txlog := s.txlog ++ [s.params.ESC] })
      ∧ (v = s.params.ESC → step s = .next { s with
        pending := rest
        qt := { s.qt with r_rdata := v }
        ftx := { s.ftx with
          e_idx := s.ftx.e_idx + 1, e_state := st, e_pend := true, e_pbyte := s.params.T_ESC }
        txlog := s.txlog ++ [s.params.ESC] })
      ∧ (v ≠ s.params.FLAG → v ≠ s.params.ESC → step s = .next { s with
        pending := rest
        qt := { s.qt with r_rdata := v }
        ftx := { s.ftx with e_idx := s.ftx.e_idx + 1, e_state := st }
        txlog := s.txlog ++ [v] }))
    ∧ (∀ x, s.qt.readByte s.params .qt s.ftx.e_idx = .error x → step s = .fault x)

/-- CLOSE (44_framer_tx.md R265): the closing delimiter goes out, and `R_POP` is issued in the same step. -/
def Obligations.FtxInClose : Prop :=
  ∀ (s : State) (rest : List Event), s.params.legal = true → s.pending = .ftx :: rest →
    s.ftx.e_pend = false → s.ftx.e_state = .close →
    step s = .next { s with
      pending := rest
      qt := s.qt.rPop (s.params.N .qt)
      ftx := { s.ftx with
        e_ok_cnt := satInc s.params s.ftx.e_ok_cnt, e_state := .idle, e_idx := 0, e_len := 0 }
      txlog := s.txlog ++ [s.params.FLAG] }

/-- From IDLE with a frame `F` at the head of `QT`, each FTX step sends one more byte of `encode(F)`; the last pops `F`
(44_framer_tx.md R268), and before it `QT` holds all its frames (R265, "and not before"). -/
def Obligations.FtxSendsTheEncodedFrame : Prop :=
  ∀ (s : State) (F : Frame), s.Inv → s.ftx.e_state = .idle → s.qt.r_empty = false →
    (s.qt.frames s.params .qt).head? = some (some F) →
    (∀ n ≤ (encodeFrame s.params F).length, ∃ t, runProg s (ftxStmts n) = .next t
      ∧ t.txlog = s.txlog ++ (encodeFrame s.params F).take n
      ∧ (n < (encodeFrame s.params F).length → t.qt.frames s.params .qt = s.qt.frames s.params .qt))
    ∧ ∃ t, runProg s (ftxStmts (encodeFrame s.params F).length) = .next t
      ∧ t.qt.frames s.params .qt = (s.qt.frames s.params .qt).tail
      ∧ t.ftx.e_state = .idle ∧ t.ftx.e_pend = false
      ∧ t.ftx.e_ok_cnt = satInc s.params s.ftx.e_ok_cnt

/-! ## Reset and outputs -/

/-- `RESET` (70_reset_and_hazards.md R330): every register at its reset value; slot memory and `txlog` unchanged. -/
def Obligations.ResetSetsEveryRegister : Prop :=
  ∀ (s : State) (rest : List Event), s.params.legal = true → s.pending = .reset :: rest →
    ∃ t, step s = .next t
      ∧ (∀ q : Queue, ∃ m, t.fq q =
          { wbin := 0, wgray := 0, rsync := List.replicate (s.params.S q) 0, w_open := false, w_len := 0
            w_discard := false, w_oversize := false, w_result := .none, w_drop_cnt := 0, w_long_cnt := 0
            w_operr := false, rbin := 0, rgray := 0, wsync := List.replicate (s.params.S q) 0, r_rdata := 0
            r_result := .none, r_operr := false, mem := m } ∧ m = (s.fq q).mem)
      ∧ t.frx = { d_state := .hunt, d_len := 0, d_cnt := 0, d_err_cnt := 0, d_ok_cnt := 0, d_last_err := .none }
      ∧ t.ftx = { e_state := .idle, e_pend := false, e_pbyte := 0, e_len := 0, e_idx := 0, e_ok_cnt := 0 }
      ∧ t.txlog = s.txlog ∧ t.params = s.params

/-- The outputs right after `RESET` (70_reset_and_hazards.md R332). -/
def Obligations.OutputsAfterReset : Prop :=
  ∀ (s t : State) (rest : List Event) (q : Queue), s.params.legal = true → s.pending = .reset :: rest →
    step s = .next t →
    (Output.wFull q).value t = .ok 0 ∧ (Output.wLevel q).value t = .ok 0 ∧ (Output.wIrq q).value t = .ok 1
    ∧ (Output.wStatus q).value t = .ok 0x0000
    ∧ (Output.rEmpty q).value t = .ok 1 ∧ (Output.rLevel q).value t = .ok 0 ∧ (Output.rLen q).value t = .ok 0
    ∧ (Output.rIrq q).value t = .ok 0 ∧ (Output.rStatus q).value t = .ok 0x0001
    ∧ Output.dStatus.value t = .ok 0x00 ∧ Output.eStatus.value t = .ok 0x00
    ∧ (Output.wDropCnt q).value t = .ok 0 ∧ (Output.wLongCnt q).value t = .ok 0
    ∧ Output.dErrCnt.value t = .ok 0 ∧ Output.dOkCnt.value t = .ok 0 ∧ Output.eOkCnt.value t = .ok 0

/-- The layouts of the four status words (10_state.md R45, R46, R50, R52), the codes their fields hold (R37, R42, R48, R49,
R52) and the interrupt levels (60_exceptions.md R310). -/
def Obligations.StatusWordLayouts : Prop :=
  ∀ (N : Nat) (f : Fq) (d : Frx) (e : Ftx),
    (f.W_STATUS N).getLsbD 0 = f.w_full N ∧ (f.W_STATUS N).getLsbD 1 = f.w_open
    ∧ (f.W_STATUS N).getLsbD 2 = f.w_discard ∧ (f.W_STATUS N).getLsbD 3 = f.w_oversize
    ∧ (f.W_STATUS N).extractLsb' 4 2 = f.w_result.code ∧ (f.W_STATUS N).getLsbD 6 = f.w_operr
    ∧ (f.W_STATUS N).getLsbD 7 = false ∧ (f.W_STATUS N).extractLsb' 8 8 = f.w_level N
    ∧ (f.R_STATUS N).getLsbD 0 = f.r_empty ∧ (f.R_STATUS N).extractLsb' 1 2 = f.r_result.code
    ∧ (f.R_STATUS N).getLsbD 3 = f.r_operr ∧ (f.R_STATUS N).extractLsb' 4 4 = 0
    ∧ (f.R_STATUS N).extractLsb' 8 8 = f.r_level N
    ∧ d.D_STATUS.extractLsb' 0 3 = d.d_state.code ∧ d.D_STATUS.extractLsb' 3 2 = d.d_last_err.code
    ∧ d.D_STATUS.extractLsb' 5 3 = 0
    ∧ e.E_STATUS.extractLsb' 0 2 = e.e_state.code ∧ e.E_STATUS.getLsbD 2 = e.e_pend
    ∧ e.E_STATUS.extractLsb' 3 5 = 0
    ∧ f.w_irq N = !f.w_full N ∧ f.r_irq = !f.r_empty
    ∧ [WResult.none, .ok, .full, .tooLong].map WResult.code = [0, 1, 2, 3]
    ∧ [RResult.none, .ok, .empty].map RResult.code = [0, 1, 2]
    ∧ [DState.hunt, .start, .lenEsc, .body, .bodyEsc].map DState.code = [0, 1, 2, 3, 4]
    ∧ [DError.none, .delim, .escape, .length].map DError.code = [0, 1, 2, 3]
    ∧ [EState.idle, .len, .data, .close].map EState.code = [0, 1, 2, 3]

/-- An observer sees an output's value in the output's own domain, and a draw below `2^width` in any other; either way no
FQHL state changes (10_state.md R56, 20_memory.md R88). It holds whatever the draw is. The domains are those of R32 and R44, so
TASK sampling `QH.w_drop_cnt` gets a draw, R56's own example; the widths are those of R44 to R52. The last part names the
register or function each output shows, zero-extended. That a one-bit output of a foreign domain is a draw too is the model's
choice (log 26), as are observations as events (log 6, log 7) and the fault that `r_len` passes on (log 8). -/
def Obligations.ObservingAnOutput : Prop :=
  (∀ (s : State) (rest : List Event) (d : Domain) (o : Output), s.params.legal = true →
    s.pending = .sample d o :: rest →
    (∀ v, o.domain = d → o.value s = .ok v → step s = .next { s with pending := rest, seen := v })
    ∧ (o.domain ≠ d → ∃ v : BitVec 32, v.toNat < 2 ^ o.width s.params
        ∧ step s = .next { s with pending := rest, seen := v, draws := s.draws + 1 }))
  ∧ (∀ (q : Queue) (o : Output) (p : Params),
    (o ∈ [.wStatus q, .wFull q, .wLevel q, .wIrq q, .wDropCnt q, .wLongCnt q] →
      (q = .qr → o.domain = .radio) ∧ (q = .qh → o.domain = .link) ∧ (q = .qt → o.domain = .task))
    ∧ (o ∈ [.rStatus q, .rEmpty q, .rLevel q, .rIrq q, .rLen q, .rRdata q] →
      (q = .qr → o.domain = .task) ∧ (q = .qh → o.domain = .task) ∧ (q = .qt → o.domain = .link))
    ∧ (o ∈ [.dStatus, .dErrCnt, .dOkCnt, .eStatus, .eOkCnt] → o.domain = .link)
    ∧ (o ∈ [.wStatus q, .rStatus q] → o.width p = 16)
    ∧ (o ∈ [.wFull q, .wIrq q, .rEmpty q, .rIrq q] → o.width p = 1)
    ∧ (o ∈ [.wLevel q, .rLevel q, .rLen q, .rRdata q, .dStatus, .eStatus] → o.width p = 8)
    ∧ (o ∈ [.wDropCnt q, .wLongCnt q, .dErrCnt, .dOkCnt, .eOkCnt] → o.width p = p.CNT_W))
  ∧ ∀ (s : State) (q : Queue) (f : Fq) (N : Nat), f = s.fq q → N = s.params.N q →
    (Output.wStatus q).value s = .ok ((f.W_STATUS N).setWidth 32)
    ∧ (Output.wFull q).value s = .ok (if f.w_full N then 1 else 0)
    ∧ (Output.wLevel q).value s = .ok ((f.w_level N).setWidth 32)
    ∧ (Output.wIrq q).value s = .ok (if f.w_full N then 0 else 1)
    ∧ (Output.wDropCnt q).value s = .ok f.w_drop_cnt
    ∧ (Output.wLongCnt q).value s = .ok f.w_long_cnt
    ∧ (Output.rStatus q).value s = .ok ((f.R_STATUS N).setWidth 32)
    ∧ (Output.rEmpty q).value s = .ok (if f.r_empty then 1 else 0)
    ∧ (Output.rLevel q).value s = .ok ((f.r_level N).setWidth 32)
    ∧ (Output.rIrq q).value s = .ok (if f.r_empty then 0 else 1)
    ∧ (∀ len, f.r_len s.params q = .ok len → (Output.rLen q).value s = .ok (len.setWidth 32))
    ∧ (∀ x, f.r_len s.params q = .error x → (Output.rLen q).value s = .error x)
    ∧ (Output.rRdata q).value s = .ok (f.r_rdata.setWidth 32)
    ∧ Output.dStatus.value s = .ok (s.frx.D_STATUS.setWidth 32)
    ∧ Output.dErrCnt.value s = .ok s.frx.d_err_cnt
    ∧ Output.dOkCnt.value s = .ok s.frx.d_ok_cnt
    ∧ Output.eStatus.value s = .ok (s.ftx.E_STATUS.setWidth 32)
    ∧ Output.eOkCnt.value s = .ok s.ftx.e_ok_cnt

/-! ## The whole machine -/

/-- Every step keeps the invariant (42_sync.md R209; 20_memory.md R84, R89; 43_framer_rx.md R234, R240;
44_framer_tx.md R267). -/
def Obligations.StepKeepsTheInvariant : Prop :=
  ∀ s t : State, s.Inv → step s = .next t → t.Inv

/-- The invariant holds right after reset, under every legal configuration, the default among them. -/
def Obligations.InvariantHoldsAtReset : Prop :=
  (∀ p : Params, p.legal = true → (State.resetWith p).Inv) ∧ State.reset.Inv

/-- In every state of the invariant no step ends in a fault, whatever the next event is: no rule reads an unwritten slot
byte, and nothing traps (20_memory.md R84, 60_exceptions.md R300, 93_implementation_defined.md I1). -/
def Obligations.NoStepFaults : Prop :=
  ∀ (s : State) (x : Fault), s.Inv → step s ≠ .fault x

/-- In every state of the invariant every instruction completes in its one step: no operation ever waits
(40_queue_write.md R162, 41_queue_read.md R186, 43_framer_rx.md R241, 60_exceptions.md R321). -/
def Obligations.EveryInstructionCompletes : Prop :=
  ∀ (s : State) (i : Instr), s.Inv → ∃ t, exec i s = .next t

/-- No step changes a parameter (70_reset_and_hazards.md R340). -/
def Obligations.ParametersAreFixed : Prop :=
  ∀ s t : State, step s = .next t → t.params = s.params

/-- `txlog` only grows, by at most one byte, and only at an FTX step (10_state.md R53, 44_framer_tx.md R260). That a `RESET` step keeps it is 70_reset_and_hazards.md R330, as log 21 reads it
beside R53. -/
def Obligations.TxlogOnlyGrows : Prop :=
  ∀ s t : State, step s = .next t →
    t.txlog = s.txlog ∨ (s.pending.head? = some .ftx ∧ ∃ b, t.txlog = s.txlog ++ [b])

/-- `sat_inc` in numbers (00_scope.md R13): a counter below `2^CNT_W - 1` goes up by one, and one that has reached it stays
(10_state.md R38, 70_reset_and_hazards.md R344). And a counter moves by one such increment or not at all, but for `RESET`, and
for `W_CLRCNT` on the producer counters of its queue (60_exceptions.md R314, 10_state.md R47, R51, 40_queue_write.md R158). -/
def Obligations.CountersOnlyCount : Prop :=
  (∀ (p : Params) (c : Cnt), p.legal = true →
    (c.toNat = 2 ^ p.CNT_W - 1 → satInc p c = c)
    ∧ (c.toNat < 2 ^ p.CNT_W - 1 → (satInc p c).toNat = c.toNat + 1))
  ∧ ∀ s t : State, step s = .next t → s.pending.head? ≠ some .reset →
    CounterMoves s s.frx.d_err_cnt t.frx.d_err_cnt
    ∧ CounterMoves s s.frx.d_ok_cnt t.frx.d_ok_cnt
    ∧ CounterMoves s s.ftx.e_ok_cnt t.ftx.e_ok_cnt
    ∧ ∀ q : Queue,
      (∃ a raw, s.pending.head? = some (.command a (.w q) raw) ∧ raw / 256 = 4
        ∧ (t.fq q).w_drop_cnt = 0 ∧ (t.fq q).w_long_cnt = 0)
      ∨ (CounterMoves s (s.fq q).w_drop_cnt (t.fq q).w_drop_cnt
        ∧ CounterMoves s (s.fq q).w_long_cnt (t.fq q).w_long_cnt)

/-- Each queue is a FIFO of whole frames (20_memory.md R97, R91): a step that moves `wbin` puts the frame assembled by the
producer at the back, a step that moves `rbin` takes the frame at the front, `RESET` empties the queue, and every other
step leaves every queued frame, byte for byte, where it is. -/
def Obligations.QueuesAreFifo : Prop :=
  ∀ (s t : State) (q : Queue), s.Inv → step s = .next t →
    (s.pending.head? = some .reset → (t.fq q).frames s.params q = [])
    ∧ (s.pending.head? ≠ some .reset → (t.fq q).wbin ≠ (s.fq q).wbin →
      (t.fq q).frames s.params q = (s.fq q).frames s.params q ++ [(s.fq q).assembled s.params q]
      ∧ ((s.fq q).assembled s.params q).isSome = true ∧ (t.fq q).w_result = .ok)
    ∧ (s.pending.head? ≠ some .reset → (t.fq q).wbin = (s.fq q).wbin → (t.fq q).rbin ≠ (s.fq q).rbin →
      (t.fq q).frames s.params q = ((s.fq q).frames s.params q).tail ∧ (s.fq q).frames s.params q ≠ []
      ∧ (t.fq q).r_result = .ok)
    ∧ (s.pending.head? ≠ some .reset → (t.fq q).wbin = (s.fq q).wbin → (t.fq q).rbin = (s.fq q).rbin →
      (t.fq q).frames s.params q = (s.fq q).frames s.params q)

/-- No step writes a byte of a committed slot: the slot is the consumer's until it is popped (20_memory.md R89,
40_queue_write.md R163). At a `RESET` step it says that reset keeps the slot memory (70_reset_and_hazards.md R330), which the
model reads so (log 9). -/
def Obligations.CommittedSlotsAreNotWritten : Prop :=
  ∀ (s t : State) (q : Queue) (j a : Nat), s.Inv → step s = .next t →
    j < (s.fq q).occupancy (s.params.N q) →
    lenAddr s.params ((s.fq q).slotAt (s.params.N q) j) ≤ a →
    a < lenAddr s.params ((s.fq q).slotAt (s.params.N q) j + 1) →
    (t.fq q).mem.read a = (s.fq q).mem.read a
end

