-- ==== Sys2Proof/Laws/Check.lean ====
section
/-! SUPPORT. The invariant as a computation, so that a concrete state can be shown to meet it. -/

namespace Sys2Proof.Machine

/-- `ChainInv`, computed. -/
def chainCheck (N S : Nat) (src : Ptr) (chain : List Ptr) : Bool :=
  decide (chain.length = S) && decide (∀ g ∈ chain, (gray2bin g).toNat < 2 * N)
  && decide ((chain.map (fun g => (ptrDiff N src (gray2bin g)).toNat)).Pairwise (· ≤ ·))

/-- `Fq.AssemblyInv`, computed. -/
def Fq.assemblyCheck (p : Params) (q : Queue) (f : Fq) : Bool :=
  decide (f.w_open = false → f.w_len = 0 ∧ f.w_discard = false ∧ f.w_oversize = false)
  && decide (f.w_discard = true → f.w_len = 0 ∧ f.w_oversize = false)
  && decide (f.w_len.toNat ≤ p.M)
  && decide (f.w_oversize = true → f.w_len.toNat = p.M)
  && decide (f.w_open = true → f.w_discard = false →
      (f.w_level (p.N q)).toNat < p.N q ∧ (f.assembled p q).isSome = true)

/-- `Fq.Inv`, computed. -/
def Fq.check (p : Params) (q : Queue) (f : Fq) : Bool :=
  decide (f.wbin.toNat < 2 * p.N q) && decide (f.rbin.toNat < 2 * p.N q)
  && decide (f.wgray = gray f.wbin) && decide (f.rgray = gray f.rbin)
  && chainCheck (p.N q) (p.S q) f.rbin f.rsync && chainCheck (p.N q) (p.S q) f.wbin f.wsync
  && decide (f.lagW (p.N q) ≤ f.occupancy (p.N q)) && decide (f.occupancy (p.N q) + f.lagR (p.N q) ≤ p.N q)
  && f.assemblyCheck p q
  && decide (∀ j < f.occupancy (p.N q),
      (f.slotFrame p (f.slotAt (p.N q) j)).any (fun F => decide (F.length ≤ p.M)) = true)
  && decide f.mem.wf && decide (∀ c ∈ f.mem, c.1 < memSize p q)
  && decide (f.w_drop_cnt ≤ cntMax p) && decide (f.w_long_cnt ≤ cntMax p)

/-- The framer's invariants, computed. -/
def State.linkCheck (s : State) : Bool :=
  decide (s.frx.d_cnt.toNat ≤ s.params.M) && decide (s.frx.d_len.toNat ≤ s.params.M)
  && decide (s.frx.inFrame = false → s.frx.d_cnt = 0 ∧ s.frx.d_len = 0)
  && decide (s.params.LEN_FIELD = true → s.frx.d_cnt.toNat ≤ s.frx.d_len.toNat)
  && decide (s.params.LEN_FIELD = false → s.frx.d_len = 0 ∧ s.frx.d_state ≠ .lenEsc)
  && decide (s.params.LEN_FIELD = false → s.frx.d_state = .body → 1 ≤ s.frx.d_cnt.toNat)
  && decide (s.frx.d_err_cnt ≤ cntMax s.params) && decide (s.frx.d_ok_cnt ≤ cntMax s.params)
  && decide (s.qh.w_open = true ↔ 1 ≤ s.frx.d_cnt.toNat)
  && decide (s.qh.w_open = true → s.qh.w_discard = false → s.qh.w_len = s.frx.d_cnt)
  && decide (s.qh.w_oversize = false) && decide (s.qh.w_long_cnt = 0)
  && decide (s.ftx.e_state = .idle → s.ftx.e_len = 0 ∧ s.ftx.e_idx = 0 ∧ s.ftx.e_pend = false)
  && decide (s.ftx.e_state = .len → s.params.LEN_FIELD = true ∧ s.ftx.e_idx = 0 ∧ s.ftx.e_pend = false)
  && decide (s.ftx.e_state = .data → s.ftx.e_idx.toNat < s.ftx.e_len.toNat)
  && decide (s.ftx.e_state = .close → s.ftx.e_idx = s.ftx.e_len)
  && decide (s.ftx.e_pend = true → s.ftx.e_pbyte = s.params.T_FLAG ∨ s.ftx.e_pbyte = s.params.T_ESC)
  && decide (s.ftx.e_ok_cnt ≤ cntMax s.params)
  && decide (s.ftx.e_state ≠ .idle → s.qt.r_empty = false ∧
      s.qt.mem.read (lenAddr s.params (slotidx (s.params.N .qt) s.qt.rbin)) = some s.ftx.e_len)

/-- `State.Inv`, computed. -/
def State.check (s : State) : Bool :=
  s.params.legal && s.qr.check s.params .qr && s.qh.check s.params .qh && s.qt.check s.params .qt && s.linkCheck

theorem chainInv_of_check {N S : Nat} {src : Ptr} {chain : List Ptr} (h : chainCheck N S src chain = true) :
    ChainInv N S src chain := by
  simp only [chainCheck, Bool.and_eq_true, decide_eq_true_eq] at h
  obtain ⟨⟨h1, h2⟩, h3⟩ := h
  exact ⟨h1, h2, h3⟩

theorem Fq.assemblyInv_of_check {p : Params} {q : Queue} {f : Fq} (h : f.assemblyCheck p q = true) :
    f.AssemblyInv p q := by
  simp only [Fq.assemblyCheck, Bool.and_eq_true, decide_eq_true_eq] at h
  obtain ⟨⟨⟨⟨h1, h2⟩, h3⟩, h4⟩, h5⟩ := h
  exact ⟨h1, h2, h3, h4, h5⟩

theorem Fq.inv_of_check {p : Params} {q : Queue} {f : Fq} (h : f.check p q = true) : f.Inv p q := by
  simp only [Fq.check, Bool.and_eq_true, decide_eq_true_eq] at h
  obtain ⟨⟨⟨⟨⟨⟨⟨⟨⟨⟨⟨⟨⟨h1, h2⟩, h3⟩, h4⟩, h5⟩, h6⟩, h7⟩, h8⟩, h9⟩, h10⟩, h11⟩, h12⟩, h13⟩, h14⟩ := h
  exact ⟨⟨h1, h2, h3, h4⟩, chainInv_of_check h5, chainInv_of_check h6, ⟨h7, h8⟩, Fq.assemblyInv_of_check h9, h10,
    h11, h12, h13, h14⟩

/-- A state that passes the computation meets the invariant. -/
theorem State.inv_of_check {s : State} (h : s.check = true) : s.Inv := by
  simp only [State.check, Bool.and_eq_true] at h
  obtain ⟨⟨⟨⟨hp, hr⟩, hh⟩, ht⟩, hl⟩ := h
  simp only [State.linkCheck, Bool.and_eq_true, decide_eq_true_eq] at hl
  obtain ⟨⟨⟨⟨⟨⟨⟨⟨⟨⟨⟨⟨⟨⟨⟨⟨⟨⟨h1, h2⟩, h3⟩, h4⟩, h5⟩, h6⟩, h7⟩, h8⟩, h9⟩, h10⟩, h11⟩, h12⟩, h13⟩, h14⟩, h15⟩, h16⟩,
    h17⟩, h18⟩, h19⟩ := hl
  exact ⟨hp, Fq.inv_of_check hr, Fq.inv_of_check hh, Fq.inv_of_check ht, ⟨h1, h2, h3, h4, h5, h6, h7, h8⟩,
    ⟨h9, h10, h11, h12⟩, ⟨h13, h14, h15, h16, h17, h18⟩, h19⟩

end Sys2Proof.Machine
end

