-- ==== Sys2Proof/Laws/Memory.lean ====
section
/-! SUPPORT. The laws of slot memory: read after write, the canonical form kept, runs of bytes, and slots apart
(spec/20_memory.md R80 to R84). -/

namespace Sys2Proof.Machine

namespace Memory

variable (m : Memory) (a b n : Nat) (v : Byte)

theorem read_write_same : (m.write a v).read a = some v := by
  induction m with
  | nil => simp [write, read]
  | cons c m ih =>
    obtain ⟨k, u⟩ := c
    simp only [write]
    split
    · simp [read]
    · split
      · simp [read]
      · rename_i h1 h2
        have : k ≠ a := fun h => h2 h.symm
        simp [read, this, ih]

theorem read_write_other (h : b ≠ a) : (m.write a v).read b = m.read b := by
  induction m with
  | nil => simp [write, read, Ne.symm h]
  | cons c m ih =>
    obtain ⟨k, u⟩ := c
    simp only [write]
    split
    · simp [read, Ne.symm h]
    · split
      · rename_i h1 h2
        subst h2
        simp [read, Ne.symm h]
      · simp only [read, ih]

/-- Read after write, as one equation. -/
theorem read_write : (m.write a v).read b = if b = a then some v else m.read b := by
  by_cases h : b = a
  · subst h; simp [read_write_same]
  · simp [h, read_write_other]

/-- The entries of a written memory: the new one, or an old one. -/
theorem mem_write {c : Host.Cell} (h : c ∈ m.write a v) : c = (a, v) ∨ c ∈ m := by
  induction m with
  | nil => simpa [write] using h
  | cons d m ih =>
    obtain ⟨k, u⟩ := d
    simp only [write] at h
    split at h
    · simpa using h
    · split at h
      · rcases List.mem_cons.mp h with h | h
        · exact .inl h
        · exact .inr (List.mem_cons_of_mem _ h)
      · rcases List.mem_cons.mp h with h | h
        · exact .inr (h ▸ List.mem_cons_self)
        · rcases ih h with h | h
          · exact .inl h
          · exact .inr (List.mem_cons_of_mem _ h)

/-- A write keeps the canonical form. -/
theorem wf_write {m : Memory} (hm : m.wf) : (m.write a v).wf := by
  induction m with
  | nil => simp [write, wf]
  | cons d m ih =>
    obtain ⟨k, u⟩ := d
    obtain ⟨hk, ht⟩ := List.pairwise_cons.mp hm
    simp only [write]
    split
    · rename_i h
      refine List.pairwise_cons.mpr ⟨?_, List.pairwise_cons.mpr ⟨hk, ht⟩⟩
      intro c hc
      rcases List.mem_cons.mp hc with rfl | hc
      · exact h
      · exact Nat.lt_trans h (hk c hc)
    · split
      · rename_i h1 h2
        subst h2
        exact List.pairwise_cons.mpr ⟨hk, ht⟩
      · rename_i h1 h2
        refine List.pairwise_cons.mpr ⟨?_, ih ht⟩
        intro c hc
        rcases mem_write _ _ _ hc with rfl | hc
        · exact Nat.lt_of_le_of_ne (Nat.le_of_not_lt h1) (Ne.symm h2)
        · exact hk c hc

/-- Right after reset no slot byte is listed, so every slot memory is in canonical form. -/
theorem wf_reset (p : Params) (q : Queue) : ((State.resetWith p).fq q).mem.wf := by
  cases q <;> exact List.Pairwise.nil

/-- A write inside a bound keeps every address inside it. -/
theorem lt_write {m : Memory} {size : Nat} (hm : ∀ c ∈ m, c.1 < size) (ha : a < size) :
    ∀ c ∈ m.write a v, c.1 < size := by
  intro c hc
  rcases mem_write _ _ _ hc with rfl | hc
  · exact ha
  · exact hm c hc

/-! ## Runs of bytes -/

@[simp] theorem readBytes_zero : m.readBytes a 0 = some [] := rfl

theorem readBytes_succ : m.readBytes a (n + 1) =
    match m.read a, m.readBytes (a + 1) n with
    | some b, some bs => some (b :: bs)
    | _, _ => none := rfl

/-- A run of bytes depends only on the bytes of the run. -/
theorem readBytes_congr {m m' : Memory} (h : ∀ j < n, m'.read (a + j) = m.read (a + j)) :
    m'.readBytes a n = m.readBytes a n := by
  induction n generalizing a with
  | zero => rfl
  | succ n ih =>
    have h0 : m'.read a = m.read a := by simpa using h 0 (Nat.succ_pos n)
    have ih' := ih (a := a + 1) (fun j hj => by
      have := h (j + 1) (Nat.succ_lt_succ hj)
      rwa [show a + (j + 1) = a + 1 + j by omega] at this)
    rw [readBytes_succ, readBytes_succ, h0, ih']

/-- A write outside a run of bytes leaves it alone. -/
theorem readBytes_write_outside (h : b < a ∨ a + n ≤ b) : (m.write b v).readBytes a n = m.readBytes a n :=
  readBytes_congr _ _ (fun j hj => read_write_other _ _ _ _ (by omega))

theorem readBytes_length {bs : List Byte} (h : m.readBytes a n = some bs) : bs.length = n := by
  induction n generalizing a bs with
  | zero => simp only [readBytes_zero, Option.some.injEq] at h; subst h; rfl
  | succ n ih =>
    rw [readBytes_succ] at h
    split at h
    · rename_i b bs' _ h2
      cases h
      simp [ih _ h2]
    · cases h

/-- A run one byte longer ends in the byte after the run. -/
theorem readBytes_snoc : m.readBytes a (n + 1) =
    match m.readBytes a n, m.read (a + n) with
    | some bs, some b => some (bs ++ [b])
    | _, _ => none := by
  induction n generalizing a with
  | zero => rw [readBytes_succ]; cases h : m.read a <;> simp
  | succ n ih =>
    rw [readBytes_succ, ih (a + 1), readBytes_succ m a n, show a + 1 + n = a + (n + 1) by omega]
    cases m.read a <;> cases m.readBytes (a + 1) n <;> cases m.read (a + (n + 1)) <;> simp

/-- The bytes of a run, one by one. -/
theorem read_of_readBytes {bs : List Byte} (h : m.readBytes a n = some bs) (j : Nat) (hj : j < n) :
    m.read (a + j) = bs[j]? := by
  induction n generalizing a bs j with
  | zero => omega
  | succ n ih =>
    rw [readBytes_succ] at h
    split at h
    · rename_i b bs' h1 h2
      cases h
      cases j with
      | zero => simpa using h1
      | succ j =>
        have := ih _ h2 j (by omega)
        rw [show a + (j + 1) = a + 1 + j by omega, this]
        simp
    · cases h

end Memory

/-! ## The slots lie apart -/

variable (p : Params) (i i' j : Nat)

theorem dataAddr_eq : dataAddr p i j = lenAddr p i + 1 + j := rfl

theorem lenAddr_succ : lenAddr p (i + 1) = lenAddr p i + (p.M + 1) := by
  simp only [lenAddr, Nat.add_mul, Nat.one_mul]

theorem lenAddr_lt_of_lt {i i' : Nat} (h : i < i') : lenAddr p i + (p.M + 1) ≤ lenAddr p i' := by
  rw [← lenAddr_succ]
  exact Nat.mul_le_mul_right _ h

theorem lenAddr_inj {i i' : Nat} (h : lenAddr p i = lenAddr p i') : i = i' :=
  Nat.eq_of_mul_eq_mul_right (Nat.succ_pos p.M) h

/-- An address of slot `i` is not one of slot `i'`. -/
theorem slot_apart {i i' : Nat} (h : i ≠ i') {a : Nat} (h1 : lenAddr p i ≤ a) (h2 : a < lenAddr p i + (p.M + 1)) :
    a < lenAddr p i' ∨ lenAddr p i' + (p.M + 1) ≤ a := by
  rcases Nat.lt_or_gt_of_ne h with h | h
  · have := lenAddr_lt_of_lt p h; omega
  · have := lenAddr_lt_of_lt p h; omega

theorem lenAddr_lt_memSize (q : Queue) (h : i < p.N q) : lenAddr p i + (p.M + 1) ≤ memSize p q :=
  lenAddr_lt_of_lt p h

end Sys2Proof.Machine
end

