-- ==== Sys2Proof/Laws/State.lean ====
section
/-! SUPPORT. One lemma per field per update of State, and the lemmas of the queue accessors, so that no later proof
unfolds a record update. -/

namespace Sys2Proof.Machine

variable (s : State) (q q' : Queue) (f g : Fq)

/-! ## Replacing a queue -/

@[simp] theorem State.fq_setFq : (s.setFq q f).fq q = f := by cases q <;> rfl

@[simp] theorem State.fq_setFq_ne (h : q' ≠ q) : (s.setFq q f).fq q' = s.fq q' := by
  cases q <;> cases q' <;> first | rfl | exact absurd rfl h

@[simp] theorem State.setFq_fq : s.setFq q (s.fq q) = s := by cases q <;> rfl

@[simp] theorem State.setFq_setFq : (s.setFq q f).setFq q g = s.setFq q g := by cases q <;> rfl

@[simp] theorem State.setFq_params : (s.setFq q f).params = s.params := by cases q <;> rfl

@[simp] theorem State.setFq_frx : (s.setFq q f).frx = s.frx := by cases q <;> rfl

@[simp] theorem State.setFq_ftx : (s.setFq q f).ftx = s.ftx := by cases q <;> rfl

@[simp] theorem State.setFq_txlog : (s.setFq q f).txlog = s.txlog := by cases q <;> rfl

@[simp] theorem State.setFq_pending : (s.setFq q f).pending = s.pending := by cases q <;> rfl

@[simp] theorem State.setFq_draws : (s.setFq q f).draws = s.draws := by cases q <;> rfl

@[simp] theorem State.setFq_seen : (s.setFq q f).seen = s.seen := by cases q <;> rfl

@[simp] theorem State.setFq_qr : s.setFq .qr f = { s with qr := f } := rfl

@[simp] theorem State.setFq_qh : s.setFq .qh f = { s with qh := f } := rfl

@[simp] theorem State.setFq_qt : s.setFq .qt f = { s with qt := f } := rfl

@[simp] theorem State.fq_qr : s.fq .qr = s.qr := rfl

@[simp] theorem State.fq_qh : s.fq .qh = s.qh := rfl

@[simp] theorem State.fq_qt : s.fq .qt = s.qt := rfl

/-! ## The queues under updates of the other fields -/

@[simp] theorem State.fq_with_pending (es : List Event) : ({ s with pending := es } : State).fq q = s.fq q := by
  cases q <;> rfl

@[simp] theorem State.fq_with_frx (d : Frx) : ({ s with frx := d } : State).fq q = s.fq q := by cases q <;> rfl

@[simp] theorem State.fq_with_ftx (e : Ftx) : ({ s with ftx := e } : State).fq q = s.fq q := by cases q <;> rfl

@[simp] theorem State.fq_with_seen (v : BitVec 32) : ({ s with seen := v } : State).fq q = s.fq q := by
  cases q <;> rfl

@[simp] theorem State.fq_with_seen_draws (v : BitVec 32) (n : Nat) :
    ({ s with seen := v, draws := n } : State).fq q = s.fq q := by cases q <;> rfl

@[simp] theorem State.fq_emit (b : Byte) : (s.emit b).fq q = s.fq q := by cases q <;> rfl

/-! ## `emit` and `load` -/

@[simp] theorem State.emit_txlog (b : Byte) : (s.emit b).txlog = s.txlog ++ [b] := rfl

@[simp] theorem State.emit_params (b : Byte) : (s.emit b).params = s.params := rfl

@[simp] theorem State.emit_qr (b : Byte) : (s.emit b).qr = s.qr := rfl

@[simp] theorem State.emit_qh (b : Byte) : (s.emit b).qh = s.qh := rfl

@[simp] theorem State.emit_qt (b : Byte) : (s.emit b).qt = s.qt := rfl

@[simp] theorem State.emit_frx (b : Byte) : (s.emit b).frx = s.frx := rfl

@[simp] theorem State.emit_ftx (b : Byte) : (s.emit b).ftx = s.ftx := rfl

@[simp] theorem State.emit_pending (b : Byte) : (s.emit b).pending = s.pending := rfl

@[simp] theorem State.load_nil : s.load [] = s := rfl

@[simp] theorem State.load_pending (prog : List Stmt) :
    (s.load prog).pending = prog.map Stmt.event ++ s.pending := rfl

@[simp] theorem State.load_params (prog : List Stmt) : (s.load prog).params = s.params := rfl

@[simp] theorem State.load_fq (prog : List Stmt) : (s.load prog).fq q = s.fq q := by cases q <;> rfl

/-! ## The parameters of a queue at reset -/

@[simp] theorem Fq.resetTo_mem (S : Nat) (m : Memory) : (Fq.resetTo S m).mem = m := rfl

@[simp] theorem State.fq_resetAll : (resetAll s).fq q = Fq.resetTo (s.params.S q) (s.fq q).mem := by
  cases q <;> rfl

@[simp] theorem State.resetAll_params : (resetAll s).params = s.params := rfl

@[simp] theorem State.resetAll_txlog : (resetAll s).txlog = s.txlog := rfl

@[simp] theorem State.resetAll_pending : (resetAll s).pending = s.pending := rfl

end Sys2Proof.Machine
end

