-- ==== Sys2Proof/Laws/Ops.lean ====
section
/-! SUPPORT. One lemma per shared operation that says everything it can do; proofs cite these instead of unfolding it. -/

namespace Sys2Proof.Machine

/-! ## How a meaning ends -/

theorem ifLegal_eq_next {p : Params} {k : Host.Outcome State Fault Refusal} {t : State} :
    ifLegal p k = .next t ↔ p.legal = true ∧ k = .next t := by
  unfold ifLegal
  split <;> simp_all

theorem finish_eq_next {s t : State} {r : Except Fault State} :
    finish s r = .next t ↔ s.params.legal = true ∧ r = .ok t := by
  unfold finish
  rw [ifLegal_eq_next]
  cases r <;> simp

theorem finish_eq_fault {s : State} {r : Except Fault State} {x : Fault} :
    finish s r = .fault x ↔ s.params.legal = true ∧ r = .error x := by
  unfold finish ifLegal
  split <;> cases r <;> simp_all

theorem finish_ok {s t : State} (h : s.params.legal = true) : finish s (.ok t) = .next t :=
  finish_eq_next.mpr ⟨h, rfl⟩

theorem finishFq_eq_next {s t : State} {q : Queue} {r : Except Fault Fq} :
    finishFq s q r = .next t ↔ s.params.legal = true ∧ ∃ f, r = .ok f ∧ t = s.setFq q f := by
  unfold finishFq
  rw [finish_eq_next]
  cases r with
  | ok f =>
    constructor
    · rintro ⟨h, ⟨⟩⟩
      exact ⟨h, f, rfl, rfl⟩
    · rintro ⟨h, _, ⟨⟩, rfl⟩
      exact ⟨h, rfl⟩
  | error x => simp [Except.map]

theorem finishFq_eq_fault {s : State} {q : Queue} {r : Except Fault Fq} {x : Fault} :
    finishFq s q r = .fault x ↔ s.params.legal = true ∧ r = .error x := by
  unfold finishFq
  rw [finish_eq_fault]
  cases r <;> simp [Except.map]

theorem finishFq_ok {s : State} {q : Queue} {f : Fq} (h : s.params.legal = true) :
    finishFq s q (.ok f) = .next (s.setFq q f) :=
  finishFq_eq_next.mpr ⟨h, f, rfl, rfl⟩

/-! ## Slot memory -/

theorem memWrite_eq_ok {p : Params} {q : Queue} {i j : Nat} {v : Byte} {m m' : Memory} :
    memWrite p q i j v m = .ok m' ↔ i < p.N q ∧ j < p.M ∧ m' = m.write (dataAddr p i j) v := by
  unfold memWrite
  split <;> simp_all [eq_comm]

theorem memWrite_eq_error {p : Params} {q : Queue} {i j : Nat} {v : Byte} {m : Memory} {x : Fault} :
    memWrite p q i j v m = .error x ↔ ¬ (i < p.N q ∧ j < p.M) ∧ x = .outsideSlot := by
  unfold memWrite
  split <;> simp_all [eq_comm]

/-- A write to slot memory keeps the canonical form. -/
theorem memWrite_wf {p : Params} {q : Queue} {i j : Nat} {v : Byte} {m m' : Memory} (h : memWrite p q i j v m = .ok m')
    (hm : m.wf) : m'.wf := by
  obtain ⟨-, -, rfl⟩ := memWrite_eq_ok.mp h
  exact Memory.wf_write _ _ hm

theorem memRead_eq_ok {p : Params} {q : Queue} {i j : Nat} {v : Byte} {m : Memory} :
    memRead p q i j m = .ok v ↔ i < p.N q ∧ j < p.M ∧ m.read (dataAddr p i j) = some v := by
  unfold memRead
  split
  · split <;> simp_all
  · simp_all

theorem lenRead_eq_ok {p : Params} {i : Nat} {v : Byte} {m : Memory} :
    lenRead p i m = .ok v ↔ m.read (lenAddr p i) = some v := by
  unfold lenRead
  split <;> simp_all

/-! ## Producer operations -/

/-- Everything `W_BYTE` can do (40_queue_write.md R151). -/
theorem Fq.wByte_cases {p : Params} {q : Queue} {d : Byte} {f f' : Fq} (h : f.wByte p q d = .ok f') :
    ((f.assembly (p.N q)).discard = true ∧
      f' = { f with w_open := true, w_len := (f.assembly (p.N q)).len, w_discard := true,
                    w_oversize := (f.assembly (p.N q)).oversize })
    ∨ ((f.assembly (p.N q)).discard = false ∧ (f.assembly (p.N q)).len.toNat = p.M ∧
      f' = { f with w_open := true, w_len := (f.assembly (p.N q)).len, w_discard := false, w_oversize := true })
    ∨ ((f.assembly (p.N q)).discard = false ∧ (f.assembly (p.N q)).len.toNat < p.M ∧
      slotidx (p.N q) f.wbin < p.N q ∧
      f' = { f with
        mem := f.mem.write (dataAddr p (slotidx (p.N q) f.wbin) (f.assembly (p.N q)).len.toNat) d
        w_open := true, w_len := (f.assembly (p.N q)).len + 1, w_discard := false,
        w_oversize := (f.assembly (p.N q)).oversize }) := by
  simp only [Fq.wByte] at h
  split at h
  · cases h; exact .inl ⟨‹_›, rfl⟩
  · rename_i hd
    split at h
    · cases h; exact .inr (.inl ⟨by simpa using hd, ‹_›, rfl⟩)
    · split at h
      · rename_i m hm
        obtain ⟨h1, h2, rfl⟩ := memWrite_eq_ok.mp hm
        cases h
        exact .inr (.inr ⟨by simpa using hd, h2, h1, rfl⟩)
      · cases h

/-- `W_BYTE` completes wherever the frame holds at most `M` bytes. -/
theorem Fq.wByte_ok {p : Params} {q : Queue} {d : Byte} {f : Fq} (hN : 0 < p.N q)
    (hl : f.w_len.toNat ≤ p.M) : ∃ f', f.wByte p q d = .ok f' := by
  have ha : (f.assembly (p.N q)).len.toNat ≤ p.M := by
    unfold Fq.assembly
    split
    · exact hl
    · simp [openFrame]
  simp only [Fq.wByte]
  split
  · exact ⟨_, rfl⟩
  · split
    · exact ⟨_, rfl⟩
    · rename_i h
      rw [memWrite, if_pos ⟨Nat.mod_lt _ hN, by omega⟩]
      exact ⟨_, rfl⟩

/-- Everything `W_COMMIT` can do (40_queue_write.md R155). -/
theorem Fq.wCommit_cases (p : Params) (q : Queue) (f : Fq) :
    ((f.assembly (p.N q)).discard = true ∧
      f.wCommit p q = { f.closeFrame with w_drop_cnt := satInc p f.w_drop_cnt, w_result := .full })
    ∨ ((f.assembly (p.N q)).discard = false ∧ (f.assembly (p.N q)).oversize = true ∧
      f.wCommit p q = { f.closeFrame with w_long_cnt := satInc p f.w_long_cnt, w_result := .tooLong })
    ∨ ((f.assembly (p.N q)).discard = false ∧ (f.assembly (p.N q)).oversize = false ∧
      f.wCommit p q = { f.closeFrame with
        mem := f.mem.write (lenAddr p (slotidx (p.N q) f.wbin)) (f.assembly (p.N q)).len
        wbin := ptrSucc (p.N q) f.wbin
        wgray := gray (ptrSucc (p.N q) f.wbin)
        w_result := .ok }) := by
  simp only [Fq.wCommit]
  split
  · exact .inl ⟨‹_›, rfl⟩
  · rename_i hd
    split
    · exact .inr (.inl ⟨by simpa using hd, ‹_›, rfl⟩)
    · rename_i ho
      exact .inr (.inr ⟨by simpa using hd, by simpa using ho, rfl⟩)

/-- Every producer operation keeps the slot memory in canonical form. -/
theorem Fq.wByte_wf {p : Params} {q : Queue} {d : Byte} {f f' : Fq} (h : f.wByte p q d = .ok f') (hm : f.mem.wf) :
    f'.mem.wf := by
  obtain ⟨-, rfl⟩ | ⟨-, -, rfl⟩ | ⟨-, -, -, rfl⟩ := Fq.wByte_cases h
  · exact hm
  · exact hm
  · exact Memory.wf_write _ _ hm

theorem Fq.wCommit_wf (p : Params) (q : Queue) (f : Fq) (hm : f.mem.wf) : (f.wCommit p q).mem.wf := by
  obtain ⟨-, h⟩ | ⟨-, -, h⟩ | ⟨-, -, h⟩ := Fq.wCommit_cases p q f <;> rw [h]
  · exact hm
  · exact hm
  · exact Memory.wf_write _ _ hm

/-! ## Consumer operations -/

/-- Everything `R_READ` can do (41_queue_read.md R181): it writes `r_rdata` with the byte `readByte` gives. -/
theorem Fq.rRead_cases {p : Params} {q : Queue} {idx : Byte} {f f' : Fq} (h : f.rRead p q idx = .ok f') :
    ∃ v, f.readByte p q idx = .ok v ∧ f' = { f with r_rdata := v } := by
  simp only [Fq.rRead] at h
  split at h
  · rename_i v hv
    cases h
    exact ⟨v, hv, rfl⟩
  · cases h

/-- Everything `R_POP` can do (41_queue_read.md R183). -/
theorem Fq.rPop_cases (N : Nat) (f : Fq) :
    (f.r_empty = true ∧ f.rPop N = { f with r_result := .empty })
    ∨ (f.r_empty = false ∧
      f.rPop N = { f with rbin := ptrSucc N f.rbin, rgray := gray (ptrSucc N f.rbin), r_result := .ok }) := by
  simp only [Fq.rPop]
  split
  · exact .inl ⟨‹_›, rfl⟩
  · rename_i h
    exact .inr ⟨by simpa using h, rfl⟩

/-! ## The framer -/

/-- Everything one FRX step can do (43_framer_rx.md R220). -/
theorem frxStep_eq_next {b : Byte} {s t : State} :
    frxStep b s = .next t ↔ s.params.legal = true ∧
      ∃ f, (s.frx.byte s.params b).2.run s.params s.qh = .ok f ∧
        t = { s with frx := (s.frx.byte s.params b).1, qh := f } := by
  unfold frxStep
  rw [finish_eq_next]
  cases (s.frx.byte s.params b).2.run s.params s.qh with
  | ok f =>
    constructor
    · rintro ⟨h, ⟨⟩⟩
      exact ⟨h, f, rfl, rfl⟩
    · rintro ⟨h, _, ⟨⟩, rfl⟩
      exact ⟨h, rfl⟩
  | error x => simp [Except.map]

/-- What the operation FRX issues does to `QH` (43_framer_rx.md R220). -/
theorem FrxOp.run_cases {p : Params} {f f' : Fq} {op : FrxOp} (h : op.run p f = .ok f') :
    (op = .nop ∧ f' = f) ∨ (∃ v, op = .byte v ∧ f.wByte p .qh v = .ok f')
      ∨ (op = .commit ∧ f' = f.wCommit p .qh) ∨ (op = .abort ∧ f' = f.wAbort) := by
  cases op with
  | nop => cases h; exact .inl ⟨rfl, rfl⟩
  | byte v => exact .inr (.inl ⟨v, rfl, h⟩)
  | commit => cases h; exact .inr (.inr (.inl ⟨rfl, rfl⟩))
  | abort => cases h; exact .inr (.inr (.inr ⟨rfl, rfl⟩))

/-! ## The step -/

/-- Everything a step that answers a next state did. -/
theorem step_cases {s t : State} (h : step s = .next t) :
    s.params.legal = true ∧
      ((s.pending = [] ∧ t = s)
      ∨ ∃ e rest, s.pending = e :: rest ∧ runEvent e { s with pending := rest } = .next t) := by
  unfold step at h
  split at h
  · refine ⟨‹_›, ?_⟩
    split at h
    · cases h; exact .inl ⟨‹_›, rfl⟩
    · exact .inr ⟨_, _, ‹_›, h⟩
  · cases h

/-- What an event that answers a next state did. -/
theorem runEvent_cases {e : Event} {s t : State} (h : runEvent e s = .next t) :
    (∃ a port raw i, e = .command a port raw ∧ mayPresent a port = true ∧ decode s.params port raw = .ok i ∧
        exec i s = .next t)
    ∨ (e = .ftx ∧ ftxStep s = .ok t)
    ∨ (∃ q, e = .syncW2R q ∧ t = syncW2R q s)
    ∨ (∃ q, e = .syncR2W q ∧ t = syncR2W q s)
    ∨ (e = .reset ∧ t = resetAll s)
    ∨ (∃ d o, e = .sample d o ∧ sample d o s = .ok t) := by
  cases e with
  | command a port raw =>
    simp only [runEvent, present] at h
    split at h
    · split at h
      · exact .inl ⟨a, port, raw, _, rfl, ‹_›, ‹_›, h⟩
      · cases h
    · cases h
  | ftx =>
    simp only [runEvent] at h
    exact .inr (.inl ⟨rfl, (finish_eq_next.mp h).2⟩)
  | syncW2R q =>
    simp only [runEvent] at h
    obtain ⟨-, h⟩ := finish_eq_next.mp h
    cases h
    exact .inr (.inr (.inl ⟨q, rfl, rfl⟩))
  | syncR2W q =>
    simp only [runEvent] at h
    obtain ⟨-, h⟩ := finish_eq_next.mp h
    cases h
    exact .inr (.inr (.inr (.inl ⟨q, rfl, rfl⟩)))
  | reset =>
    simp only [runEvent] at h
    obtain ⟨-, h⟩ := finish_eq_next.mp h
    cases h
    exact .inr (.inr (.inr (.inr (.inl ⟨rfl, rfl⟩))))
  | partialReset d => cases h
  | sample d o =>
    simp only [runEvent] at h
    exact .inr (.inr (.inr (.inr (.inr ⟨d, o, rfl, (finish_eq_next.mp h).2⟩))))

end Sys2Proof.Machine
end

