-- ==== Sys2Proof/Laws/Fairness.lean ====
section
/-! SUPPORT. Infinite runs: no event reads `pending`, so an infinite run is what `step` does on its finite beginnings; the
synchronisers are enabled in every state; and every state starts a fair run. -/

namespace Sys2Proof.Machine

/-- The outcome with `pending` replaced in the next state. -/
def withPending (l : List Event) : Host.Outcome State Fault Refusal → Host.Outcome State Fault Refusal
  | .next t => .next { t with pending := l }
  | .fault x => .fault x
  | .refused r => .refused r

variable {s t : State} {l : List Event}

theorem finish_withPending {r r' : Except Fault State} (h : r' = r.map (fun t => { t with pending := l })) :
    finish { s with pending := l } r' = withPending l (finish s r) := by
  subst h
  unfold finish ifLegal
  cases r <;> simp only [Except.map] <;> split <;> rfl

theorem finishFq_withPending {q : Queue} {r : Except Fault Fq} :
    finishFq { s with pending := l } q r = withPending l (finishFq s q r) := by
  unfold finishFq
  apply finish_withPending
  cases r <;> cases q <;> rfl

theorem frxStep_withPending {b : Byte} : frxStep b { s with pending := l } = withPending l (frxStep b s) := by
  unfold frxStep
  apply finish_withPending
  simp only
  cases FrxOp.run s.params s.qh (Frx.byte s.params b s.frx).2 <;> rfl

/-- No instruction reads or writes `pending`. -/
theorem exec_withPending (i : Instr) : exec i { s with pending := l } = withPending l (exec i s) := by
  cases i <;>
    simp only [exec, execWNop, execWByte, execWCommit, execWAbort, execWClrcnt, execWRsv5, execWRsv67, execRNop, execRRead,
      execRPop, execRClrerr, execRRsv, execWireFlag, execWireEsc, execWireTFlag, execWireTEsc, execWireData,
      State.fq_with_pending] <;>
    first
    | exact finishFq_withPending
    | exact frxStep_withPending

theorem ftxStep_withPending :
    ftxStep { s with pending := l } = (ftxStep s).map (fun t => { t with pending := l }) := by
  unfold ftxStep
  simp only
  split
  · rfl
  · split
    · simp only [ftxIdle]
      split
      · rfl
      · cases Fq.r_len s.params .qt s.qt <;> rfl
    · rfl
    · simp only [ftxData]
      cases Fq.rRead s.params .qt s.ftx.e_idx s.qt <;> rfl
    · rfl

theorem sample_withPending {d : Domain} {o : Output} :
    sample d o { s with pending := l } = (sample d o s).map (fun t => { t with pending := l }) := by
  have h : o.value { s with pending := l } = o.value s := by
    cases o with
    | dStatus => rfl
    | dErrCnt => rfl
    | dOkCnt => rfl
    | eStatus => rfl
    | eOkCnt => rfl
    | _ q => cases q <;> rfl
  simp only [sample, h]
  split
  · cases o.value s <;> rfl
  · rfl

/-- No event reads or writes `pending`. -/
theorem runEvent_withPending (e : Event) : runEvent e { s with pending := l } = withPending l (runEvent e s) := by
  cases e with
  | command a port raw =>
    simp only [runEvent, present]
    split
    · split
      · exact exec_withPending _
      · rfl
    · rfl
  | partialReset d => rfl
  | ftx =>
    simp only [runEvent]
    exact finish_withPending ftxStep_withPending
  | syncW2R q =>
    simp only [runEvent]
    exact finish_withPending (by cases q <;> rfl)
  | syncR2W q =>
    simp only [runEvent]
    exact finish_withPending (by cases q <;> rfl)
  | reset =>
    simp only [runEvent]
    exact finish_withPending rfl
  | sample d o =>
    simp only [runEvent]
    exact finish_withPending sample_withPending

/-- An event performed is the step of any interleaving in which it comes next. -/
theorem step_of_perform {e : Event} (h : s.perform e = .next t) (rest : List Event) :
    step { s with pending := e :: rest } = .next { t with pending := rest } := by
  have hp : s.params.legal = true := (step_cases h).1
  have h' : runEvent e { s with pending := [] } = .next t := by simpa [State.perform, step, hp] using h
  have := runEvent_withPending (s := { s with pending := [] }) (l := rest) e
  rw [h'] at this
  simpa [step, hp, withPending] using this

/-- The first `n` states of an infinite run are the steps of its first `n` events. -/
theorem run_of_isRun {sched : Schedule} {σ : Nat → State} (h : IsRun sched σ) (n k : Nat) (rest : List Event) :
    Host.Core.run Sys2Proof.core n { σ k with pending := (List.range' k n).map sched ++ rest }
      = .next { σ (k + n) with pending := rest } := by
  induction n generalizing k with
  | zero => rfl
  | succ n ih =>
    have hs := step_of_perform (h k) ((List.range' (k + 1) n).map sched ++ rest)
    simp only [Host.Core.run, List.range'_succ, List.map_cons, List.cons_append, Sys2Proof.core]
    rw [hs]
    simpa [Nat.add_assoc, Nat.add_comm 1 n, Sys2Proof.core] using ih (k + 1)

/-! ## The synchronisers are always enabled (42_sync.md R201, R202) -/

theorem perform_syncW2R (h : s.params.legal = true) (q : Queue) :
    s.perform (.syncW2R q) = .next (syncW2R q { s with pending := [] }) := by
  simp only [State.perform, step, h, if_true, runEvent]
  exact finish_ok h

theorem perform_syncR2W (h : s.params.legal = true) (q : Queue) :
    s.perform (.syncR2W q) = .next (syncR2W q { s with pending := [] }) := by
  simp only [State.perform, step, h, if_true, runEvent]
  exact finish_ok h

/-- A run is a run of one legal configuration. -/
theorem IsRun.legal {sched : Schedule} {σ : Nat → State} (h : IsRun sched σ) (n : Nat) : (σ n).params.legal = true :=
  (step_cases (h n)).1

/-- In a fair run every synchroniser steps again and again. -/
theorem FairRun.syncs {sched : Schedule} {σ : Nat → State} (h : FairRun sched σ) (q : Queue) (n : Nat) :
    (∃ m, n ≤ m ∧ sched m = .syncW2R q) ∧ (∃ m, n ≤ m ∧ sched m = .syncR2W q) :=
  ⟨h.fairW2R q n (fun m _ => ⟨_, perform_syncW2R (h.run.legal m) q⟩),
    h.fairR2W q n (fun m _ => ⟨_, perform_syncR2W (h.run.legal m) q⟩)⟩

/-! ## Every legal state starts a fair run -/

/-- The six synchronisers in turn. -/
def roundRobin (n : Nat) : Event :=
  match n % 6 with
  | 0 => .syncW2R .qr
  | 1 => .syncR2W .qr
  | 2 => .syncW2R .qh
  | 3 => .syncR2W .qh
  | 4 => .syncW2R .qt
  | _ => .syncR2W .qt

theorem roundRobin_ne_reset (n : Nat) : roundRobin n ≠ .reset := by
  unfold roundRobin
  split <;> nofun

/-- The run of `roundRobin` from `s`. -/
def roundRobinRun (s : State) : Nat → State
  | 0 => s
  | n + 1 =>
    match (roundRobinRun s n).perform (roundRobin n) with
    | .next t => t
    | .fault _ => roundRobinRun s n
    | .refused _ => roundRobinRun s n

theorem roundRobin_enabled (h : s.params.legal = true) (n : Nat) :
    ∃ t, s.perform (roundRobin n) = .next t ∧ t.params = s.params := by
  unfold roundRobin
  split
  all_goals
    first
    | exact ⟨_, perform_syncW2R h _, rfl⟩
    | exact ⟨_, perform_syncR2W h _, rfl⟩

theorem roundRobinRun_legal (h : s.params.legal = true) (n : Nat) : (roundRobinRun s n).params.legal = true := by
  induction n with
  | zero => exact h
  | succ n ih =>
    obtain ⟨t, ht, hp⟩ := roundRobin_enabled ih n
    simp only [roundRobinRun, ht, hp, ih]

/-- So the premise `FairRun` is met from every state of every legal configuration. -/
theorem fairRun_roundRobin (h : s.params.legal = true) : FairRun roundRobin (roundRobinRun s) where
  run n := by
    obtain ⟨t, ht, -⟩ := roundRobin_enabled (roundRobinRun_legal h n) n
    simp only [roundRobinRun, ht]
  fairW2R q n _ := by
    cases q
    · exact ⟨6 * n, by omega, by simp [roundRobin]⟩
    · exact ⟨6 * n + 2, by omega, by simp [roundRobin, Nat.add_mod]⟩
    · exact ⟨6 * n + 4, by omega, by simp [roundRobin, Nat.add_mod]⟩
  fairR2W q n _ := by
    cases q
    · exact ⟨6 * n + 1, by omega, by simp [roundRobin, Nat.add_mod]⟩
    · exact ⟨6 * n + 3, by omega, by simp [roundRobin, Nat.add_mod]⟩
    · exact ⟨6 * n + 5, by omega, by simp [roundRobin, Nat.add_mod]⟩

end Sys2Proof.Machine
end

