-- ==== Sys2Proof/Laws/PerInstr.lean ====
section
/-! SUPPORT. What holds of every instruction as syntax, one lemma per constructor. Carried: the encoder answers the port of
the instruction and a value that fits the form that port carries (spec/30_encoding.md R110). -/

namespace Sys2Proof.Laws

/-- A command word has eleven bits. -/
theorem commandWord_lt (op : BitVec 3) (d : Byte) : commandWord op d < 2 ^ 11 := by
  have h1 : op.toNat <<< 8 < 2 ^ 11 := by
    rw [Nat.shiftLeft_eq]
    have := op.isLt
    omega
  have h2 : d.toNat < 2 ^ 11 := Nat.lt_trans d.isLt (by decide)
  exact Nat.or_lt_two_pow h1 h2

namespace Carried

/-- The encoder answers the instruction's own port, and a value no wider than the port's form. -/
def Statement (i : Instr) : Prop := ∀ p : Params, (encode p i).1 = i.port ∧ (encode p i).2 < 2 ^ i.port.width

theorem wNop (q : Queue) (d : Byte) : Statement (.wNop q d) := fun _ => ⟨rfl, commandWord_lt _ d⟩
theorem wByte (q : Queue) (d : Byte) : Statement (.wByte q d) := fun _ => ⟨rfl, commandWord_lt _ d⟩
theorem wCommit (q : Queue) (d : Byte) : Statement (.wCommit q d) := fun _ => ⟨rfl, commandWord_lt _ d⟩
theorem wAbort (q : Queue) (d : Byte) : Statement (.wAbort q d) := fun _ => ⟨rfl, commandWord_lt _ d⟩
theorem wClrcnt (q : Queue) (d : Byte) : Statement (.wClrcnt q d) := fun _ => ⟨rfl, commandWord_lt _ d⟩
theorem wRsv5 (q : Queue) (d : Byte) : Statement (.wRsv5 q d) := fun _ => ⟨rfl, commandWord_lt _ d⟩
theorem wRsv67 (q : Queue) (x : BitVec 1) (d : Byte) : Statement (.wRsv67 q x d) := fun _ => ⟨rfl, commandWord_lt _ d⟩
theorem rNop (q : Queue) (i : Byte) : Statement (.rNop q i) := fun _ => ⟨rfl, commandWord_lt _ i⟩
theorem rRead (q : Queue) (i : Byte) : Statement (.rRead q i) := fun _ => ⟨rfl, commandWord_lt _ i⟩
theorem rPop (q : Queue) (i : Byte) : Statement (.rPop q i) := fun _ => ⟨rfl, commandWord_lt _ i⟩
theorem rClrerr (q : Queue) (i : Byte) : Statement (.rClrerr q i) := fun _ => ⟨rfl, commandWord_lt _ i⟩
theorem rRsv (q : Queue) (xx : BitVec 2) (i : Byte) : Statement (.rRsv q xx i) := fun _ => ⟨rfl, commandWord_lt _ i⟩
theorem wireFlag : Statement .wireFlag := fun p => ⟨rfl, p.FLAG.isLt⟩
theorem wireEsc : Statement .wireEsc := fun p => ⟨rfl, p.ESC.isLt⟩
theorem wireTFlag : Statement .wireTFlag := fun p => ⟨rfl, p.T_FLAG.isLt⟩
theorem wireTEsc : Statement .wireTEsc := fun p => ⟨rfl, p.T_ESC.isLt⟩
theorem wireData (b : Byte) : Statement (.wireData b) := fun _ => ⟨rfl, b.isLt⟩

end Carried

end Sys2Proof.Laws
end

