-- ==== Sys2Proof/Laws/Pointers.lean ====
section
/-! SUPPORT. Legal parameters, and pointer arithmetic modulo `2N` (spec/00_scope.md R6, R7, R11, R13). -/

namespace Sys2Proof

/-- The capacities a legal configuration can have. -/
theorem FqParams.legal_iff (c : FqParams) : c.legal = true ↔
    (c.N = 2 ∨ c.N = 4 ∨ c.N = 8 ∨ c.N = 16 ∨ c.N = 32 ∨ c.N = 64 ∨ c.N = 128) ∧ 2 ≤ c.S := by
  simp [FqParams.legal]

namespace Params

variable {p : Params}

theorem legal_iff : p.legal = true ↔
    p.qr.legal = true ∧ p.qh.legal = true ∧ p.qt.legal = true ∧ 1 ≤ p.M ∧ p.M ≤ 255 ∧ 1 ≤ p.CNT_W ∧ p.CNT_W ≤ 32
      ∧ [p.FLAG, p.ESC, p.T_FLAG, p.T_ESC].Nodup := by
  simp only [legal, Bool.and_eq_true, decide_eq_true_eq, and_assoc]

theorem legal_fq (h : p.legal = true) (q : Queue) : (p.fq q).legal = true := by
  obtain ⟨h1, h2, h3, -⟩ := legal_iff.mp h
  cases q <;> assumption

theorem legal_N (h : p.legal = true) (q : Queue) :
    p.N q = 2 ∨ p.N q = 4 ∨ p.N q = 8 ∨ p.N q = 16 ∨ p.N q = 32 ∨ p.N q = 64 ∨ p.N q = 128 :=
  ((FqParams.legal_iff _).mp (legal_fq h q)).1

theorem legal_S (h : p.legal = true) (q : Queue) : 2 ≤ p.S q := ((FqParams.legal_iff _).mp (legal_fq h q)).2

theorem legal_M (h : p.legal = true) : 1 ≤ p.M ∧ p.M ≤ 255 := by
  obtain ⟨-, -, -, h1, h2, -⟩ := legal_iff.mp h
  exact ⟨h1, h2⟩

/-- The four framing bytes are distinct. -/
theorem legal_bytes (h : p.legal = true) :
    p.FLAG ≠ p.ESC ∧ p.FLAG ≠ p.T_FLAG ∧ p.FLAG ≠ p.T_ESC ∧ p.ESC ≠ p.T_FLAG ∧ p.ESC ≠ p.T_ESC
      ∧ p.T_FLAG ≠ p.T_ESC := by
  obtain ⟨-, -, -, -, -, -, -, hn⟩ := legal_iff.mp h
  simp only [List.nodup_cons, List.mem_cons, List.not_mem_nil, or_false, not_or] at hn
  tauto

theorem framingByte_eq_false {b : Byte} :
    p.framingByte b = false ↔ b ≠ p.FLAG ∧ b ≠ p.ESC ∧ b ≠ p.T_FLAG ∧ b ≠ p.T_ESC := by
  simp [framingByte, and_assoc]

end Params

namespace Machine

variable {N : Nat}

/-- `2N` divides 256 for every legal capacity, and is at least 4. -/
theorem two_mul_dvd (h : N = 2 ∨ N = 4 ∨ N = 8 ∨ N = 16 ∨ N = 32 ∨ N = 64 ∨ N = 128) :
    2 * N ∣ 256 ∧ 2 ≤ N ∧ N ≤ 128 := by
  rcases h with rfl | rfl | rfl | rfl | rfl | rfl | rfl <;> decide

theorem slotidx_lt (h : 0 < N) (b : Ptr) : slotidx N b < N := Nat.mod_lt _ h

theorem ptrSucc_toNat (h : 2 ≤ N ∧ N ≤ 128) (b : Ptr) : (ptrSucc N b).toNat = (b.toNat + 1) % (2 * N) := by
  have : (b.toNat + 1) % (2 * N) < 2 * N := Nat.mod_lt _ (by omega)
  simp only [ptrSucc, BitVec.toNat_ofNat]
  exact Nat.mod_eq_of_lt (by omega)

theorem ptrSucc_lt (h : 2 ≤ N ∧ N ≤ 128) (b : Ptr) : (ptrSucc N b).toNat < 2 * N := by
  rw [ptrSucc_toNat h]
  exact Nat.mod_lt _ (by omega)

/-- Pointer differences as natural numbers. -/
theorem ptrDiff_toNat (h : 2 * N ∣ 256 ∧ 2 ≤ N ∧ N ≤ 128) (a b : Ptr) :
    (ptrDiff N a b).toNat = (a.toNat + (256 - b.toNat)) % (2 * N) := by
  obtain ⟨hd, h1, h2⟩ := h
  have hlt : (a - b).toNat % (2 * N) < 2 * N := Nat.mod_lt _ (by omega)
  have hb := b.isLt
  rw [ptrDiff, BitVec.toNat_ofNat, Nat.mod_eq_of_lt (by omega), BitVec.toNat_sub]
  rw [Nat.mod_mod_of_dvd _ (by simpa using hd)]
  congr 1
  omega

theorem ptrDiff_lt (h : 2 * N ∣ 256 ∧ 2 ≤ N ∧ N ≤ 128) (a b : Ptr) : (ptrDiff N a b).toNat < 2 * N := by
  rw [ptrDiff_toNat h]
  exact Nat.mod_lt _ (by omega)

/-- Pointer differences of pointers below `2N`, without the eight bits. -/
theorem ptrDiff_toNat_of_lt (h : 2 * N ∣ 256 ∧ 2 ≤ N ∧ N ≤ 128) {a b : Ptr} (hb : b.toNat < 2 * N) :
    (ptrDiff N a b).toNat = (a.toNat + (2 * N - b.toNat)) % (2 * N) := by
  rw [ptrDiff_toNat h]
  obtain ⟨⟨k, hk⟩, h1, h2⟩ := h
  have hk1 : 1 ≤ k := by
    rcases Nat.eq_zero_or_pos k with rfl | hk'
    · simp at hk
    · exact hk'
  have : a.toNat + (256 - b.toNat) = a.toNat + (2 * N - b.toNat) + 2 * N * (k - 1) := by
    have : 2 * N * k = 2 * N * (k - 1) + 2 * N := by
      obtain ⟨k', rfl⟩ : ∃ k', k = k' + 1 := ⟨k - 1, by omega⟩
      simp [Nat.mul_succ]
    omega
  rw [this, Nat.add_mul_mod_self_left]

/-- `gray2bin` undoes `gray` on eight bits, so on every pointer width. -/
theorem gray2bin_gray : ∀ b : Ptr, gray2bin (gray b) = b := by decide

theorem gray_injective : Function.Injective gray := fun a b h => by
  rw [← gray2bin_gray a, ← gray2bin_gray b, h]

/-! ## Synchroniser chains -/

theorem shiftIn_length {src : Ptr} {chain : List Ptr} (h : 1 ≤ chain.length) :
    (shiftIn src chain).length = chain.length := by
  simp only [shiftIn, List.length_cons, List.length_dropLast]
  omega

theorem mem_shiftIn {src g : Ptr} {chain : List Ptr} (h : g ∈ shiftIn src chain) : g = src ∨ g ∈ chain := by
  rcases List.mem_cons.mp h with h | h
  · exact .inl h
  · exact .inr (List.mem_of_mem_dropLast h)

theorem lastStage_mem {chain : List Ptr} (h : 1 ≤ chain.length) : lastStage chain ∈ chain := by
  cases chain with
  | nil => simp at h
  | cons g gs =>
    rw [lastStage, List.getLastD_eq_getLast?, List.getLast?_eq_getLast_of_ne_nil (List.cons_ne_nil g gs)]
    exact List.getLast_mem _

end Machine

end Sys2Proof
end

