-- ==== Sys2Proof/Tests/Slice0.lean ====
section
/-! SUPPORT. Tests, their expected results taken from spec/95_test_vectors.md and the rules of spec/; the smoke test of the
well-formedness checks; and for every obligation with hypotheses a state and operands that meet them, clause by clause. -/

namespace Sys2Proof.Tests

open Sys2Proof.Machine

/-! ## Well-formedness: each check refuses an ill-formed term -/

theorem test_wf_data : (Instr.wireData 0x41).wf Params.default = true := by decide
theorem test_wf_data_flag : (Instr.wireData 0x7E).wf Params.default = false := by decide
theorem test_wf_data_esc : (Instr.wireData 0x7D).wf Params.default = false := by decide
theorem test_wf_data_t_flag : (Instr.wireData 0x5E).wf Params.default = false := by decide
theorem test_wf_data_t_esc : (Instr.wireData 0x5D).wf Params.default = false := by decide

/-- The SLIP values are another legal configuration (00_scope.md R8), in which 0x7E is plain data. -/
theorem test_wf_slip : Params.slip.legal = true ∧ (Instr.wireData 0x7E).wf Params.slip = true
    ∧ (Instr.wireData 0xC0).wf Params.slip = false := by decide

theorem test_legal_default : Params.default.legal = true := by decide
theorem test_illegal_N_3 : ({ Params.default with qr := ⟨3, 2⟩ } : Params).legal = false := by decide
theorem test_illegal_N_1 : ({ Params.default with qh := ⟨1, 2⟩ } : Params).legal = false := by decide
theorem test_illegal_N_256 : ({ Params.default with qt := ⟨256, 2⟩ } : Params).legal = false := by decide
theorem test_illegal_S_1 : ({ Params.default with qr := ⟨4, 1⟩ } : Params).legal = false := by decide
theorem test_illegal_M_0 : ({ Params.default with M := 0 } : Params).legal = false := by decide
theorem test_illegal_M_256 : ({ Params.default with M := 256 } : Params).legal = false := by decide
theorem test_illegal_CNT_W_0 : ({ Params.default with CNT_W := 0 } : Params).legal = false := by decide
theorem test_illegal_CNT_W_33 : ({ Params.default with CNT_W := 33 } : Params).legal = false := by decide
theorem test_illegal_bytes : ({ Params.default with T_ESC := 0x7E } : Params).legal = false := by decide

/-! ## Decoding: words written out from 30_encoding.md R111 to R114 and R119 -/

theorem test_decode_wNop : decode Params.default (.w .qr) 0b000_00000000 = .ok (.wNop .qr 0) := by decide
/-- 30_encoding.md R111: `W_BYTE 0x41` is `0x141`. -/
theorem test_decode_wByte : decode Params.default (.w .qr) 0b001_01000001 = .ok (.wByte .qr 0x41) := by decide
theorem test_decode_wCommit : decode Params.default (.w .qh) 0b010_00000000 = .ok (.wCommit .qh 0) := by decide
theorem test_decode_wAbort : decode Params.default (.w .qt) 0b011_00000000 = .ok (.wAbort .qt 0) := by decide
theorem test_decode_wClrcnt : decode Params.default (.w .qr) 0b100_00000000 = .ok (.wClrcnt .qr 0) := by decide
theorem test_decode_wRsv5 : decode Params.default (.w .qr) 0b101_11111111 = .ok (.wRsv5 .qr 0xFF) := by decide
theorem test_decode_wRsv67 : decode Params.default (.w .qr) 0b110_00000001 = .ok (.wRsv67 .qr 0 1)
    ∧ decode Params.default (.w .qr) 0b111_10000000 = .ok (.wRsv67 .qr 1 0x80) := by decide
theorem test_decode_rNop : decode Params.default (.r .qr) 0b000_00000000 = .ok (.rNop .qr 0) := by decide
/-- 30_encoding.md R113: `R_READ 3` is `0x103`. -/
theorem test_decode_rRead : decode Params.default (.r .qh) 0b001_00000011 = .ok (.rRead .qh 3) := by decide
theorem test_decode_rPop : decode Params.default (.r .qt) 0b010_00000000 = .ok (.rPop .qt 0) := by decide
theorem test_decode_rClrerr : decode Params.default (.r .qr) 0b011_00000000 = .ok (.rClrerr .qr 0) := by decide
theorem test_decode_rRsv : decode Params.default (.r .qr) 0b100_00000000 = .ok (.rRsv .qr 0 0)
    ∧ decode Params.default (.r .qr) 0b111_00000010 = .ok (.rRsv .qr 3 2) := by decide
theorem test_decode_wireFlag : decode Params.default .rx 0b01111110 = .ok .wireFlag := by decide
theorem test_decode_wireEsc : decode Params.default .rx 0b01111101 = .ok .wireEsc := by decide
theorem test_decode_wireTFlag : decode Params.default .rx 0b01011110 = .ok .wireTFlag := by decide
theorem test_decode_wireTEsc : decode Params.default .rx 0b01011101 = .ok .wireTEsc := by decide
theorem test_decode_wireData : decode Params.default .rx 0b01000001 = .ok (.wireData 0x41) := by decide
/-- The SLIP `FLAG` is 0xC0 (00_scope.md R8). -/
theorem test_decode_slip : decode Params.slip .rx 0xC0 = .ok .wireFlag
    ∧ decode Params.slip .rx 0x7E = .ok (.wireData 0x7E) := by decide
theorem test_decode_too_wide : decode Params.default (.w .qr) 0x800 = .error .widerThan11
    ∧ decode Params.default (.r .qr) 0x800 = .error .widerThan11
    ∧ decode Params.default .rx 0x100 = .error .widerThan8 := by decide
theorem test_decode_table_word : decodeTableWord 16 0x141 = some (.wByte .qr 0x41)
    ∧ decodeTableWord 8 0x7E = some .wireFlag ∧ decodeTableWord 16 0x800 = none := by decide

/-! ## Gray code (V-G) -/

theorem test_gray2bin : gray2bin 0b110 = 4 ∧ gray2bin 0b101 = 6 ∧ gray2bin 0b100 = 7 := by decide
theorem test_fullMask : fullMask 4 = 0b110 ∧ fullMask 2 = 0b11 := by decide

/-! ## Small states -/

/-- The outcome is a next state that passes `P`. -/
def answers (o : Host.Outcome State Fault Refusal) (P : State → Bool) : Bool :=
  match o with
  | .next t => P t
  | .fault _ => false
  | .refused _ => false

/-- The reset state with `f` as queue `q`. -/
def withQ (q : Queue) (f : Fq) : State := State.reset.setFq q f

/-- A queue right after reset. -/
def emptyQ : Fq := Fq.resetTo 2 []

/-- V-W1: one byte of a frame stored. -/
def openQ : Fq := { emptyQ with w_open := true, w_len := 1, mem := [(1, 0x41)] }

/-- V-R3: the frame `41 42` committed, the read domain up to date. -/
def headQ : Fq :=
  { emptyQ with wbin := 1, wgray := 1, w_result := .ok, wsync := [1, 1], mem := [(0, 2), (1, 0x41), (2, 0x42)] }

/-- V-W6a: four frames of one byte, no synchroniser step yet. -/
def fullQ : Fq :=
  { emptyQ with
    wbin := 4, wgray := 0b110, w_result := .ok
    mem := [(0, 1), (1, 1), (128, 1), (129, 2), (256, 1), (257, 3), (384, 1), (385, 4)] }

/-- V-W6b: a frame that opened while the queue was full. -/
def discardQ : Fq := { fullQ with w_open := true, w_discard := true }

/-- FRX between a length header and the first payload byte. -/
def bodyRx (len : Byte) : Frx := { Frx.reset with d_state := .body, d_len := len }

/-- FRX in BODY_ESC at the start of a frame of `len` bytes. -/
def escRx (len : Byte) : Frx := { bodyRx len with d_state := .bodyEsc }

/-- The reset state with FRX's registers replaced. -/
def withRx (d : Frx) : State := { State.reset with frx := d }

/-- V-T1: FTX at `e` with the frame `41 7E` at the head of `QT`. -/
def withTx (e : Ftx) : State :=
  { State.reset with
    ftx := e
    qt := { headQ with mem := [(0, 2), (1, 0x41), (2, 0x7E)] } }

/-- FTX sending a frame of two bytes. -/
def sendingTx (st : EState) (idx : Byte) : Ftx := { Ftx.reset with e_state := st, e_len := 2, e_idx := idx }

/-- The next step is `e`. -/
def soon (e : Event) (s : State) : State := { s with pending := [e] }

/-- Another legal configuration: the smallest queues, counters and frames, and no length header. -/
def tiny : Params :=
  { Params.default with qr := ⟨2, 2⟩, qh := ⟨2, 3⟩, qt := ⟨128, 2⟩, M := 1, CNT_W := 1, LEN_FIELD := false }

/-! ## One step of each instruction (95_test_vectors.md) -/

/-- V-W13. -/
theorem test_wNop : answers (exec (.wNop .qr 0) (withQ .qr openQ)) (fun t => t == withQ .qr openQ) = true := by decide
/-- V-W1. -/
theorem test_wByte : answers (exec (.wByte .qr 0x41) State.reset) (fun t =>
    t.qr == openQ && t.qr.W_STATUS 4 == 0x0002) = true := by decide
/-- V-W6b. -/
theorem test_wByte_full : answers (exec (.wByte .qr 0x99) (withQ .qr fullQ)) (fun t =>
    t.qr.W_STATUS 4 == 0x0417 && t.qr.mem == fullQ.mem && t.qr.w_len == 0) = true := by decide
/-- V-W2. -/
theorem test_wCommit : answers (exec (.wCommit .qr 0) (withQ .qr openQ)) (fun t =>
    t.qr.mem == [(0, 1), (1, 0x41)] && t.qr.wbin == 1 && t.qr.wgray == 0b001 && t.qr.W_STATUS 4 == 0x0110) = true := by
  decide
/-- V-W6c. -/
theorem test_wCommit_full : answers (exec (.wCommit .qr 0) (withQ .qr discardQ)) (fun t =>
    t.qr.w_drop_cnt == 1 && t.qr.wbin == 4 && t.qr.W_STATUS 4 == 0x0421) = true := by decide
/-- V-W4. -/
theorem test_wAbort : answers (exec (.wAbort .qr 0) (withQ .qr openQ)) (fun t =>
    t.qr.W_STATUS 4 == 0x0000 && t.qr.wbin == 0 && t.qr.w_drop_cnt == 0) = true := by decide
/-- V-W9. -/
theorem test_wClrcnt : answers (exec (.wClrcnt .qr 0)
    (withQ .qr { fullQ with w_result := .full, w_drop_cnt := 1, w_operr := true })) (fun t =>
    t.qr.w_drop_cnt == 0 && t.qr.W_STATUS 4 == 0x0421) = true := by decide
/-- V-W10. -/
theorem test_wRsv5 : answers (exec (.wRsv5 .qr 0) State.reset) (fun t =>
    t.qr.W_STATUS 4 == 0x0040 && t.qr.wbin == 0) = true := by decide
/-- V-W11. -/
theorem test_wRsv67 : answers (exec (.wRsv67 .qr 1 0) (withQ .qr openQ)) (fun t =>
    t.qr.W_STATUS 4 == 0x0042 && t.qr.w_len == 1) = true := by decide
/-- V-R11. -/
theorem test_rNop : answers (exec (.rNop .qr 0) (withQ .qr headQ)) (fun t =>
    t == withQ .qr headQ && t.qr.R_STATUS 4 == 0x0100) = true := by decide
/-- V-R4. -/
theorem test_rRead : answers (exec (.rRead .qr 1) (withQ .qr headQ)) (fun t => t.qr.r_rdata == 0x42) = true := by decide
/-- V-R4: the index 2 of a frame of two bytes. -/
theorem test_rRead_beyond : answers (exec (.rRead .qr 2) (withQ .qr { headQ with r_rdata := 0x42 })) (fun t =>
    t.qr.r_rdata == 0x00) = true := by decide
/-- V-R5. -/
theorem test_rPop : answers (exec (.rPop .qr 0) (withQ .qr headQ)) (fun t =>
    t.qr.rbin == 1 && t.qr.rgray == 0b001 && t.qr.R_STATUS 4 == 0x0003) = true := by decide
/-- V-R2. -/
theorem test_rPop_empty : answers (exec (.rPop .qr 0) State.reset) (fun t =>
    t.qr.rbin == 0 && t.qr.R_STATUS 4 == 0x0005) = true := by decide
/-- V-R9. -/
theorem test_rClrerr : answers (exec (.rClrerr .qr 0) (withQ .qr { emptyQ with r_operr := true })) (fun t =>
    t.qr.R_STATUS 4 == 0x0001) = true := by decide
/-- V-R8. -/
theorem test_rRsv : answers (exec (.rRsv .qr 0 0) State.reset) (fun t => t.qr.R_STATUS 4 == 0x0009) = true := by decide
/-- V-D3, the last byte: DELIM. -/
theorem test_wireFlag_delim : answers (exec .wireFlag
    { withRx { bodyRx 3 with d_cnt := 1 } with qh := openQ }) (fun t =>
    t.frx.D_STATUS == 0x09 && t.frx.d_err_cnt == 1 && t.qh.w_open == false && t.qh.wbin == 0) = true := by decide
/-- V-D13, the last byte: an empty frame. -/
theorem test_wireFlag_commit : answers (exec .wireFlag (withRx (bodyRx 0))) (fun t =>
    t.frx.D_STATUS == 0x01 && t.frx.d_ok_cnt == 1 && t.qh.wbin == 1 && t.qh.mem == [(0, 0)]) = true := by decide
/-- V-D6, the last byte: `ESC ESC`. -/
theorem test_wireEsc : answers (exec .wireEsc (withRx (escRx 1))) (fun t => t.frx.D_STATUS == 0x10) = true := by decide
/-- V-D9, the last byte: the header 0x7E. -/
theorem test_wireTFlag_header : answers (exec .wireTFlag (withRx { Frx.reset with d_state := .lenEsc })) (fun t =>
    t.frx.D_STATUS == 0x03 && t.frx.d_len == 126) = true := by decide
/-- V-D16, the third byte: an unescaped `T_FLAG` is plain data. -/
theorem test_wireTFlag_plain : answers (exec .wireTFlag (withRx (bodyRx 1))) (fun t =>
    t.frx.d_cnt == 1 && t.qh.mem == [(1, 0x5E)]) = true := by decide
/-- P3, byte 14. -/
theorem test_wireTEsc : answers (exec .wireTEsc (withRx (escRx 1))) (fun t =>
    t.frx.d_cnt == 1 && t.frx.D_STATUS == 0x03 && t.qh.mem == [(1, 0x7D)]) = true := by decide
/-- V-D7: the header 128 is above `M`. -/
theorem test_wireData_header : answers (exec (.wireData 0x80) (withRx { Frx.reset with d_state := .start })) (fun t =>
    t.frx.D_STATUS == 0x18) = true := by decide
/-- V-D12, the last byte: more bytes than the header says. -/
theorem test_wireData_length : answers (exec (.wireData 0x42)
    { withRx { bodyRx 1 with d_cnt := 1 } with qh := openQ }) (fun t =>
    t.frx.D_STATUS == 0x18 && t.qh.w_open == false) = true := by decide

/-- The three results of a decoder step (43_framer_rx.md R237), at V-D13, V-D6 and V-D8. -/
theorem test_frx_outcome : ((bodyRx 0).byte Params.default 0x7E).2.outcome = .frame
    ∧ ((escRx 1).byte Params.default 0x7D).2.outcome = .framingError
    ∧ (Frx.byte Params.default 0x7F { Frx.reset with d_state := .start }).2.outcome = .incomplete := by decide

/-! ## One step of each agent that has no encoding -/

/-- V-T1, step 1. -/
theorem test_ftx_idle : answers (step (soon .ftx (withTx Ftx.reset))) (fun t =>
    t.txlog == [0x7E] && t.ftx.E_STATUS == 0x01 && t.ftx.e_len == 2) = true := by decide
/-- V-T1, step 4. -/
theorem test_ftx_data : answers (step (soon .ftx (withTx (sendingTx .data 1)))) (fun t =>
    t.txlog == [0x7D] && t.ftx.E_STATUS == 0x07 && t.ftx.e_pbyte == 0x5E) = true := by decide
/-- V-T1, step 6. -/
theorem test_ftx_close : answers (step (soon .ftx (withTx (sendingTx .close 2)))) (fun t =>
    t.txlog == [0x7E] && t.ftx.E_STATUS == 0x00 && t.ftx.e_ok_cnt == 1 && t.qt.rbin == 1) = true := by decide
/-- V-S1b. -/
theorem test_syncW2R : answers (step (soon (.syncW2R .qr) (withQ .qr { headQ with wsync := [1, 0] }))) (fun t =>
    t.qr.wsync == [1, 1] && t.qr.r_empty == false && t.qr.R_STATUS 4 == 0x0100) = true := by decide
/-- V-S2c. -/
theorem test_syncR2W : answers (step (soon (.syncR2W .qr)
    (withQ .qr { fullQ with rbin := 1, rgray := 1, rsync := [1, 0] }))) (fun t =>
    t.qr.rsync == [1, 1] && t.qr.w_full 4 == false && t.qr.W_STATUS 4 == 0x0310) = true := by decide
/-- 70_reset_and_hazards.md R330: the pointers clear, the slot memory stays. -/
theorem test_reset : answers (step (soon .reset (withQ .qr discardQ))) (fun t =>
    t.qr == { emptyQ with mem := fullQ.mem }) = true := by decide
/-- TASK samples `QR.r_len` in its own domain (41_queue_read.md R180; 10_state.md R56). -/
theorem test_sample : answers (step (soon (.sample .task (.rLen .qr)) (withQ .qr headQ))) (fun t =>
    t.seen == 2 && t.draws == 0) = true := by decide
/-- The host's interface: the fetched word is what the step runs. -/
theorem test_withFetchWord : answers (step (State.reset.withFetchWord 16 0x141)) (fun t => t.qr == openQ) = true := by
  decide

/-! ## States that meet the invariant -/

/-- Three frames of one byte committed: one more commit fills the queue. -/
def threeQ : Fq :=
  { emptyQ with
    wbin := 3, wgray := 0b010, w_result := .ok
    mem := [(0, 1), (1, 1), (128, 1), (129, 2), (256, 1), (257, 3)] }

/-- V-S2b: a full queue from which one frame has been popped, the pop on its way to the producer. -/
def lagQ : Fq := { fullQ with wsync := [6, 6], rbin := 1, rgray := 1, rsync := [1, 0], r_result := .ok }

/-- The head frame is the empty frame. -/
def emptyHeadQ : Fq := { headQ with mem := [(0, 0)] }

/-- FRX one byte into a frame of two, that byte in `QH`. -/
def midRx : State := { withRx { bodyRx 2 with d_cnt := 1 } with qh := openQ }

/-- The configuration `tiny` with the frame `7E` at the head of `QT`. -/
def tinyTx : State := { State.resetWith tiny with qt := { headQ with mem := [(0, 1), (1, 0x7E)] } }

theorem inv_open : (withQ .qr openQ).Inv := State.inv_of_check (by decide)
theorem inv_head : (withQ .qr headQ).Inv := State.inv_of_check (by decide)
theorem inv_emptyHead : (withQ .qr emptyHeadQ).Inv := State.inv_of_check (by decide)
theorem inv_full : (withQ .qr fullQ).Inv := State.inv_of_check (by decide)
theorem inv_discard : (withQ .qr discardQ).Inv := State.inv_of_check (by decide)
theorem inv_lag : (withQ .qr lagQ).Inv := State.inv_of_check (by decide)
theorem inv_mid : midRx.Inv := State.inv_of_check (by decide)
theorem inv_tinyTx : tinyTx.Inv := State.inv_of_check (by decide)
theorem inv_fullTx : (withQ .qt fullQ).Inv := State.inv_of_check (by decide)
theorem inv_tx : (withTx Ftx.reset).Inv := State.inv_of_check (by decide)
theorem inv_start : (withRx { Frx.reset with d_state := .start }).Inv := State.inv_of_check (by decide)

/-! ## Witnesses: encoding and the step -/

/-- V-E1, and a frame of `M` bytes without a header. -/
theorem witness_EncodedFrameShape :
    (Params.default.legal = true ∧ Params.default.LEN_FIELD = true
      ∧ encodeFrame Params.default [0x41, 0x7E, 0x7D, 0x42] = [0x7E, 4, 0x41, 0x7D, 0x5E, 0x7D, 0x5D, 0x42, 0x7E])
    ∧ (tiny.legal = true ∧ tiny.LEN_FIELD = false ∧ ([0x7E] : Frame).length = tiny.M) := by decide

theorem witness_DecodeOfEncode : Params.slip.legal = true ∧ (Instr.wireData 0x7E).wf Params.slip = true
    ∧ Params.default.legal = true ∧ (Instr.rRsv .qt 3 0xFF).wf Params.default = true := by decide

theorem witness_EncodeOfDecode : decode Params.default (.w .qh) 0x7FF = .ok (.wRsv67 .qh 1 0xFF)
    ∧ decode Params.default .rx 0xFF = .ok (.wireData 0xFF) := by decide

theorem witness_EveryPortWordDecodes : 0x7FF < 2 ^ (Port.r .qt).width ∧ ¬ 0x800 < 2 ^ (Port.r .qt).width
    ∧ 0xFF < 2 ^ Port.rx.width ∧ ¬ 0x100 < 2 ^ Port.rx.width := by decide

theorem witness_StepRunsTheDecodedInstruction :
    (soon (.command .task (.r .qh) 0x103) State.reset).params.legal = true
    ∧ (soon (.command .task (.r .qh) 0x103) State.reset).pending = .command .task (.r .qh) 0x103 :: []
    ∧ mayPresent .task (.r .qh) = true ∧ decode Params.default (.r .qh) 0x103 = .ok (.rRead .qh 3) := by decide

theorem witness_IllegalConfigurationIsRefused :
    (State.resetWith { Params.default with M := 0 }).params.legal = false := by decide

theorem witness_OnlyTheDriverMayUseAPort : State.reset.params.legal = true
    ∧ (soon (.command .host (.w .qr) 0) State.reset).pending = [.command .host (.w .qr) 0]
    ∧ (Agent.host, Port.w .qr) ∉ [(.radio, .w .qr), (.task, .r .qr), (.task, .r .qh), (.task, .w .qt), (.host, .rx)]
    ∧ (Agent.frx, Port.w .qh) ∉ [(.radio, .w .qr), (.task, .r .qr), (.task, .r .qh), (.task, .w .qt), (.host, .rx)]
    ∧ (Agent.ftx, Port.r .qt) ∉ [(.radio, .w .qr), (.task, .r .qr), (.task, .r .qh), (.task, .w .qt), (.host, .rx)]
    ∧ (soon (.partialReset .link) State.reset).pending = [.partialReset .link] := by decide

/-! ## Witnesses: producer operations -/

theorem witness_WNopAndReservedResult : State.reset.params.legal = true := by decide
theorem witness_WAbortAndClrcntResult : (withQ .qr discardQ).params.legal = true := by decide

/-- The six clauses in turn, at the byte counts `M`, `M - 1` and `M + 1`. -/
theorem witness_WByteResult : (withQ .qr fullQ).params.legal = true
    ∧ (fullQ.w_open = false ∧ fullQ.w_full 4 = true)
    ∧ (emptyQ.w_open = false ∧ emptyQ.w_full 4 = false)
    ∧ (discardQ.w_open = true ∧ discardQ.w_discard = true)
    ∧ (openQ.w_open = true ∧ openQ.w_discard = false
        ∧ ({ openQ with w_len := 127 } : Fq).w_len.toNat = Params.default.M
        ∧ ({ openQ with w_len := 126 } : Fq).w_len.toNat < Params.default.M
        ∧ Params.default.M < ({ openQ with w_len := 128 } : Fq).w_len.toNat) := by decide

/-- The clauses in turn; the last for an open frame and for none. -/
theorem witness_WCommitResult : (withQ .qr discardQ).params.legal = true
    ∧ (discardQ.w_open = true ∧ discardQ.w_discard = true)
    ∧ (fullQ.w_open = false ∧ fullQ.w_full 4 = true)
    ∧ (({ openQ with w_oversize := true } : Fq).w_open = true ∧ openQ.w_discard = false)
    ∧ (openQ.w_open = true ∧ openQ.w_oversize = false ∧ openQ.w_len = 1)
    ∧ (emptyQ.w_open = false ∧ emptyQ.w_full 4 = false) := by decide

/-- `W_BYTE` meets every inner premise but its own; `W_CLRCNT` and `W_RSV` the others. -/
theorem witness_ProducerRegisterFrame :
    (∃ t, exec (.wByte .qr 1) (withQ .qr openQ) = .next t) ∧ (∃ t, exec (.wClrcnt .qr 1) (withQ .qr openQ) = .next t)
    ∧ (∃ t, exec (.wCommit .qr 1) (withQ .qr openQ) = .next t) ∧ (Instr.wByte .qr 1).port = .w .qr
    ∧ (∀ d, Instr.wByte .qr 1 ≠ .wCommit .qr d) ∧ (∀ d, Instr.wByte .qr 1 ≠ .wAbort .qr d)
    ∧ (∀ d, Instr.wByte .qr 1 ≠ .wClrcnt .qr d) ∧ (∀ d, Instr.wByte .qr 1 ≠ .wRsv5 .qr d)
    ∧ (∀ x d, Instr.wByte .qr 1 ≠ .wRsv67 .qr x d)
    ∧ (∀ d, Instr.wClrcnt .qr 1 ≠ .wByte .qr d) ∧ (∀ d, Instr.wClrcnt .qr 1 ≠ .wCommit .qr d)
    ∧ (∀ d, Instr.wClrcnt .qr 1 ≠ .wAbort .qr d) :=
  ⟨⟨_, rfl⟩, ⟨_, rfl⟩, ⟨_, rfl⟩, rfl, nofun, nofun, nofun, nofun, nofun, nofun, nofun, nofun⟩

/-- The next byte of slot 0 is address 2 and its length address 0; a discarded frame, a frame of `M` bytes, a dropped
commit. -/
theorem witness_ProducerMemoryFrame :
    (∃ t, exec (.wByte .qr 1) (withQ .qr openQ) = .next t) ∧ dataAddr Params.default 0 1 = 2
    ∧ ((discardQ.assembly 4).discard = true ∧ ∃ t, exec (.wByte .qr 1) (withQ .qr discardQ) = .next t)
    ∧ ((Fq.assembly 4 { openQ with w_len := 127 }).len.toNat = Params.default.M
        ∧ ∃ t, exec (.wByte .qr 1) (withQ .qr { openQ with w_len := 127 }) = .next t)
    ∧ (∃ t, exec (.wCommit .qr 0) (withQ .qr openQ) = .next t) ∧ lenAddr Params.default 0 = 0
    ∧ (∃ t, exec (.wCommit .qr 0) (withQ .qr discardQ) = .next t ∧ (t.fq .qr).w_result ≠ .ok)
    ∧ (∃ t, exec (.wAbort .qr 0) (withQ .qr openQ) = .next t) :=
  ⟨⟨_, rfl⟩, by decide, ⟨by decide, _, rfl⟩, ⟨by decide, _, rfl⟩, ⟨_, rfl⟩, by decide, ⟨_, rfl, by decide⟩, ⟨_, rfl⟩⟩

theorem witness_FullnessIsSampledOnce : openQ.w_open = true
    ∧ (∃ t, exec (.wByte .qr 1) (withQ .qr openQ) = .next t) ∧ (∃ t, exec (.wCommit .qr 0) (withQ .qr discardQ) = .next t)
    ∧ discardQ.w_open = true :=
  ⟨rfl, ⟨_, rfl⟩, ⟨_, rfl⟩, rfl⟩

theorem witness_ProducerIgnoresReadDomain : (Instr.wCommit .qr 0).port = .w .qr
    ∧ ∃ t, exec (.wCommit .qr 0) (withQ .qr openQ) = .next t := ⟨rfl, _, rfl⟩

/-- The empty frame on a queue that holds one, and a frame of `M` bytes where `M = 1` and `N = 128`. -/
theorem witness_EnqueueAppendsTheFrame :
    ((withQ .qr headQ).Inv ∧ headQ.w_open = false ∧ headQ.w_full 4 = false ∧ ([] : Frame).length ≤ Params.default.M)
    ∧ (tinyTx.Inv ∧ tinyTx.qt.w_open = false ∧ tinyTx.qt.w_full 128 = false ∧ ([0x7E] : Frame).length = tiny.M) :=
  ⟨⟨inv_head, by decide⟩, inv_tinyTx, by decide⟩

/-- A full queue; and a frame of `M + 1` bytes. -/
theorem witness_EnqueueDropsAndCounts :
    ((withQ .qt fullQ).Inv ∧ fullQ.w_open = false ∧ fullQ.w_full 4 = true)
    ∧ (tinyTx.Inv ∧ tinyTx.qt.w_open = false ∧ tinyTx.qt.w_full 128 = false ∧ ([1, 2] : Frame).length = tiny.M + 1) :=
  ⟨⟨inv_fullTx, by decide⟩, inv_tinyTx, by decide⟩

/-! ## Witnesses: consumer operations -/

theorem witness_RNopClrerrAndReservedResult : (withQ .qr headQ).params.legal = true := by decide

/-- The clauses in turn: empty; the index at the length; the last index; an unwritten length, an unwritten byte; an index
of `M` below a stored length. -/
theorem witness_RReadResult : (withQ .qr headQ).params.legal = true
    ∧ emptyQ.r_empty = true
    ∧ (headQ.r_empty = false ∧ headQ.mem.read (lenAddr Params.default 0) = some 2)
    ∧ headQ.mem.read (dataAddr Params.default 0 1) = some 0x42
    ∧ Memory.read [] (lenAddr Params.default 0) = none
    ∧ (Memory.read [(0, 2), (1, 0x41)] (lenAddr Params.default 0) = some 2
        ∧ Memory.read [(0, 2), (1, 0x41)] (dataAddr Params.default 0 1) = none)
    ∧ Memory.read [(0, 0xFF)] (lenAddr Params.default 0) = some 0xFF ∧ Params.default.M ≤ (127 : Byte).toNat := by decide

theorem witness_RPopResult : (withQ .qr headQ).params.legal = true ∧ emptyQ.r_empty = true ∧ headQ.r_empty = false := by
  decide

theorem witness_ConsumerFrame :
    (∃ t, exec (.rRead .qr 1) (withQ .qr headQ) = .next t) ∧ (∃ t, exec (.rPop .qr 0) (withQ .qr headQ) = .next t)
    ∧ (Instr.rRead .qr 1).port = .r .qr ∧ (∀ k, Instr.rPop .qr 0 ≠ .rRead .qr k)
    ∧ (∀ k, Instr.rRead .qr 1 ≠ .rPop .qr k) ∧ (∀ k, Instr.rRead .qr 1 ≠ .rClrerr .qr k)
    ∧ (∀ xx k, Instr.rRead .qr 1 ≠ .rRsv .qr xx k) :=
  ⟨⟨_, rfl⟩, ⟨_, rfl⟩, rfl, nofun, nofun, nofun, nofun⟩

theorem witness_ConsumerIgnoresWriteDomain : (Instr.rRead .qr 1).port = .r .qr
    ∧ ∃ t, exec (.rRead .qr 1) (withQ .qr headQ) = .next t := ⟨rfl, _, rfl⟩

theorem witness_RLenIsTheHeadLength : emptyQ.r_empty = true ∧ headQ.r_empty = false
    ∧ headQ.mem.read (lenAddr Params.default 0) = some 2 ∧ Memory.read [] (lenAddr Params.default 0) = none := by decide

/-- A frame of two bytes, and the empty frame. -/
theorem witness_DequeueReturnsTheHeadFrame : ((withQ .qr headQ).Inv ∧ headQ.r_empty = false)
    ∧ ((withQ .qr emptyHeadQ).Inv ∧ emptyHeadQ.r_empty = false) :=
  ⟨⟨inv_head, by decide⟩, inv_emptyHead, by decide⟩

theorem witness_HeadFrameIsStable :
    (soon (.command .radio (.w .qr) 0x141) (withQ .qr headQ)).Inv
    ∧ headQ.r_empty = false
    ∧ ∃ t, step (soon (.command .radio (.w .qr) 0x141) (withQ .qr headQ)) = .next t ∧ t.qr.rbin = headQ.rbin :=
  ⟨State.inv_of_check (by decide), by decide, _, rfl, by decide⟩

/-! ## Witnesses: synchronisers, full and empty -/

theorem witness_SynchroniserStepsShift : State.reset.params.legal = true
    ∧ headQ.wsync.length = Params.default.S .qr ∧ headQ.rsync.length = Params.default.S .qr
    ∧ (soon (.syncW2R .qr) State.reset).pending = [.syncW2R .qr]
    ∧ (soon (.syncR2W .qr) State.reset).pending = [.syncR2W .qr] := by decide

/-- The smallest and the largest capacity, at the ends of the pointer range. -/
theorem witness_GrayCodeOfEveryCapacity : FqParams.legal ⟨2, 2⟩ = true ∧ (3 : Ptr).toNat < 2 * 2
    ∧ FqParams.legal ⟨128, 2⟩ = true ∧ (255 : Ptr).toNat < 2 * 128 ∧ (0 : Ptr).toNat < 2 * 2 := by decide

/-- Both values of both flags. -/
theorem witness_FullAndEmptyAreLevels : ((withQ .qr fullQ).Inv ∧ fullQ.w_full 4 = true ∧ fullQ.r_empty = true)
    ∧ ((withQ .qr headQ).Inv ∧ headQ.w_full 4 = false ∧ headQ.r_empty = false) :=
  ⟨⟨inv_full, by decide⟩, inv_head, by decide⟩

/-- V-S3: a queue whose producer has not seen the pop; and one with both flags down. -/
theorem witness_LevelsBracketTheOccupancy : ((withQ .qr lagQ).Inv ∧ lagQ.lagR 4 = 1 ∧ lagQ.w_full 4 = true)
    ∧ ((withQ .qr headQ).Inv ∧ headQ.w_full 4 = false ∧ headQ.r_empty = false) :=
  ⟨⟨inv_lag, by decide⟩, inv_head, by decide⟩

theorem witness_SynchronisersConverge : (withQ .qr lagQ).Inv := inv_lag

/-- A frame the consumer has not seen, and a free slot the producer has not seen; from each the six synchronisers run in
turn, which is a fair run without a `RESET`. -/
theorem witness_FairRunsLowerTheFlags :
    (FairRun roundRobin (roundRobinRun (withQ .qr { headQ with wsync := [0, 0] }))
      ∧ (roundRobinRun (withQ .qr { headQ with wsync := [0, 0] }) 0).Inv
      ∧ 0 < Fq.occupancy 4 { headQ with wsync := [0, 0] } ∧ Fq.r_empty { headQ with wsync := [0, 0] } = true)
    ∧ (FairRun roundRobin (roundRobinRun (withQ .qr lagQ)) ∧ (roundRobinRun (withQ .qr lagQ) 0).Inv
      ∧ lagQ.occupancy 4 < 4 ∧ lagQ.w_full 4 = true)
    ∧ ∀ m, roundRobin m ≠ .reset :=
  ⟨⟨fairRun_roundRobin (by decide), State.inv_of_check (by decide), by decide⟩,
    ⟨fairRun_roundRobin (by decide), inv_lag, by decide⟩, roundRobin_ne_reset⟩

/-- `r_empty` falls; `r_empty` rises, at a pop and at `RESET`. -/
theorem witness_FlagsMoveOnlyAt_empty :
    (∃ t, (soon (.syncW2R .qr) (withQ .qr { headQ with wsync := [1, 0] })).Inv
      ∧ step (soon (.syncW2R .qr) (withQ .qr { headQ with wsync := [1, 0] })) = .next t
      ∧ Fq.r_empty { headQ with wsync := [1, 0] } = true ∧ t.qr.r_empty = false)
    ∧ (∃ t, (soon (.command .task (.r .qr) 0x200) (withQ .qr headQ)).Inv
      ∧ step (soon (.command .task (.r .qr) 0x200) (withQ .qr headQ)) = .next t
      ∧ headQ.r_empty = false ∧ t.qr.r_empty = true)
    ∧ (∃ t, (soon .reset (withQ .qr headQ)).Inv ∧ step (soon .reset (withQ .qr headQ)) = .next t
      ∧ t.qr.r_empty = true) :=
  ⟨⟨_, State.inv_of_check (by decide), rfl, by decide⟩, ⟨_, State.inv_of_check (by decide), rfl, by decide⟩,
    ⟨_, State.inv_of_check (by decide), rfl, by decide⟩⟩

/-- `w_full` rises at a commit; it falls at a synchroniser step and at `RESET`. -/
theorem witness_FlagsMoveOnlyAt_full :
    (∃ t, (soon (.command .radio (.w .qr) 0x200) (withQ .qr threeQ)).Inv
      ∧ step (soon (.command .radio (.w .qr) 0x200) (withQ .qr threeQ)) = .next t
      ∧ threeQ.w_full 4 = false ∧ t.qr.w_full 4 = true)
    ∧ (∃ t, (soon (.syncR2W .qr) (withQ .qr lagQ)).Inv
      ∧ step (soon (.syncR2W .qr) (withQ .qr lagQ)) = .next t ∧ lagQ.w_full 4 = true ∧ t.qr.w_full 4 = false)
    ∧ (∃ t, (soon .reset (withQ .qr fullQ)).Inv ∧ step (soon .reset (withQ .qr fullQ)) = .next t
      ∧ fullQ.w_full 4 = true ∧ t.qr.w_full 4 = false) :=
  ⟨⟨_, State.inv_of_check (by decide), rfl, by decide⟩, ⟨_, State.inv_of_check (by decide), rfl, by decide⟩,
    ⟨_, State.inv_of_check (by decide), rfl, by decide⟩⟩

/-! ## Witnesses: the decoder -/

/-- The three kinds of plain byte. -/
theorem witness_PlainByte : PlainByte Params.default .wireTFlag 0x5E ∧ PlainByte Params.default .wireTEsc 0x5D
    ∧ PlainByte Params.default (.wireData 0x41) 0x41 :=
  ⟨.inl ⟨rfl, rfl⟩, .inr (.inl ⟨rfl, rfl⟩), .inr (.inr ⟨rfl, by decide⟩)⟩

/-- The two clauses of a length header: 128 and 127 where `M` is 127. -/
theorem witness_TakesLength : Params.default.M < (128 : Byte).toNat ∧ (127 : Byte).toNat ≤ Params.default.M := by decide

/-- The two clauses of a payload byte: the frame complete by its header, complete by `M`, and one byte short of either. -/
theorem witness_TakesPayload :
    (Params.default.LEN_FIELD = true ∧ (bodyRx 0).d_cnt = (bodyRx 0).d_len)
    ∧ ({ bodyRx 0 with d_cnt := 127 } : Frx).d_cnt.toNat = Params.default.M
    ∧ (¬ (Params.default.LEN_FIELD = true ∧ (bodyRx 1).d_cnt = (bodyRx 1).d_len)
        ∧ ¬ (bodyRx 1).d_cnt.toNat = Params.default.M ∧ State.reset.qh.w_len.toNat ≤ Params.default.M) := by decide

theorem witness_FrxInHunt : State.reset.params.legal = true ∧ State.reset.frx.d_state = .hunt := by decide

/-- With a length header, and without. -/
theorem witness_FrxInStart : (withRx { Frx.reset with d_state := .start }).params.legal = true
    ∧ Params.default.LEN_FIELD = true
    ∧ (({ State.resetWith tiny with frx := { Frx.reset with d_state := .start } } : State).params.legal = true
        ∧ tiny.LEN_FIELD = false) := by decide

theorem witness_FrxInLenEsc : (withRx { Frx.reset with d_state := .lenEsc }).params.legal = true
    ∧ Params.default.framingByte 0x41 = false := by decide

/-- Short of the header's count; at it; and without a header. -/
theorem witness_FrxInBody : midRx.params.legal = true ∧ midRx.frx.d_state = .body
    ∧ (midRx.params.LEN_FIELD = true ∧ midRx.frx.d_cnt.toNat < midRx.frx.d_len.toNat)
    ∧ (bodyRx 0).d_len.toNat ≤ (bodyRx 0).d_cnt.toNat ∧ tiny.LEN_FIELD = false := by decide

theorem witness_FrxInBodyEsc : (withRx (escRx 1)).params.legal = true ∧ (withRx (escRx 1)).frx.d_state = .bodyEsc
    ∧ Params.default.framingByte 0x41 = false := by decide

/-- `W_BYTE` may store to address 2, `W_COMMIT` to address 0; 1 is neither. The byte 0x41 is well-formed, and no `FLAG`. -/
theorem witness_WireByteFrame : (Instr.wireData 0x41).port = .rx ∧ (∃ t, exec (.wireData 0x41) midRx = .next t)
    ∧ (∃ t, exec .wireFlag midRx = .next t) ∧ (∃ t, exec .wireEsc midRx = .next t)
    ∧ (Instr.wireData 0x41 ≠ .wireFlag ∧ (Instr.wireData 0x41).wf midRx.params = true)
    ∧ (dataAddr midRx.params (slotidx 4 midRx.qh.wbin) (midRx.qh.assembly 4).len.toNat = 2
        ∧ lenAddr midRx.params (slotidx 4 midRx.qh.wbin) = 0) :=
  ⟨rfl, ⟨_, rfl⟩, ⟨_, rfl⟩, ⟨_, rfl⟩, by decide⟩

/-- From inside a frame, with a header; and without one. -/
theorem witness_FrxDecodesTheEncodedFrame :
    (Params.default.legal = true ∧ midRx.frx.Inv Params.default ∧ ([] : Frame).length ≤ Params.default.M)
    ∧ (tiny.legal = true ∧ tinyTx.frx.Inv tiny ∧ ([0x7E] : Frame).length = tiny.M ∧ ([0x7E] : Frame) ≠ []) :=
  ⟨⟨by decide, inv_mid.frx, by decide⟩, by decide, inv_tinyTx.frx, by decide⟩

/-- From START with a header, the empty frame; from HUNT without one, a frame of `M` bytes. -/
theorem witness_HostFrameReachesTheQueue :
    ((withRx { Frx.reset with d_state := .start }).Inv ∧ State.reset.qh.w_full 4 = false
      ∧ ([] : Frame).length ≤ Params.default.M ∧ Params.default.LEN_FIELD = true)
    ∧ (tinyTx.Inv ∧ tinyTx.frx.d_state = .hunt ∧ tinyTx.qh.w_full 2 = false ∧ ([0x7E] : Frame).length = tiny.M
      ∧ ([0x7E] : Frame) ≠ []) :=
  ⟨⟨inv_start, by decide⟩, inv_tinyTx, by decide⟩

/-! ## Witnesses: the encoder -/

theorem witness_FtxSendsThePendingByte : (soon .ftx (withTx { sendingTx .close 2 with e_pend := true, e_pbyte := 0x5E })).params.legal = true
    ∧ ({ sendingTx .close 2 with e_pend := true } : Ftx).e_pend = true := by decide

/-- Empty; a head frame with a header, without one, and without one of no bytes; an unwritten length. -/
theorem witness_FtxInIdle : State.reset.params.legal = true ∧ Ftx.reset.e_pend = false ∧ Ftx.reset.e_state = .idle
    ∧ State.reset.qt.r_empty = true
    ∧ ((withTx Ftx.reset).qt.r_empty = false
        ∧ (withTx Ftx.reset).qt.mem.read (lenAddr Params.default 0) = some 2 ∧ Params.default.LEN_FIELD = true)
    ∧ (tinyTx.qt.r_empty = false ∧ tinyTx.qt.mem.read (lenAddr tiny 0) = some 1 ∧ tiny.LEN_FIELD = false)
    ∧ (emptyHeadQ.r_empty = false ∧ emptyHeadQ.mem.read (lenAddr tiny 0) = some 0)
    ∧ Memory.read [] (lenAddr Params.default 0) = none := by decide

/-- The lengths `FLAG`, `ESC`, 0 and 2 (DATA next, CLOSE next). -/
theorem witness_FtxInLen : (withTx (sendingTx .len 0)).params.legal = true
    ∧ ((sendingTx .len 0).e_pend = false ∧ (sendingTx .len 0).e_state = .len ∧ (sendingTx .len 0).e_len ≠ 0)
    ∧ (0x7E : Byte) = Params.default.FLAG ∧ (0x7D : Byte) = Params.default.ESC
    ∧ ((2 : Byte) ≠ Params.default.FLAG ∧ (2 : Byte) ≠ Params.default.ESC)
    ∧ ({ sendingTx .len 0 with e_len := 0 } : Ftx).e_len = 0 := by decide

/-- A plain byte with more to come; `FLAG` as the last byte; `ESC`; a byte no one has written. -/
theorem witness_FtxInData : (withTx (sendingTx .data 0)).params.legal = true
    ∧ ((sendingTx .data 0).e_idx + 1 ≠ (sendingTx .data 0).e_len ∧ (sendingTx .data 1).e_idx + 1 = (sendingTx .data 1).e_len)
    ∧ (withTx (sendingTx .data 0)).qt.readByte Params.default .qt 0 = .ok 0x41
    ∧ (withTx (sendingTx .data 0)).qt.readByte Params.default .qt 1 = .ok Params.default.FLAG
    ∧ Fq.readByte Params.default .qt 0 { headQ with mem := [(0, 1), (1, 0x7D)] } = .ok Params.default.ESC
    ∧ Fq.readByte Params.default .qt 0 { headQ with mem := [(0, 1)] } = .error .unwrittenSlotByte := by decide

theorem witness_FtxInClose : (withTx (sendingTx .close 2)).params.legal = true
    ∧ (sendingTx .close 2).e_pend = false ∧ (sendingTx .close 2).e_state = .close := by decide

/-- A frame whose second byte is escaped, before its last byte and at it; and one without a header. -/
theorem witness_FtxSendsTheEncodedFrame :
    ((withTx Ftx.reset).Inv ∧ (withTx Ftx.reset).qt.r_empty = false
      ∧ ((withTx Ftx.reset).qt.frames Params.default .qt).head? = some (some [0x41, 0x7E])
      ∧ 5 < (encodeFrame Params.default [0x41, 0x7E]).length ∧ (encodeFrame Params.default [0x41, 0x7E]).length = 6)
    ∧ (tinyTx.Inv ∧ tinyTx.qt.r_empty = false ∧ (tinyTx.qt.frames tiny .qt).head? = some (some [0x7E])) :=
  ⟨⟨inv_tx, by decide⟩, inv_tinyTx, by decide⟩

/-! ## Witnesses: reset and outputs -/

theorem witness_ResetSetsEveryRegister : (soon .reset (withQ .qr discardQ)).params.legal = true
    ∧ (soon .reset (withQ .qr discardQ)).pending = [.reset] := by decide

theorem witness_OutputsAfterReset : (soon .reset (withQ .qr discardQ)).params.legal = true
    ∧ ∃ t, step (soon .reset (withQ .qr discardQ)) = .next t := ⟨by decide, _, rfl⟩

/-- An observer of the output's own domain, and one of another; an output of each list; and `r_len` with a value and without
one (a length no one has written). -/
theorem witness_ObservingAnOutput : State.reset.params.legal = true
    ∧ ((Output.rLen .qr).domain = .task ∧ (Output.rLen .qr).value (withQ .qr headQ) = .ok 2)
    ∧ (Output.wDropCnt .qh).domain ≠ .task
    ∧ Output.wDropCnt .qh ∈ [.wStatus .qh, .wFull .qh, .wLevel .qh, .wIrq .qh, .wDropCnt .qh, .wLongCnt .qh]
    ∧ Output.rLen .qr ∈ [.wLevel .qr, .rLevel .qr, .rLen .qr, .rRdata .qr, .dStatus, .eStatus]
    ∧ headQ.r_len Params.default .qr = .ok 2
    ∧ Fq.r_len Params.default .qr { headQ with mem := [] } = .error .unwrittenSlotByte := by decide

/-! ## Witnesses: the whole machine -/

theorem witness_InvariantHoldsAtReset : Params.default.legal = true ∧ Params.slip.legal = true ∧ tiny.legal = true := by
  decide

theorem witness_StepKeepsTheInvariant : (soon (.command .host .rx 0x42) midRx).Inv
    ∧ ∃ t, step (soon (.command .host .rx 0x42) midRx) = .next t := ⟨State.inv_of_check (by decide), _, rfl⟩

theorem witness_NoStepFaults : (soon .ftx (withTx (sendingTx .data 1))).Inv := State.inv_of_check (by decide)

theorem witness_EveryInstructionCompletes : (withQ .qr discardQ).Inv ∧ midRx.Inv := ⟨inv_discard, inv_mid⟩

theorem witness_ParametersAreFixed : ∃ t, step (soon .reset (State.resetWith tiny)) = .next t := ⟨_, rfl⟩

theorem witness_TxlogOnlyGrows : ∃ t, step (soon .ftx (withTx Ftx.reset)) = .next t := ⟨_, rfl⟩

/-- A counter one below the last value, and at it, where `CNT_W` is 16 and 1; a `W_CLRCNT`, and a drop, from a state of the
invariant. -/
theorem witness_CountersOnlyCount :
    (Params.default.legal = true ∧ (0xFFFE : Cnt).toNat < 2 ^ Params.default.CNT_W - 1
      ∧ (0xFFFF : Cnt).toNat = 2 ^ Params.default.CNT_W - 1)
    ∧ (tiny.legal = true ∧ (0 : Cnt).toNat < 2 ^ tiny.CNT_W - 1 ∧ (1 : Cnt).toNat = 2 ^ tiny.CNT_W - 1)
    ∧ (∃ t, step (soon (.command .radio (.w .qr) 0x400) (withQ .qr discardQ)) = .next t)
    ∧ (soon (.command .radio (.w .qr) 0x200) (withQ .qr discardQ)).Inv
    ∧ ∃ t, step (soon (.command .radio (.w .qr) 0x200) (withQ .qr discardQ)) = .next t ∧ t.qr.w_drop_cnt = 1
      ∧ (soon (.command .radio (.w .qr) 0x200) (withQ .qr discardQ)).pending.head? ≠ some .reset :=
  ⟨by decide, by decide, ⟨_, rfl⟩, State.inv_of_check (by decide), _, rfl, by decide⟩

/-- V-W15: with `CNT_W = 2`, `w_drop_cnt` stays at 3. -/
theorem test_wCommit_saturates : answers (exec (.wCommit .qr 0)
    { withQ .qr { discardQ with w_drop_cnt := 3 } with params := { Params.default with CNT_W := 2 } }) (fun t =>
    t.qr.w_drop_cnt == 3 && t.qr.w_result == .full) = true := by decide

/-- A `RESET`, a commit, a pop, and a step that moves neither pointer. -/
theorem witness_QueuesAreFifo :
    (∃ t, (soon .reset (withQ .qr headQ)).Inv ∧ step (soon .reset (withQ .qr headQ)) = .next t)
    ∧ (∃ t, (soon (.command .radio (.w .qr) 0x200) (withQ .qr openQ)).Inv
      ∧ step (soon (.command .radio (.w .qr) 0x200) (withQ .qr openQ)) = .next t ∧ t.qr.wbin ≠ openQ.wbin)
    ∧ (∃ t, (soon (.command .task (.r .qr) 0x200) (withQ .qr headQ)).Inv
      ∧ step (soon (.command .task (.r .qr) 0x200) (withQ .qr headQ)) = .next t ∧ t.qr.wbin = headQ.wbin
      ∧ t.qr.rbin ≠ headQ.rbin)
    ∧ (∃ t, (soon (.command .radio (.w .qr) 0x141) (withQ .qr headQ)).Inv
      ∧ step (soon (.command .radio (.w .qr) 0x141) (withQ .qr headQ)) = .next t ∧ t.qr.wbin = headQ.wbin
      ∧ t.qr.rbin = headQ.rbin) :=
  ⟨⟨_, State.inv_of_check (by decide), rfl⟩, ⟨_, State.inv_of_check (by decide), rfl, by decide⟩,
    ⟨_, State.inv_of_check (by decide), rfl, by decide⟩, ⟨_, State.inv_of_check (by decide), rfl, by decide⟩⟩

/-- The first and the last address of the one committed slot. -/
theorem witness_CommittedSlotsAreNotWritten :
    (∃ t, (soon (.command .radio (.w .qr) 0x141) (withQ .qr headQ)).Inv
      ∧ step (soon (.command .radio (.w .qr) 0x141) (withQ .qr headQ)) = .next t)
    ∧ 0 < headQ.occupancy 4 ∧ lenAddr Params.default (headQ.slotAt 4 0) = 0
    ∧ 127 < lenAddr Params.default (headQ.slotAt 4 0 + 1) ∧ ¬ 128 < lenAddr Params.default (headQ.slotAt 4 0 + 1) :=
  ⟨⟨_, State.inv_of_check (by decide), rfl⟩, by decide⟩

end Sys2Proof.Tests
end

section
/-! The constraints on the parameters, and the refusal of a configuration that breaks one (spec/00_scope.md R6, R7). -/

namespace Sys2Proof

/-- The legal capacities are the powers of two from 2 to 128. -/
theorem FqParams.legal_iff_exists_pow (c : FqParams) :
    c.legal = true ↔ (∃ k, 1 ≤ k ∧ k ≤ 7 ∧ c.N = 2 ^ k) ∧ 2 ≤ c.S := by
  rw [FqParams.legal_iff]
  refine and_congr_left fun _ => ⟨?_, ?_⟩
  · rintro (h | h | h | h | h | h | h)
    exacts [⟨1, by omega, by omega, h⟩, ⟨2, by omega, by omega, h⟩, ⟨3, by omega, by omega, h⟩,
      ⟨4, by omega, by omega, h⟩, ⟨5, by omega, by omega, h⟩, ⟨6, by omega, by omega, h⟩, ⟨7, by omega, by omega, h⟩]
  · rintro ⟨k, h1, h7, h⟩
    interval_cases k <;> simp [h]

namespace Params

variable {p : Params}

/-- `legal` asks the same of each of the three queues. -/
theorem forall_legal_fq_iff :
    (∀ q, (p.fq q).legal = true) ↔ p.qr.legal = true ∧ p.qh.legal = true ∧ p.qt.legal = true := by
  constructor
  · intro h
    exact ⟨h .qr, h .qh, h .qt⟩
  · rintro ⟨hr, hh, ht⟩ q
    cases q <;> assumption

theorem forall_legal_fq_iff_pow :
    (∀ q, (p.fq q).legal = true) ↔ (∀ q, ∃ k, 1 ≤ k ∧ k ≤ 7 ∧ p.N q = 2 ^ k) ∧ ∀ q, 2 ≤ p.S q := by
  rw [← forall_and]
  exact forall_congr' fun q => FqParams.legal_iff_exists_pow (p.fq q)

/-- The framing bytes are distinct exactly when each of the six pairs is. -/
theorem framingBytes_nodup_iff :
    [p.FLAG, p.ESC, p.T_FLAG, p.T_ESC].Nodup ↔
      p.FLAG ≠ p.ESC ∧ p.FLAG ≠ p.T_FLAG ∧ p.FLAG ≠ p.T_ESC ∧ p.ESC ≠ p.T_FLAG ∧ p.ESC ≠ p.T_ESC
        ∧ p.T_FLAG ≠ p.T_ESC := by
  simp [and_assoc]

/-- The parameters are legal exactly when they meet the ranges of 00_scope.md R6 and the constraints of R7. -/
theorem legal_iff_constraints : p.legal = true ↔
    (∀ q, ∃ k, 1 ≤ k ∧ k ≤ 7 ∧ p.N q = 2 ^ k) ∧ (∀ q, 2 ≤ p.S q)
      ∧ 1 ≤ p.M ∧ p.M ≤ 255 ∧ 1 ≤ p.CNT_W ∧ p.CNT_W ≤ 32
      ∧ p.FLAG ≠ p.ESC ∧ p.FLAG ≠ p.T_FLAG ∧ p.FLAG ≠ p.T_ESC ∧ p.ESC ≠ p.T_FLAG ∧ p.ESC ≠ p.T_ESC
      ∧ p.T_FLAG ≠ p.T_ESC := by
  have hq := forall_legal_fq_iff.symm.trans (forall_legal_fq_iff_pow (p := p))
  rw [legal_iff, framingBytes_nodup_iff, ← and_assoc (a := ∀ q, ∃ k, _), ← hq]
  simp only [and_assoc]

end Params

namespace Machine

variable {s : State}

theorem finish_of_illegal (h : s.params.legal = false) (r : Except Fault State) :
    finish s r = .refused .illegalConfiguration := by
  simp [finish, ifLegal, h]

/-- Every instruction is an operation of one queue or one FRX step. -/
theorem exec_cases (i : Instr) (s : State) :
    (∃ q r, exec i s = finishFq s q r) ∨ ∃ b, exec i s = frxStep b s := by
  cases i with
  | wByte q | rRead q => exact .inl ⟨q, _, rfl⟩
  | wNop q | wCommit q | wAbort q | wClrcnt q | wRsv5 q | wRsv67 q | rNop q | rPop q | rClrerr q | rRsv q =>
    exact .inl ⟨q, .ok _, rfl⟩
  | wireFlag | wireEsc | wireTFlag | wireTEsc | wireData => exact .inr ⟨_, rfl⟩

theorem exec_of_illegal (h : s.params.legal = false) (i : Instr) :
    exec i s = .refused .illegalConfiguration := by
  rcases exec_cases i s with ⟨q, r, hi⟩ | ⟨b, hi⟩
  · rw [hi, finishFq, finish_of_illegal h]
  · rw [hi, frxStep, finish_of_illegal h]

theorem step_of_illegal (h : s.params.legal = false) : step s = .refused .illegalConfiguration := by
  simp [step, h]

/-- Settles O8: `legal` spelled out queue by queue and byte by byte; `step` checks it first, and every instruction ends
in `finish`, which checks it too. -/
theorem illegalConfigurationIsRefused : Obligations.IllegalConfigurationIsRefused := by
  rintro s i _ rfl
  exact ⟨Params.legal_iff_constraints, fun h => ⟨step_of_illegal h, exec_of_illegal h i⟩⟩

end Machine

end Sys2Proof
end

section
/-! The step at a pending event, and what an observation, an instruction and an FTX step leave of the state
(spec/10_state.md R31, R56; spec/44_framer_tx.md R260 to R265). -/

namespace Sys2Proof.Machine

variable {s t : State} {e : Event} {rest : List Event}

/-! ## The next pending event -/

/-- Under legal parameters the next pending event happens, and is gone. -/
theorem step_of_pending_cons (hl : s.params.legal = true) (hp : s.pending = e :: rest) :
    step s = runEvent e { s with pending := rest } := by
  simp [step, hl, hp]

/-- The word of an admitted driver runs the instruction it decodes to. -/
theorem present_of_decode {a : Agent} {port : Port} {raw : Nat} {i : Instr} (ha : mayPresent a port = true)
    (hd : decode s.params port raw = .ok i) : present a port raw s = exec i s := by
  simp [present, ha, hd]

/-- Settles O7: the step is the event's effect, and the event's effect is `exec` of the decoded word. -/
theorem stepRunsTheDecodedInstruction : Obligations.StepRunsTheDecodedInstruction := by
  intro s rest a port raw i hl hp ha hd
  rw [step_of_pending_cons hl hp]
  exact present_of_decode ha hd

/-! ## Observing an output -/

/-- No output shows the model's own list of steps to come. -/
@[simp] theorem Output.value_with_pending (o : Output) (l : List Event) :
    o.value { s with pending := l } = o.value s := by
  cases o <;> simp [Output.value]

/-- The value drawn for a `w`-bit output has `w` bits, whatever the free value is (10_state.md R56). -/
theorem foreignDraw_lt (w k : Nat) : (foreignDraw w k).toNat < 2 ^ w := by
  rw [foreignDraw, BitVec.toNat_ofNat]
  exact lt_of_le_of_lt (Nat.mod_le _ _) (Nat.mod_lt _ (by positivity))

theorem sample_own {d : Domain} {o : Output} {v : BitVec 32} (hd : o.domain = d) (hv : o.value s = .ok v) :
    sample d o s = .ok { s with seen := v } := by
  simp [sample, hd, hv]

theorem sample_foreign {d : Domain} {o : Output} (hd : o.domain ≠ d) :
    sample d o s = .ok { s with seen := foreignDraw (o.width s.params) s.draws, draws := s.draws + 1 } := by
  simp [sample, hd]

/-- Everything an observation can do. -/
theorem sample_cases {d : Domain} {o : Output} (h : sample d o s = .ok t) :
    (o.domain = d ∧ ∃ v, o.value s = .ok v ∧ t = { s with seen := v })
    ∨ (o.domain ≠ d ∧ t = { s with seen := foreignDraw (o.width s.params) s.draws, draws := s.draws + 1 }) := by
  by_cases hd : o.domain = d
  · cases hv : o.value s with
    | ok v =>
      rw [sample_own hd hv] at h
      cases h
      exact .inl ⟨hd, v, rfl, rfl⟩
    | error x => simp [sample, hd, hv] at h
  · rw [sample_foreign hd] at h
    cases h
    exact .inr ⟨hd, rfl⟩

/-! ## FTX -/

/-- Everything FTX can do in IDLE (44_framer_tx.md R262). -/
theorem ftxIdle_cases (h : ftxIdle s = .ok t) :
    (s.qt.r_empty = true ∧ t = s)
    ∨ (s.qt.r_empty = false ∧ ∃ L, s.qt.r_len s.params .qt = .ok L ∧
      t = { s with ftx := { s.ftx with
        e_len := L
        e_idx := 0
        e_state := if s.params.LEN_FIELD then .len else if L = 0 then .close else .data } }.emit s.params.FLAG) := by
  unfold ftxIdle at h
  split at h
  · cases h
    exact .inl ⟨‹_›, rfl⟩
  · rename_i hne
    split at h
    · cases h
      exact .inr ⟨by simpa using hne, _, ‹_›, rfl⟩
    · cases h

/-- Everything FTX can do in DATA (44_framer_tx.md R264). -/
theorem ftxData_cases (h : ftxData s = .ok t) :
    ∃ v, s.qt.readByte s.params .qt s.ftx.e_idx = .ok v ∧
      t = { s with
        qt := { s.qt with r_rdata := v }
        ftx := { s.ftx.pendEsc s.params v with
          e_idx := s.ftx.e_idx + 1
          e_state := if s.ftx.e_idx + 1 = s.ftx.e_len then .close else s.ftx.e_state } }.emit
          (escFirst s.params v) := by
  unfold ftxData at h
  split at h
  · rename_i f hf
    obtain ⟨v, hv, rfl⟩ := Fq.rRead_cases hf
    cases h
    exact ⟨v, hv, rfl⟩
  · cases h

/-- Everything one FTX step can do (44_framer_tx.md R260): the pending byte, or what its state asks. -/
theorem ftxStep_cases (h : ftxStep s = .ok t) :
    (s.ftx.e_pend = true ∧ t = ftxPending s)
    ∨ (s.ftx.e_pend = false ∧
      ((s.ftx.e_state = .idle ∧ ftxIdle s = .ok t) ∨ (s.ftx.e_state = .len ∧ t = ftxLen s)
        ∨ (s.ftx.e_state = .data ∧ ftxData s = .ok t) ∨ (s.ftx.e_state = .close ∧ t = ftxClose s))) := by
  unfold ftxStep at h
  split at h
  · cases h
    exact .inl ⟨‹_›, rfl⟩
  · rename_i hp
    refine .inr ⟨by simpa using hp, ?_⟩
    split at h
    case h_1 => exact .inl ⟨‹_›, h⟩
    case h_2 => cases h; exact .inr (.inl ⟨‹_›, rfl⟩)
    case h_3 => exact .inr (.inr (.inl ⟨‹_›, h⟩))
    case h_4 => cases h; exact .inr (.inr (.inr ⟨‹_›, rfl⟩))

/-! ## The sent bytes -/

/-- No instruction sends a byte: only FTX does. -/
theorem exec_txlog {i : Instr} (h : exec i s = .next t) : t.txlog = s.txlog := by
  rcases exec_cases i s with ⟨q, r, hi⟩ | ⟨b, hi⟩ <;> rw [hi] at h
  · obtain ⟨-, f, -, rfl⟩ := finishFq_eq_next.mp h
    exact State.setFq_txlog s q f
  · obtain ⟨-, f, -, rfl⟩ := frxStep_eq_next.mp h
    rfl

/-- An FTX step sends one byte, or none where `QT` shows no frame (44_framer_tx.md R260, R262). -/
theorem ftxStep_txlog (h : ftxStep s = .ok t) : t.txlog = s.txlog ∨ ∃ b, t.txlog = s.txlog ++ [b] := by
  obtain ⟨-, rfl⟩ | ⟨-, ⟨-, hi⟩ | ⟨-, rfl⟩ | ⟨-, hd⟩ | ⟨-, rfl⟩⟩ := ftxStep_cases h
  · exact .inr ⟨_, rfl⟩
  · obtain ⟨-, rfl⟩ | ⟨-, _, -, rfl⟩ := ftxIdle_cases hi
    · exact .inl rfl
    · exact .inr ⟨_, rfl⟩
  · exact .inr ⟨_, rfl⟩
  · obtain ⟨_, -, rfl⟩ := ftxData_cases hd
    exact .inr ⟨_, rfl⟩
  · exact .inr ⟨_, rfl⟩

theorem sample_txlog {d : Domain} {o : Output} (h : sample d o s = .ok t) : t.txlog = s.txlog := by
  obtain ⟨-, _, -, rfl⟩ | ⟨-, rfl⟩ := sample_cases h <;> rfl

/-- An event leaves `txlog` as it was, but for FTX's step, which may send one byte. -/
theorem runEvent_txlog (h : runEvent e s = .next t) :
    t.txlog = s.txlog ∨ (e = .ftx ∧ ∃ b, t.txlog = s.txlog ++ [b]) := by
  obtain ⟨_, _, _, i, -, -, -, hi⟩ | ⟨rfl, hf⟩ | ⟨q, -, rfl⟩ | ⟨q, -, rfl⟩ | ⟨-, rfl⟩ | ⟨d, o, -, ho⟩ :=
    runEvent_cases h
  · exact .inl (exec_txlog hi)
  · exact (ftxStep_txlog hf).imp_right fun hb => ⟨rfl, hb⟩
  · exact .inl (State.setFq_txlog s q _)
  · exact .inl (State.setFq_txlog s q _)
  · exact .inl (State.resetAll_txlog s)
  · exact .inl (sample_txlog ho)

/-- Settles O57: a stutter keeps `txlog`, and of the events only FTX's step adds to it. -/
theorem txlogOnlyGrows : Obligations.TxlogOnlyGrows := by
  intro s t h
  obtain ⟨-, ⟨-, rfl⟩ | ⟨e, rest, hp, he⟩⟩ := step_cases h
  · exact .inl rfl
  · exact (runEvent_txlog he).imp_right fun ⟨hftx, hb⟩ => ⟨by rw [hp, hftx, List.head?_cons], hb⟩

end Sys2Proof.Machine
end

section
/-! The four status words field by field, and what each output shows, in which domain and how wide (spec/10_state.md R37 to
R56; spec/60_exceptions.md R310). -/

namespace Sys2Proof.Machine

/-! ## The status words

Each word once more with its width left as the sum of its fields' widths, the form in which the library's lemmas about
`++` match. -/

theorem Fq.W_STATUS_eq_cast (N : Nat) (f : Fq) : f.W_STATUS N =
    (f.w_level N ++ (0#1 ++ BitVec.ofBool f.w_operr ++ f.w_result.code ++ BitVec.ofBool f.w_oversize
      ++ BitVec.ofBool f.w_discard ++ BitVec.ofBool f.w_open ++ BitVec.ofBool (f.w_full N))).cast rfl := rfl

theorem Fq.R_STATUS_eq_cast (N : Nat) (f : Fq) : f.R_STATUS N =
    (f.r_level N ++ (0#4 ++ BitVec.ofBool f.r_operr ++ f.r_result.code ++ BitVec.ofBool f.r_empty)).cast rfl := rfl

theorem Frx.D_STATUS_eq_cast (d : Frx) : d.D_STATUS = (0#3 ++ d.d_last_err.code ++ d.d_state.code).cast rfl := rfl

theorem Ftx.E_STATUS_eq_cast (e : Ftx) :
    e.E_STATUS = (0#5 ++ BitVec.ofBool e.e_pend ++ e.e_state.code).cast rfl := rfl

/-! A field is found in its word by comparing its place with the widths of the fields below it. -/

/-- The fields of `W_STATUS` (10_state.md R45), from bit 0 up. -/
theorem Fq.W_STATUS_fields (N : Nat) (f : Fq) :
    (f.W_STATUS N).getLsbD 0 = f.w_full N ∧ (f.W_STATUS N).getLsbD 1 = f.w_open
    ∧ (f.W_STATUS N).getLsbD 2 = f.w_discard ∧ (f.W_STATUS N).getLsbD 3 = f.w_oversize
    ∧ (f.W_STATUS N).extractLsb' 4 2 = f.w_result.code ∧ (f.W_STATUS N).getLsbD 6 = f.w_operr
    ∧ (f.W_STATUS N).getLsbD 7 = false ∧ (f.W_STATUS N).extractLsb' 8 8 = f.w_level N := by
  simp (disch := decide) only [W_STATUS_eq_cast, BitVec.getLsbD_cast, BitVec.extractLsb'_cast, BitVec.getLsbD_append,
    BitVec.extractLsb'_append_eq_of_le, BitVec.extractLsb'_append_eq_of_add_le]
  simp

/-- The fields of `R_STATUS` (10_state.md R46), from bit 0 up. -/
theorem Fq.R_STATUS_fields (N : Nat) (f : Fq) :
    (f.R_STATUS N).getLsbD 0 = f.r_empty ∧ (f.R_STATUS N).extractLsb' 1 2 = f.r_result.code
    ∧ (f.R_STATUS N).getLsbD 3 = f.r_operr ∧ (f.R_STATUS N).extractLsb' 4 4 = 0
    ∧ (f.R_STATUS N).extractLsb' 8 8 = f.r_level N := by
  simp (disch := decide) only [R_STATUS_eq_cast, BitVec.getLsbD_cast, BitVec.extractLsb'_cast, BitVec.getLsbD_append,
    BitVec.extractLsb'_append_eq_of_le, BitVec.extractLsb'_append_eq_of_add_le]
  simp

/-- The fields of `D_STATUS` (10_state.md R50), from bit 0 up. -/
theorem Frx.D_STATUS_fields (d : Frx) :
    d.D_STATUS.extractLsb' 0 3 = d.d_state.code ∧ d.D_STATUS.extractLsb' 3 2 = d.d_last_err.code
    ∧ d.D_STATUS.extractLsb' 5 3 = 0 := by
  simp (disch := decide) only [D_STATUS_eq_cast, BitVec.extractLsb'_cast, BitVec.extractLsb'_append_eq_of_le,
    BitVec.extractLsb'_append_eq_of_add_le]
  simp

/-- The fields of `E_STATUS` (10_state.md R52), from bit 0 up. -/
theorem Ftx.E_STATUS_fields (e : Ftx) :
    e.E_STATUS.extractLsb' 0 2 = e.e_state.code ∧ e.E_STATUS.getLsbD 2 = e.e_pend
    ∧ e.E_STATUS.extractLsb' 3 5 = 0 := by
  simp (disch := decide) only [E_STATUS_eq_cast, BitVec.getLsbD_cast, BitVec.extractLsb'_cast, BitVec.getLsbD_append,
    BitVec.extractLsb'_append_eq_of_le, BitVec.extractLsb'_append_eq_of_add_le]
  simp

/-- Settles O50: the four words field by field; the interrupt levels and the codes are as defined. -/
theorem statusWordLayouts : Obligations.StatusWordLayouts := by
  intro N f d e
  obtain ⟨w0, w1, w2, w3, w4, w6, w7, w8⟩ := f.W_STATUS_fields N
  obtain ⟨r0, r1, r3, r4, r8⟩ := f.R_STATUS_fields N
  obtain ⟨d0, d3, d5⟩ := d.D_STATUS_fields
  obtain ⟨e0, e2, e3⟩ := e.E_STATUS_fields
  exact ⟨w0, w1, w2, w3, w4, w6, w7, w8, r0, r1, r3, r4, r8, d0, d3, d5, e0, e2, e3, rfl, rfl, rfl, rfl, rfl, rfl, rfl⟩

/-! ## The outputs -/

/-- A one-bit output, zero-extended. -/
theorem setWidth_ofBool (b : Bool) : (BitVec.ofBool b).setWidth 32 = if b then 1 else 0 := by
  cases b <;> rfl

/-- A one-bit output that is the complement of a flag, zero-extended. -/
theorem setWidth_ofBool_not (b : Bool) : (BitVec.ofBool !b).setWidth 32 = if b then 0 else 1 := by
  cases b <;> rfl

section Tables

variable (q : Queue) (p : Params)

/-! The domains (10_state.md R32, R44, R47, R51). -/

theorem wDomain_table : (q = .qr → wDomain q = .radio) ∧ (q = .qh → wDomain q = .link)
    ∧ (q = .qt → wDomain q = .task) := by
  cases q <;> decide

theorem rDomain_table : (q = .qr → rDomain q = .task) ∧ (q = .qh → rDomain q = .task)
    ∧ (q = .qt → rDomain q = .link) := by
  cases q <;> decide

theorem Output.domain_of_producer :
    ∀ o ∈ [.wStatus q, .wFull q, .wLevel q, .wIrq q, .wDropCnt q, .wLongCnt q], Output.domain o = wDomain q := by
  simp [Output.domain]

theorem Output.domain_of_consumer :
    ∀ o ∈ [.rStatus q, .rEmpty q, .rLevel q, .rIrq q, .rLen q, .rRdata q], Output.domain o = rDomain q := by
  simp [Output.domain]

theorem Output.domain_of_framer :
    ∀ o ∈ [.dStatus, .dErrCnt, .dOkCnt, .eStatus, .eOkCnt], Output.domain o = .link := by
  simp [Output.domain]

/-! The widths (10_state.md R44 to R52). -/

theorem Output.width_of_status : ∀ o ∈ [.wStatus q, .rStatus q], Output.width p o = 16 := by
  simp [Output.width]

theorem Output.width_of_bit : ∀ o ∈ [.wFull q, .wIrq q, .rEmpty q, .rIrq q], Output.width p o = 1 := by
  simp [Output.width]

theorem Output.width_of_byte :
    ∀ o ∈ [.wLevel q, .rLevel q, .rLen q, .rRdata q, .dStatus, .eStatus], Output.width p o = 8 := by
  simp [Output.width]

theorem Output.width_of_counter :
    ∀ o ∈ [.wDropCnt q, .wLongCnt q, .dErrCnt, .dOkCnt, .eOkCnt], Output.width p o = p.CNT_W := by
  simp [Output.width]

end Tables

/-- The step that samples an output in its own domain. -/
theorem step_sample_own {s : State} {rest : List Event} {d : Domain} {o : Output} {v : BitVec 32}
    (hl : s.params.legal = true) (hp : s.pending = .sample d o :: rest) (hd : o.domain = d) (hv : o.value s = .ok v) :
    step s = .next { s with pending := rest, seen := v } := by
  rw [step_of_pending_cons hl hp, runEvent, sample_own hd (by rwa [Output.value_with_pending])]
  exact finish_ok hl

/-- The step that samples an output from another domain. -/
theorem step_sample_foreign {s : State} {rest : List Event} {d : Domain} {o : Output}
    (hl : s.params.legal = true) (hp : s.pending = .sample d o :: rest) (hd : o.domain ≠ d) :
    step s = .next { s with
      pending := rest, seen := foreignDraw (o.width s.params) s.draws, draws := s.draws + 1 } := by
  rw [step_of_pending_cons hl hp, runEvent, sample_foreign hd]
  exact finish_ok hl

/-- Settles O51: an observation in the output's domain and in another; the tables of domains and widths; and the value of
each output, of which only the one-bit ones and `r_len` are not written as the model has them. -/
theorem observingAnOutput : Obligations.ObservingAnOutput := by
  refine ⟨fun s rest d o hl hp => ⟨fun v hd hv => step_sample_own hl hp hd hv, fun hd =>
    ⟨_, foreignDraw_lt _ _, step_sample_foreign hl hp hd⟩⟩, fun q o p => ⟨fun h => ?_, fun h => ?_, ?_⟩, ?_⟩
  · rw [Output.domain_of_producer q o h]
    exact wDomain_table q
  · rw [Output.domain_of_consumer q o h]
    exact rDomain_table q
  · exact ⟨Output.domain_of_framer o, Output.width_of_status q p o, Output.width_of_bit q p o, Output.width_of_byte q p o,
      Output.width_of_counter q p o⟩
  · rintro s q _ _ rfl rfl
    exact ⟨rfl, congrArg _ (setWidth_ofBool _), rfl, congrArg _ (setWidth_ofBool_not _), rfl, rfl, rfl,
      congrArg _ (setWidth_ofBool _), rfl, congrArg _ (setWidth_ofBool_not _), fun _ h => by rw [Output.value, h]; rfl,
      fun _ h => by rw [Output.value, h]; rfl, rfl, rfl, rfl, rfl, rfl, rfl⟩

end Sys2Proof.Machine
end

section
/-! Pointers as positions on a ring of `2N`: occupancy, the producer's view of it, and the slots they name
(spec/20_memory.md R89; spec/42_sync.md R204 to R209). -/

namespace Sys2Proof.Machine

section Ring

variable {N : Nat} {a b c : Ptr}

/-- The successor of a pointer below `2N`: one more, or back to 0. -/
theorem ptrSucc_toNat_of_lt (h : 2 ≤ N ∧ N ≤ 128) (ha : a.toNat < 2 * N) :
    (ptrSucc N a).toNat = if a.toNat + 1 = 2 * N then 0 else a.toNat + 1 := by
  rw [ptrSucc_toNat h]
  split
  · simp [*]
  · exact Nat.mod_eq_of_lt (by omega)

/-- The difference of two pointers below `2N`: the way from the second up to the first, around the ring. -/
theorem ptrDiff_toNat_eq_ite (h : 2 * N ∣ 256 ∧ 2 ≤ N ∧ N ≤ 128) (ha : a.toNat < 2 * N) (hb : b.toNat < 2 * N) :
    (ptrDiff N a b).toNat = if b.toNat ≤ a.toNat then a.toNat - b.toNat else a.toNat + 2 * N - b.toNat := by
  rw [ptrDiff_toNat_of_lt h hb]
  split
  · rw [show a.toNat + (2 * N - b.toNat) = a.toNat - b.toNat + 2 * N by omega, Nat.add_mod_right]
    exact Nat.mod_eq_of_lt (by omega)
  · rw [Nat.mod_eq_of_lt (by omega)]
    omega

theorem ptrDiff_eq_zero_iff (h : 2 * N ∣ 256 ∧ 2 ≤ N ∧ N ≤ 128) (ha : a.toNat < 2 * N) (hb : b.toNat < 2 * N) :
    (ptrDiff N a b).toNat = 0 ↔ a = b := by
  rw [ptrDiff_toNat_eq_ite h ha hb, ← BitVec.toNat_inj]
  split <;> omega

/-- Two ways that do not go all around the ring add up. -/
theorem ptrDiff_add (h : 2 * N ∣ 256 ∧ 2 ≤ N ∧ N ≤ 128) (ha : a.toNat < 2 * N) (hb : b.toNat < 2 * N)
    (hc : c.toNat < 2 * N) (hs : (ptrDiff N a b).toNat + (ptrDiff N b c).toNat < 2 * N) :
    (ptrDiff N a c).toNat = (ptrDiff N a b).toNat + (ptrDiff N b c).toNat := by
  simp only [ptrDiff_toNat_eq_ite h, ha, hb, hc] at hs ⊢
  split_ifs at hs ⊢ <;> omega

/-- From the second pointer, its difference leads to the first. -/
theorem add_ptrDiff (h : 2 * N ∣ 256 ∧ 2 ≤ N ∧ N ≤ 128) (ha : a.toNat < 2 * N) (hb : b.toNat < 2 * N) :
    (b.toNat + (ptrDiff N a b).toNat) % (2 * N) = a.toNat := by
  rw [ptrDiff_toNat_eq_ite h ha hb]
  split
  · rw [Nat.add_sub_cancel' ‹_›, Nat.mod_eq_of_lt ha]
  · rw [show b.toNat + (a.toNat + 2 * N - b.toNat) = a.toNat + 2 * N by omega, Nat.add_mod_right,
      Nat.mod_eq_of_lt ha]

theorem ptrDiff_succ_left (h : 2 * N ∣ 256 ∧ 2 ≤ N ∧ N ≤ 128) (ha : a.toNat < 2 * N) (hb : b.toNat < 2 * N)
    (hd : (ptrDiff N a b).toNat < N) : (ptrDiff N (ptrSucc N a) b).toNat = (ptrDiff N a b).toNat + 1 := by
  rw [ptrDiff_toNat_eq_ite h ha hb] at hd ⊢
  rw [ptrDiff_toNat_eq_ite h (ptrSucc_lt h.2 a) hb, ptrSucc_toNat_of_lt h.2 ha]
  split_ifs at hd ⊢ <;> omega

theorem ptrDiff_succ_right (h : 2 * N ∣ 256 ∧ 2 ≤ N ∧ N ≤ 128) (ha : a.toNat < 2 * N) (hb : b.toNat < 2 * N)
    (hd : 0 < (ptrDiff N a b).toNat) : (ptrDiff N a (ptrSucc N b)).toNat + 1 = (ptrDiff N a b).toNat := by
  rw [ptrDiff_toNat_eq_ite h ha hb] at hd ⊢
  rw [ptrDiff_toNat_eq_ite h ha (ptrSucc_lt h.2 b), ptrSucc_toNat_of_lt h.2 hb]
  split_ifs at hd ⊢ <;> omega

/-- A pointer and its remainder modulo `2N` name the same slot. -/
theorem mod_two_mul_mod (n : Nat) : n % (2 * N) % N = n % N :=
  Nat.mod_mod_of_dvd _ (Nat.dvd_mul_left N 2)

/-! ## The gray codes of full (42_sync.md R200, R204) -/

/-- `gray` undoes `gray2bin` on eight bits. -/
theorem gray_gray2bin : ∀ g : Ptr, gray (gray2bin g) = g := by decide

/-- Half the ring further on, the gray code differs in the two bits of `FULLMASK`. -/
theorem gray_add_capacity (hN : N = 2 ∨ N = 4 ∨ N = 8 ∨ N = 16 ∨ N = 32 ∨ N = 64 ∨ N = 128) (hb : b.toNat < 2 * N) :
    gray (BitVec.ofNat 8 ((b.toNat + N) % (2 * N))) = gray b ^^^ fullMask N := by
  revert b
  rcases hN with rfl | rfl | rfl | rfl | rfl | rfl | rfl <;> decide

end Ring

section Levels

variable {p : Params} {q : Queue} {f : Fq}

/-- The ring of every queue of a legal configuration: `2N` divides 256. -/
theorem ring_of_legal (hl : p.legal = true) (q : Queue) : 2 * p.N q ∣ 256 ∧ 2 ≤ p.N q ∧ p.N q ≤ 128 :=
  two_mul_dvd (Params.legal_N hl q)

theorem ChainInv.lastStage_lt {N S : Nat} {src : Ptr} {chain : List Ptr} (h : ChainInv N S src chain) (hS : 1 ≤ S) :
    (gray2bin (lastStage chain)).toNat < 2 * N :=
  h.stage_lt _ (lastStage_mem (h.length_eq ▸ hS))

namespace Fq.Inv

theorem rq_lt (hl : p.legal = true) (h : f.Inv p q) : (gray2bin f.rq).toNat < 2 * p.N q :=
  h.rchain.lastStage_lt (le_trans (by decide) (Params.legal_S hl q))

theorem wq_lt (hl : p.legal = true) (h : f.Inv p q) : (gray2bin f.wq).toNat < 2 * p.N q :=
  h.wchain.lastStage_lt (le_trans (by decide) (Params.legal_S hl q))

/-- The producer's level is the occupancy and the slots whose pop it has not seen yet (42_sync.md R209, 3). -/
theorem w_level_eq (hl : p.legal = true) (h : f.Inv p q) :
    (f.w_level (p.N q)).toNat = f.occupancy (p.N q) + f.lagR (p.N q) := by
  have hr := ring_of_legal hl q
  exact ptrDiff_add hr h.pointers.wbin_lt h.pointers.rbin_lt (h.rq_lt hl)
    (lt_of_le_of_lt h.lags.lagR_le (by omega))

/-- `w_full` is the level `N` (42_sync.md R208). -/
theorem w_full_iff (hl : p.legal = true) (h : f.Inv p q) :
    f.w_full (p.N q) = true ↔ (f.w_level (p.N q)).toNat = p.N q := by
  have hr := ring_of_legal hl q
  have hb := h.rq_lt hl
  have hw := h.pointers.wbin_lt
  have hmod : ((gray2bin f.rq).toNat + p.N q) % (2 * p.N q) < 2 * p.N q := Nat.mod_lt _ (by omega)
  have hgray := gray_add_capacity (Params.legal_N hl q) hb
  rw [gray_gray2bin] at hgray
  have hfull : f.w_full (p.N q) = true ↔ f.wbin.toNat = ((gray2bin f.rq).toNat + p.N q) % (2 * p.N q) := by
    rw [Fq.w_full, beq_iff_eq, h.pointers.wgray_eq, ← hgray, gray_injective.eq_iff, ← BitVec.toNat_inj,
      BitVec.toNat_ofNat, Nat.mod_eq_of_lt (a := _ % (2 * p.N q)) (by omega)]
  rw [hfull, Fq.w_level, ptrDiff_toNat_eq_ite hr hw hb]
  by_cases hlt : (gray2bin f.rq).toNat < p.N q
  · rw [Nat.mod_eq_of_lt (by omega)]
    split <;> omega
  · rw [Nat.mod_eq_sub_mod (by omega), Nat.mod_eq_of_lt (by omega)]
    split <;> omega

/-- Where the producer would store, there is a free slot (20_memory.md R89, 40_queue_write.md R152). -/
theorem occupancy_lt_of_storing (hl : p.legal = true) (h : f.Inv p q) (hd : (f.assembly (p.N q)).discard = false) :
    f.occupancy (p.N q) < p.N q := by
  have hlevel := h.w_level_eq hl
  have hle := h.lags.lagR_le
  cases ho : f.w_open with
  | true =>
    have := (h.assembly.storing ho (by simpa [Fq.assembly, ho] using hd)).1
    omega
  | false =>
    have hfull : f.w_full (p.N q) = false := by simpa [Fq.assembly, ho, openFrame] using hd
    have hne : (f.w_level (p.N q)).toNat ≠ p.N q := fun he => by
      rw [(h.w_full_iff hl).mpr he] at hfull
      cases hfull
    omega

/-- What the consumer sees as non-empty holds a frame (42_sync.md R211). -/
theorem occupancy_pos_of_nonempty (hl : p.legal = true) (h : f.Inv p q) (he : f.r_empty = false) :
    0 < f.occupancy (p.N q) := by
  have hr := ring_of_legal hl q
  have hlag := h.lags.lagW_le
  by_contra h0
  have hbin : f.wbin = f.rbin :=
    (ptrDiff_eq_zero_iff hr h.pointers.wbin_lt h.pointers.rbin_lt).mp (Nat.eq_zero_of_not_pos h0)
  have hwq : f.wbin = gray2bin f.wq :=
    (ptrDiff_eq_zero_iff hr h.pointers.wbin_lt (h.wq_lt hl)).mp (Nat.le_zero.mp (by rw [Fq.lagW] at hlag; omega))
  have : f.rgray = f.wq := by rw [h.pointers.rgray_eq, ← hbin, hwq, gray_gray2bin]
  simp [Fq.r_empty, this] at he

/-! ## Slots -/

/-- Behind the last committed frame comes the producer's slot. -/
theorem slotAt_occupancy (hl : p.legal = true) (h : f.Inv p q) :
    f.slotAt (p.N q) (f.occupancy (p.N q)) = slotidx (p.N q) f.wbin := by
  rw [Fq.slotAt, slotidx, ← add_ptrDiff (ring_of_legal hl q) h.pointers.wbin_lt h.pointers.rbin_lt,
    mod_two_mul_mod, Fq.occupancy]

end Fq.Inv

@[simp] theorem Fq.slotAt_zero (N : Nat) (f : Fq) : f.slotAt N 0 = slotidx N f.rbin := rfl

/-- Slots less than `N` apart are different slots. -/
theorem Fq.slotAt_ne {N i j : Nat} (f : Fq) (hij : i < j) (hj : j < N) : f.slotAt N i ≠ f.slotAt N j := by
  intro he
  have : i % N = j % N := Nat.ModEq.add_left_cancel' f.rbin.toNat he
  rw [Nat.mod_eq_of_lt (lt_trans hij hj), Nat.mod_eq_of_lt hj] at this
  omega

/-- A committed slot is not the one the producer stores to (20_memory.md R89). -/
theorem Fq.Inv.committed_ne_storing (hl : p.legal = true) (h : f.Inv p q)
    (hd : (f.assembly (p.N q)).discard = false) {j : Nat} (hj : j < f.occupancy (p.N q)) :
    f.slotAt (p.N q) j ≠ slotidx (p.N q) f.wbin := by
  rw [← h.slotAt_occupancy hl]
  exact f.slotAt_ne hj (h.occupancy_lt_of_storing hl hd)

end Levels

end Sys2Proof.Machine
end

section
/-! In a state of the invariant every read of slot memory finds a written byte, so every instruction and every event
completes (spec/20_memory.md R84; spec/60_exceptions.md R300, R304). -/

namespace Sys2Proof.Machine

section Reads

variable {p : Params} {q : Queue} {f : Fq}

/-- What it is for a slot to hold a frame: its length byte and that many data bytes are written. -/
theorem Fq.slotFrame_eq_some {i : Nat} {F : Frame} : f.slotFrame p i = some F ↔
    ∃ len, f.mem.read (lenAddr p i) = some len ∧ f.mem.readBytes (dataAddr p i 0) len.toNat = some F := by
  unfold Fq.slotFrame
  split <;> simp_all

namespace Fq.Inv

/-- A committed slot holds a length of at most `M`, and that many bytes. -/
theorem committed (h : f.Inv p q) {j : Nat} (hj : j < f.occupancy (p.N q)) :
    ∃ len F, f.mem.read (lenAddr p (f.slotAt (p.N q) j)) = some len
      ∧ f.mem.readBytes (dataAddr p (f.slotAt (p.N q) j) 0) len.toNat = some F ∧ len.toNat ≤ p.M := by
  obtain ⟨F, hF, hle⟩ := (Option.any_eq_true _ _).mp (h.slots j hj)
  obtain ⟨len, hlen, hbytes⟩ := Fq.slotFrame_eq_some.mp hF
  rw [decide_eq_true_eq, Memory.readBytes_length _ _ _ hbytes] at hle
  exact ⟨len, F, hlen, hbytes, hle⟩

/-- What the consumer sees as the head frame is written: its length, and each of its bytes. -/
theorem head (hl : p.legal = true) (h : f.Inv p q) (he : f.r_empty = false) :
    ∃ len, lenRead p (slotidx (p.N q) f.rbin) f.mem = .ok len
      ∧ ∀ j < len.toNat, ∃ v, memRead p q (slotidx (p.N q) f.rbin) j f.mem = .ok v := by
  obtain ⟨len, F, hlen, hbytes, hle⟩ := h.committed (h.occupancy_pos_of_nonempty hl he)
  rw [Fq.slotAt_zero] at hlen hbytes
  have hN : 0 < p.N q := by have := ring_of_legal hl q; omega
  refine ⟨len, lenRead_eq_ok.mpr hlen, fun j hj => ?_⟩
  have hlt : j < F.length := by rwa [Memory.readBytes_length _ _ _ hbytes]
  have hread := Memory.read_of_readBytes _ _ _ hbytes j hj
  rw [List.getElem?_eq_getElem hlt] at hread
  exact ⟨F[j], memRead_eq_ok.mpr ⟨slotidx_lt hN _, lt_of_lt_of_le hj hle, hread⟩⟩

/-- `r_len` has a value (20_memory.md R84). -/
theorem r_len_ok (hl : p.legal = true) (h : f.Inv p q) : ∃ v, f.r_len p q = .ok v := by
  cases he : f.r_empty with
  | true => exact ⟨0, by simp [Fq.r_len, he]⟩
  | false =>
    obtain ⟨len, hlen, -⟩ := h.head hl he
    exact ⟨len, by simp [Fq.r_len, he, hlen]⟩

/-- `R_READ` returns a byte, whatever the index (20_memory.md R84). -/
theorem readByte_ok (hl : p.legal = true) (h : f.Inv p q) (idx : Byte) : ∃ v, f.readByte p q idx = .ok v := by
  cases he : f.r_empty with
  | true => exact ⟨0, by simp [Fq.readByte, he]⟩
  | false =>
    obtain ⟨len, hlen, hdata⟩ := h.head hl he
    by_cases hidx : idx.toNat < len.toNat
    · obtain ⟨v, hv⟩ := hdata _ hidx
      exact ⟨v, by simp [Fq.readByte, he, hlen, hidx, hv]⟩
    · exact ⟨0, by simp [Fq.readByte, he, hlen, hidx]⟩

theorem rRead_ok (hl : p.legal = true) (h : f.Inv p q) (idx : Byte) : ∃ g, f.rRead p q idx = .ok g := by
  obtain ⟨v, hv⟩ := h.readByte_ok hl idx
  exact ⟨{ f with r_rdata := v }, by simp [Fq.rRead, hv]⟩

theorem wByte_ok (hl : p.legal = true) (h : f.Inv p q) (d : Byte) : ∃ g, f.wByte p q d = .ok g :=
  Fq.wByte_ok (by have := ring_of_legal hl q; omega) h.assembly.len_le

end Fq.Inv

end Reads

section Completes

variable {s : State}

/-- Each queue of a state of the invariant meets the invariant of a queue. -/
theorem State.Inv.fq (h : s.Inv) (q : Queue) : (s.fq q).Inv s.params q := by
  cases q with
  | qr => exact h.qr
  | qh => exact h.qh
  | qt => exact h.qt

/-- The invariant does not look at the steps still to come. -/
theorem State.Inv.with_pending (h : s.Inv) (l : List Event) : { s with pending := l }.Inv :=
  ⟨h.legal, h.qr, h.qh, h.qt, h.frx, h.rx, h.ftx, h.tx⟩

theorem finishFq_completes {q : Queue} {r : Except Fault Fq} (hl : s.params.legal = true) (h : ∃ f, r = .ok f) :
    ∃ t, finishFq s q r = .next t := by
  obtain ⟨f, rfl⟩ := h
  exact ⟨_, finishFq_ok hl⟩

theorem finish_completes {r : Except Fault State} (hl : s.params.legal = true) (h : ∃ t, r = .ok t) :
    ∃ t, finish s r = .next t := by
  obtain ⟨t, rfl⟩ := h
  exact ⟨t, finish_ok hl⟩

/-- Whatever FRX issues on `QH.W` completes. -/
theorem frxStep_completes (h : s.Inv) (b : Byte) : ∃ t, frxStep b s = .next t := by
  have hop : ∃ f, (s.frx.byte s.params b).2.run s.params s.qh = .ok f := by
    cases (s.frx.byte s.params b).2 with
    | byte v => exact h.qh.wByte_ok h.legal v
    | nop | commit | abort => exact ⟨_, rfl⟩
  obtain ⟨f, hf⟩ := hop
  exact ⟨_, frxStep_eq_next.mpr ⟨h.legal, f, hf, rfl⟩⟩

/-- In a state of the invariant every instruction answers a next state. -/
theorem exec_completes (h : s.Inv) (i : Instr) : ∃ t, exec i s = .next t := by
  cases i with
  | wByte q d => exact finishFq_completes h.legal ((h.fq q).wByte_ok h.legal d)
  | rRead q idx => exact finishFq_completes h.legal ((h.fq q).rRead_ok h.legal idx)
  | wNop | wCommit | wAbort | wClrcnt | wRsv5 | wRsv67 | rNop | rPop | rClrerr | rRsv =>
    exact finishFq_completes h.legal ⟨_, rfl⟩
  | wireFlag | wireEsc | wireTFlag | wireTEsc | wireData => exact frxStep_completes h _

/-- FTX reads `QT` in IDLE and in DATA, and finds a byte. -/
theorem ftxStep_ok (h : s.Inv) : ∃ t, ftxStep s = .ok t := by
  unfold ftxStep
  split
  · exact ⟨_, rfl⟩
  · split
    · obtain ⟨v, hv⟩ := h.qt.r_len_ok h.legal
      simp only [ftxIdle, hv]
      split <;> exact ⟨_, rfl⟩
    · exact ⟨_, rfl⟩
    · obtain ⟨f, hf⟩ := h.qt.rRead_ok h.legal s.ftx.e_idx
      simp only [ftxData, hf]
      exact ⟨_, rfl⟩
    · exact ⟨_, rfl⟩

/-- Every output has a value, `r_len` among them. -/
theorem Output.value_ok (h : s.Inv) (o : Output) : ∃ v, o.value s = .ok v := by
  cases o with
  | rLen q =>
    obtain ⟨v, hv⟩ := (h.fq q).r_len_ok h.legal
    exact ⟨v.setWidth 32, by rw [Output.value, hv]; rfl⟩
  | _ => exact ⟨_, rfl⟩

theorem sample_ok (h : s.Inv) (d : Domain) (o : Output) : ∃ t, sample d o s = .ok t := by
  by_cases hd : o.domain = d
  · obtain ⟨v, hv⟩ := o.value_ok h
    exact ⟨_, sample_own hd hv⟩
  · exact ⟨_, sample_foreign hd⟩

/-- An event either happens or is refused. -/
theorem runEvent_completes (h : s.Inv) (e : Event) :
    (∃ t, runEvent e s = .next t) ∨ ∃ r, runEvent e s = .refused r := by
  cases e with
  | command a port raw =>
    simp only [runEvent, present]
    split
    · split
      · exact .inl (exec_completes h _)
      · exact .inr ⟨_, rfl⟩
    · exact .inr ⟨_, rfl⟩
  | ftx => exact .inl (finish_completes h.legal (ftxStep_ok h))
  | syncW2R | syncR2W | reset => exact .inl (finish_completes h.legal ⟨_, rfl⟩)
  | partialReset => exact .inr ⟨_, rfl⟩
  | sample d o => exact .inl (finish_completes h.legal (sample_ok h d o))

/-- Settles O54: with nothing pending the step is a stutter, and the next event happens or is refused. -/
theorem noStepFaults : Obligations.NoStepFaults := by
  intro s x h hx
  cases hp : s.pending with
  | nil => simp [step, h.legal, hp] at hx
  | cons e rest =>
    rw [step_of_pending_cons h.legal hp] at hx
    obtain ⟨t, ht⟩ | ⟨r, hr⟩ := runEvent_completes (h.with_pending rest) e
    · cases ht.symm.trans hx
    · cases hr.symm.trans hx

end Completes

end Sys2Proof.Machine
end

section
/-! What a step can do to a queue: nothing its frames see, one stored byte, one published frame, or one pop; and with
that which bytes of slot memory change and how the frames move (spec/20_memory.md R81, R89, R91, R97, R98). -/

namespace Sys2Proof.Machine

/-- What one step other than `RESET` can do to the slot memory and the two pointers of queue `q`, from `f` to `g`. -/
inductive Fq.Move (p : Params) (q : Queue) (f g : Fq) : Prop
  /-- neither memory nor pointers change -/
  | idle (mem : g.mem = f.mem) (wbin : g.wbin = f.wbin) (rbin : g.rbin = f.rbin)
  /-- `W_BYTE` stores a byte (40_queue_write.md R151) -/
  | store (d : Byte) (kept : (f.assembly (p.N q)).discard = false) (len_lt : (f.assembly (p.N q)).len.toNat < p.M)
      (mem : g.mem = f.mem.write (dataAddr p (slotidx (p.N q) f.wbin) (f.assembly (p.N q)).len.toNat) d)
      (wbin : g.wbin = f.wbin) (rbin : g.rbin = f.rbin)
  /-- `W_COMMIT` publishes the frame (40_queue_write.md R155) -/
  | publish (kept : (f.assembly (p.N q)).discard = false)
      (mem : g.mem = f.mem.write (lenAddr p (slotidx (p.N q) f.wbin)) (f.assembly (p.N q)).len)
      (wbin : g.wbin = ptrSucc (p.N q) f.wbin) (rbin : g.rbin = f.rbin) (result : g.w_result = .ok)
  /-- `R_POP` takes the head frame (41_queue_read.md R183) -/
  | pop (nonempty : f.r_empty = false) (mem : g.mem = f.mem) (wbin : g.wbin = f.wbin)
      (rbin : g.rbin = ptrSucc (p.N q) f.rbin) (result : g.r_result = .ok)

section Moves

variable {p : Params} {q : Queue} {f g : Fq} {s t : State}

namespace Fq.Move

theorem refl : Move p q f f := .idle rfl rfl rfl

theorem of_wByte {d : Byte} (h : f.wByte p q d = .ok g) : Move p q f g := by
  obtain ⟨-, rfl⟩ | ⟨-, -, rfl⟩ | ⟨hd, hlen, -, rfl⟩ := Fq.wByte_cases h
  · exact .idle rfl rfl rfl
  · exact .idle rfl rfl rfl
  · exact .store d hd hlen rfl rfl rfl

theorem of_wCommit : Move p q f (f.wCommit p q) := by
  obtain ⟨-, h⟩ | ⟨-, -, h⟩ | ⟨hd, -, h⟩ := Fq.wCommit_cases p q f <;> rw [h]
  · exact .idle rfl rfl rfl
  · exact .idle rfl rfl rfl
  · exact .publish hd rfl rfl rfl rfl

theorem of_rRead {idx : Byte} (h : f.rRead p q idx = .ok g) : Move p q f g := by
  obtain ⟨_, -, rfl⟩ := Fq.rRead_cases h
  exact .idle rfl rfl rfl

theorem of_rPop : Move p q f (f.rPop (p.N q)) := by
  obtain ⟨-, h⟩ | ⟨he, h⟩ := Fq.rPop_cases (p.N q) f <;> rw [h]
  · exact .idle rfl rfl rfl
  · exact .pop he rfl rfl rfl rfl

theorem of_syncW2R : Move p q f f.syncW2R := .idle rfl rfl rfl

theorem of_syncR2W : Move p q f f.syncR2W := .idle rfl rfl rfl

end Fq.Move

/-- A step of one queue moves that queue, and leaves the others. -/
theorem Fq.Move.setFq (h : Fq.Move s.params q (s.fq q) f) (q' : Queue) :
    Fq.Move s.params q' (s.fq q') ((s.setFq q f).fq q') := by
  by_cases hq : q' = q
  · subst hq
    rwa [State.fq_setFq]
  · rw [State.fq_setFq_ne _ _ _ _ hq]
    exact .refl

/-- An operation that cannot fault takes its step. -/
theorem eq_setFq_of_finishFq_ok (h : finishFq s q (.ok f) = .next t) : t = s.setFq q f := by
  obtain ⟨-, _, ⟨⟩, rfl⟩ := finishFq_eq_next.mp h
  rfl

theorem finishFq_moves {r : Except Fault Fq} (h : finishFq s q r = .next t)
    (hm : ∀ f, r = .ok f → Fq.Move s.params q (s.fq q) f) (q' : Queue) : Fq.Move s.params q' (s.fq q') (t.fq q') := by
  obtain ⟨-, f, hf, rfl⟩ := finishFq_eq_next.mp h
  exact (hm f hf).setFq q'

theorem finishFq_ok_moves (h : finishFq s q (.ok f) = .next t) (hm : Fq.Move s.params q (s.fq q) f) (q' : Queue) :
    Fq.Move s.params q' (s.fq q') (t.fq q') := by
  rw [eq_setFq_of_finishFq_ok h]
  exact hm.setFq q'

/-- An FRX step moves `QH` alone. -/
theorem frxStep_moves {b : Byte} (h : frxStep b s = .next t) (q' : Queue) :
    Fq.Move s.params q' (s.fq q') (t.fq q') := by
  obtain ⟨-, f, hf, rfl⟩ := frxStep_eq_next.mp h
  have hm : Fq.Move s.params .qh s.qh f := by
    obtain ⟨-, rfl⟩ | ⟨v, -, hv⟩ | ⟨-, rfl⟩ | ⟨-, rfl⟩ := FrxOp.run_cases hf
    · exact .refl
    · exact .of_wByte hv
    · exact .of_wCommit
    · exact .idle rfl rfl rfl
  cases q' with
  | qh => exact hm
  | qr | qt => exact .refl

theorem exec_moves {i : Instr} (h : exec i s = .next t) (q' : Queue) : Fq.Move s.params q' (s.fq q') (t.fq q') := by
  cases i with
  | wByte q d => exact finishFq_moves h (fun _ hf => .of_wByte hf) q'
  | rRead q idx => exact finishFq_moves h (fun _ hf => .of_rRead hf) q'
  | wCommit q => exact finishFq_ok_moves h .of_wCommit q'
  | rPop q => exact finishFq_ok_moves h .of_rPop q'
  | wNop q | wAbort q | wClrcnt q | wRsv5 q | wRsv67 q | rNop q | rClrerr q | rRsv q =>
    exact finishFq_ok_moves h (.idle rfl rfl rfl) q'
  | wireFlag | wireEsc | wireTFlag | wireTEsc | wireData => exact frxStep_moves h q'

/-- An FTX step moves `QT` alone: in DATA it reads, in CLOSE it pops. -/
theorem ftxStep_moves (h : ftxStep s = .ok t) (q' : Queue) : Fq.Move s.params q' (s.fq q') (t.fq q') := by
  obtain ⟨-, rfl⟩ | ⟨-, ⟨-, hi⟩ | ⟨-, rfl⟩ | ⟨-, hd⟩ | ⟨-, rfl⟩⟩ := ftxStep_cases h
  · cases q' <;> exact .refl
  · obtain ⟨-, rfl⟩ | ⟨-, _, -, rfl⟩ := ftxIdle_cases hi
    · exact .refl
    · cases q' <;> exact .refl
  · cases q' <;> exact .refl
  · obtain ⟨_, -, rfl⟩ := ftxData_cases hd
    cases q' <;> exact .idle rfl rfl rfl
  · cases q' with
    | qt => exact .of_rPop
    | qr | qh => exact .refl

theorem sample_moves {d : Domain} {o : Output} (h : sample d o s = .ok t) (q' : Queue) :
    Fq.Move s.params q' (s.fq q') (t.fq q') := by
  obtain ⟨-, _, -, rfl⟩ | ⟨-, rfl⟩ := sample_cases h <;> cases q' <;> exact .refl

/-- Every event but `RESET` moves every queue. -/
theorem runEvent_moves {e : Event} (h : runEvent e s = .next t) :
    (e = .reset ∧ t = resetAll s) ∨ (e ≠ .reset ∧ ∀ q, Fq.Move s.params q (s.fq q) (t.fq q)) := by
  obtain ⟨_, _, _, i, rfl, -, -, hi⟩ | ⟨rfl, hf⟩ | ⟨q, rfl, rfl⟩ | ⟨q, rfl, rfl⟩ | ⟨rfl, rfl⟩ | ⟨d, o, rfl, ho⟩ :=
    runEvent_cases h
  · exact .inr ⟨nofun, exec_moves hi⟩
  · exact .inr ⟨nofun, ftxStep_moves hf⟩
  · exact .inr ⟨nofun, Fq.Move.of_syncW2R.setFq⟩
  · exact .inr ⟨nofun, Fq.Move.of_syncR2W.setFq⟩
  · exact .inl ⟨rfl, rfl⟩
  · exact .inr ⟨nofun, sample_moves ho⟩

/-- Every step but `RESET` moves every queue; `RESET` sets its registers and keeps its memory. -/
theorem step_moves (h : step s = .next t) :
    (s.pending.head? = some .reset ∧ ∀ q, t.fq q = Fq.resetTo (s.params.S q) (s.fq q).mem)
    ∨ (s.pending.head? ≠ some .reset ∧ ∀ q, Fq.Move s.params q (s.fq q) (t.fq q)) := by
  obtain ⟨-, ⟨hp, rfl⟩ | ⟨e, rest, hp, he⟩⟩ := step_cases h
  · exact .inr ⟨by simp [hp], fun _ => .refl⟩
  · obtain ⟨rfl, rfl⟩ | ⟨hne, hm⟩ := runEvent_moves he
    · exact .inl ⟨by simp [hp], fun q => by simp⟩
    · exact .inr ⟨by simpa [hp] using hne, fun q => by simpa using hm q⟩

/-! ## Which bytes change -/

/-- A byte stored to the producer's slot, its length or one of its data bytes, is none of a committed slot. -/
theorem Fq.Inv.read_write_storing (hl : p.legal = true) (h : f.Inv p q)
    (hd : (f.assembly (p.N q)).discard = false) {j a b : Nat} {v : Byte} (hj : j < f.occupancy (p.N q))
    (ha : lenAddr p (f.slotAt (p.N q) j) ≤ a) (ha' : a < lenAddr p (f.slotAt (p.N q) j) + (p.M + 1))
    (hb : lenAddr p (slotidx (p.N q) f.wbin) ≤ b) (hb' : b < lenAddr p (slotidx (p.N q) f.wbin) + (p.M + 1)) :
    (f.mem.write b v).read a = f.mem.read a := by
  have hapart := slot_apart p (h.committed_ne_storing hl hd hj) ha ha'
  exact Memory.read_write_other _ _ _ _ (by omega)

/-- A move leaves every byte of a committed slot as it was (20_memory.md R89). -/
theorem Fq.Move.read_committed (hl : p.legal = true) (h : f.Inv p q) (hm : Fq.Move p q f g) {j a : Nat}
    (hj : j < f.occupancy (p.N q)) (ha : lenAddr p (f.slotAt (p.N q) j) ≤ a)
    (ha' : a < lenAddr p (f.slotAt (p.N q) j) + (p.M + 1)) : g.mem.read a = f.mem.read a := by
  cases hm with
  | idle mem | pop _ mem => rw [mem]
  | store d hd hlen mem =>
    rw [mem]
    exact h.read_write_storing hl hd hj ha ha' (by rw [dataAddr_eq]; omega) (by rw [dataAddr_eq]; omega)
  | publish hd mem =>
    rw [mem]
    exact h.read_write_storing hl hd hj ha ha' le_rfl (by omega)

/-- Settles O60: `RESET` keeps the memory, and what any other step stores lies in the producer's slot. -/
theorem committedSlotsAreNotWritten : Obligations.CommittedSlotsAreNotWritten := by
  intro s t q j a h ht hj ha ha'
  obtain ⟨-, hreset⟩ | ⟨-, hm⟩ := step_moves ht
  · rw [hreset, Fq.resetTo_mem]
  · rw [lenAddr_succ] at ha'
    exact (hm q).read_committed h.legal (h.fq q) hj ha ha'

/-- The one byte `W_BYTE` can change, and when it changes none (40_queue_write.md R151). -/
theorem Fq.wByte_read {d : Byte} {a : Nat} (h : f.wByte p q d = .ok g)
    (ha : a ≠ dataAddr p (slotidx (p.N q) f.wbin) (f.assembly (p.N q)).len.toNat
      ∨ (f.assembly (p.N q)).discard = true ∨ (f.assembly (p.N q)).len.toNat = p.M) :
    g.mem.read a = f.mem.read a := by
  obtain ⟨-, rfl⟩ | ⟨-, -, rfl⟩ | ⟨hd, hlen, -, rfl⟩ := Fq.wByte_cases h
  · rfl
  · rfl
  · rcases ha with hne | hdis | hfull
    · exact Memory.read_write_other _ _ _ _ hne
    · rw [hd] at hdis
      cases hdis
    · omega

/-- The one byte `W_COMMIT` can change, and when it changes none (40_queue_write.md R155). -/
theorem Fq.wCommit_read {a : Nat}
    (ha : a ≠ lenAddr p (slotidx (p.N q) f.wbin) ∨ (f.wCommit p q).w_result ≠ .ok) :
    (f.wCommit p q).mem.read a = f.mem.read a := by
  obtain ⟨-, h⟩ | ⟨-, -, h⟩ | ⟨-, -, h⟩ := Fq.wCommit_cases p q f <;> rw [h] at ha ⊢
  · rfl
  · rfl
  · exact Memory.read_write_other _ _ _ _ (ha.resolve_right fun hne => hne rfl)

/-- Settles O15: the stores of `W_BYTE` and of `W_COMMIT`; no other producer operation has one. -/
theorem producerMemoryFrame : Obligations.ProducerMemoryFrame := by
  intro s t q i hport ht
  refine ⟨?_, ?_, fun hbyte hcommit a => ?_⟩
  · rintro d rfl a ha
    obtain ⟨-, f, hf, rfl⟩ := finishFq_eq_next.mp ht
    rw [State.fq_setFq]
    exact Fq.wByte_read hf ha
  · rintro d rfl a ha
    obtain rfl := eq_setFq_of_finishFq_ok ht
    rw [State.fq_setFq] at ha ⊢
    exact Fq.wCommit_read ha
  · cases i with
    | wByte _ d => cases hport; exact absurd rfl (hbyte d)
    | wCommit _ d => cases hport; exact absurd rfl (hcommit d)
    | wNop | wAbort | wClrcnt | wRsv5 | wRsv67 =>
      cases hport
      obtain rfl := eq_setFq_of_finishFq_ok ht
      rw [State.fq_setFq]
      rfl
    | rNop | rRead | rPop | rClrerr | rRsv | wireFlag | wireEsc | wireTFlag | wireTEsc | wireData => cases hport

end Moves

end Sys2Proof.Machine
end

section
/-! The frames of a queue under a move: one more at the back, one less at the front, or the same (spec/20_memory.md R89,
R91, R97). -/

namespace Sys2Proof.Machine

variable {p : Params} {q : Queue} {f g : Fq}

/-! ## Occupancy and slots -/

theorem Fq.occupancy_congr {N : Nat} (hw : g.wbin = f.wbin) (hr : g.rbin = f.rbin) :
    g.occupancy N = f.occupancy N := by
  rw [Fq.occupancy, hw, hr, Fq.occupancy]

theorem Fq.slotAt_congr {N : Nat} (hr : g.rbin = f.rbin) (j : Nat) : g.slotAt N j = f.slotAt N j := by
  rw [Fq.slotAt, hr, Fq.slotAt]

/-- After a pop, what was second from the head is the head. -/
theorem Fq.slotAt_of_rbin_succ {N : Nat} (hN : 2 ≤ N ∧ N ≤ 128) (hr : g.rbin = ptrSucc N f.rbin) (j : Nat) :
    g.slotAt N j = f.slotAt N (j + 1) := by
  rw [Fq.slotAt, hr, ptrSucc_toNat hN, Nat.add_mod, mod_two_mul_mod, ← Nat.add_mod, Fq.slotAt, Nat.add_assoc,
    Nat.add_comm 1 j]

theorem Fq.occupancy_resetTo (N S : Nat) (m : Memory) : (Fq.resetTo S m).occupancy N = 0 := by
  simp [Fq.occupancy, Fq.resetTo, ptrDiff]

theorem Fq.frames_resetTo (p : Params) (q : Queue) (S : Nat) (m : Memory) : (Fq.resetTo S m).frames p q = [] := by
  rw [Fq.frames, Fq.occupancy_resetTo]
  rfl

/-! ## The frame being assembled -/

namespace Fq.Inv

/-- The producer's byte count is `w_len`, an unopened frame's included. -/
theorem assembly_len (h : f.Inv p q) : (f.assembly (p.N q)).len = f.w_len := by
  cases ho : f.w_open with
  | true => simp [Fq.assembly, ho]
  | false => simp [Fq.assembly, ho, openFrame, (h.assembly.closed ho).1]

/-- The bytes counted of a frame being stored are written (20_memory.md R84). -/
theorem assembled_isSome (h : f.Inv p q) (hd : (f.assembly (p.N q)).discard = false) :
    (f.assembled p q).isSome = true := by
  cases ho : f.w_open with
  | true => exact (h.assembly.storing ho (by simpa [Fq.assembly, ho] using hd)).2
  | false => simp [Fq.assembled, (h.assembly.closed ho).1]

/-- Publishing the length makes the producer's slot hold the frame assembled (40_queue_write.md R155). -/
theorem slotFrame_publish (h : f.Inv p q) (hd : (f.assembly (p.N q)).discard = false)
    (hmem : g.mem = f.mem.write (lenAddr p (slotidx (p.N q) f.wbin)) (f.assembly (p.N q)).len) :
    g.slotFrame p (slotidx (p.N q) f.wbin) = f.assembled p q := by
  obtain ⟨F, hF⟩ := Option.isSome_iff_exists.mp (h.assembled_isSome hd)
  rw [h.assembly_len] at hmem
  rw [hF]
  refine Fq.slotFrame_eq_some.mpr ⟨f.w_len, ?_, ?_⟩ <;> rw [hmem]
  · exact Memory.read_write_same _ _ _
  · exact (Memory.readBytes_write_outside _ _ _ _ _ (.inl (by rw [dataAddr_eq]; omega))).trans hF

end Fq.Inv

/-! ## The frames -/

namespace Fq.Move

/-- A move leaves every committed frame, byte for byte, in its slot. -/
theorem slotFrame_committed (hl : p.legal = true) (h : f.Inv p q) (hm : Move p q f g) {j : Nat}
    (hj : j < f.occupancy (p.N q)) :
    g.slotFrame p (f.slotAt (p.N q) j) = f.slotFrame p (f.slotAt (p.N q) j) := by
  obtain ⟨len, F, hlen, hbytes, hle⟩ := h.committed hj
  have hlen' := (hm.read_committed hl h hj le_rfl (by omega)).trans hlen
  have hbytes' : g.mem.readBytes (dataAddr p (f.slotAt (p.N q) j) 0) len.toNat = some F :=
    (Memory.readBytes_congr _ _ fun k hk =>
      hm.read_committed hl h hj (by rw [dataAddr_eq]; omega) (by rw [dataAddr_eq]; omega)).trans hbytes
  rw [Fq.slotFrame_eq_some.mpr ⟨len, hlen, hbytes⟩, Fq.slotFrame_eq_some.mpr ⟨len, hlen', hbytes'⟩]

/-- A move of neither pointer keeps the frames (20_memory.md R97). -/
theorem frames_of_still (hl : p.legal = true) (h : f.Inv p q) (hm : Move p q f g) (hw : g.wbin = f.wbin)
    (hr : g.rbin = f.rbin) : g.frames p q = f.frames p q := by
  rw [Fq.frames, Fq.frames, Fq.occupancy_congr hw hr]
  refine List.map_congr_left fun j hj => ?_
  rw [Fq.slotAt_congr hr]
  exact hm.slotFrame_committed hl h (List.mem_range.mp hj)

/-- A move of `wbin` is a commit: the frame assembled stands behind the others (20_memory.md R91, R97). -/
theorem frames_of_wbin_ne (hl : p.legal = true) (h : f.Inv p q) (hm : Move p q f g) (hne : g.wbin ≠ f.wbin) :
    g.frames p q = f.frames p q ++ [f.assembled p q] ∧ (f.assembled p q).isSome = true ∧ g.w_result = .ok := by
  have hslots := fun j (hj : j < f.occupancy (p.N q)) => hm.slotFrame_committed hl h hj
  cases hm with
  | idle _ hw | store _ _ _ _ hw | pop _ _ hw => exact absurd hw hne
  | publish hd hmem hw hr hres =>
    have hocc : g.occupancy (p.N q) = f.occupancy (p.N q) + 1 := by
      rw [Fq.occupancy, hw, hr]
      exact ptrDiff_succ_left (ring_of_legal hl q) h.pointers.wbin_lt h.pointers.rbin_lt
        (h.occupancy_lt_of_storing hl hd)
    refine ⟨?_, h.assembled_isSome hd, hres⟩
    rw [Fq.frames, hocc, List.range_succ, List.map_append, List.map_singleton]
    simp only [Fq.slotAt_congr hr]
    rw [List.map_congr_left fun j hj => hslots j (List.mem_range.mp hj), h.slotAt_occupancy hl,
      h.slotFrame_publish hd hmem, Fq.frames]

/-- A move of `rbin` alone is a pop: the head frame is gone (20_memory.md R91, R97). -/
theorem frames_of_rbin_ne (hl : p.legal = true) (h : f.Inv p q) (hm : Move p q f g) (hne : g.rbin ≠ f.rbin) :
    g.frames p q = (f.frames p q).tail ∧ f.frames p q ≠ [] ∧ g.r_result = .ok := by
  have hslots := fun j (hj : j < f.occupancy (p.N q)) => hm.slotFrame_committed hl h hj
  cases hm with
  | idle _ _ hr | store _ _ _ _ _ hr | publish _ _ _ hr => exact absurd hr hne
  | pop he hmem hw hr hres =>
    have hring := ring_of_legal hl q
    have hocc : g.occupancy (p.N q) + 1 = f.occupancy (p.N q) := by
      rw [Fq.occupancy, hw, hr]
      exact ptrDiff_succ_right hring h.pointers.wbin_lt h.pointers.rbin_lt (h.occupancy_pos_of_nonempty hl he)
    have hframes : f.frames p q = f.slotFrame p (f.slotAt (p.N q) 0) :: g.frames p q := by
      rw [Fq.frames, ← hocc, List.range_succ_eq_map, List.map_cons, List.map_map, Fq.frames]
      congr 1
      refine List.map_congr_left fun j hj => ?_
      rw [Fq.slotAt_of_rbin_succ hring.2 hr, Function.comp_apply]
      exact (hslots (j + 1) (hocc ▸ Nat.succ_lt_succ (List.mem_range.mp hj))).symm
    rw [hframes]
    exact ⟨rfl, List.cons_ne_nil _ _, hres⟩

end Fq.Move

/-- Settles O59: `RESET` empties the queue; of the moves only a commit moves `wbin`, and only a pop moves `rbin`. -/
theorem queuesAreFifo : Obligations.QueuesAreFifo := by
  intro s t q h ht
  obtain ⟨hr, hreset⟩ | ⟨hr, hm⟩ := step_moves ht
  · rw [hreset]
    exact ⟨fun _ => Fq.frames_resetTo .., fun hne => absurd hr hne, fun hne => absurd hr hne, fun hne => absurd hr hne⟩
  · exact ⟨fun he => absurd he hr, fun _ hw => (hm q).frames_of_wbin_ne h.legal (h.fq q) hw,
      fun _ _ hb => (hm q).frames_of_rbin_ne h.legal (h.fq q) hb,
      fun _ hw hb => (hm q).frames_of_still h.legal (h.fq q) hw hb⟩

end Sys2Proof.Machine
end

section
/-! Decoding and encoding undo each other: a command word is its operation code above its operand, and a wire byte is one
of the five classes (spec/30_encoding.md R110 to R116, R119). -/

namespace Sys2Proof

variable {p : Params} {q : Queue} {port : Port} {raw : Nat} {i : Instr}

/-! ## The fields of a command word (30_encoding.md R111, R113) -/

@[simp] theorem opField_append (op : BitVec 3) (d : Byte) : opField (op ++ d) = op :=
  BitVec.extractLsb'_append_eq_left

@[simp] theorem operandField_append (op : BitVec 3) (d : Byte) : operandField (op ++ d) = d :=
  BitVec.extractLsb'_append_eq_right

theorem opField_append_operandField (w : BitVec 11) : opField w ++ operandField w = w :=
  (BitVec.extractLsb'_append_extractLsb'_eq_extractLsb' rfl).trans BitVec.extractLsb'_eq_self

/-- The free bits of a reserved code are the low bits of `OP`. -/
theorem extractLsb'_append_append {m n : Nat} (c : BitVec m) (x : BitVec n) (d : Byte) :
    ((c ++ x) ++ d).extractLsb' 8 n = x :=
  (BitVec.extractLsb'_append_eq_of_le (Nat.le_refl 8)).trans BitVec.extractLsb'_append_eq_right

theorem toNat_append_eq_add {m n : Nat} (c : BitVec m) (x : BitVec n) :
    (c ++ x).toNat = c.toNat * 2 ^ n + x.toNat := by
  rw [BitVec.toNat_append, ← Nat.shiftLeft_add_eq_or_of_lt x.isLt, Nat.shiftLeft_eq]

theorem commandWord_eq_toNat (op : BitVec 3) (d : Byte) : commandWord op d = (op ++ d : BitVec 11).toNat :=
  (BitVec.toNat_append op d).symm

theorem commandWord_eq_add (op : BitVec 3) (d : Byte) : commandWord op d = op.toNat * 0x100 + d.toNat :=
  (commandWord_eq_toNat op d).trans (toNat_append_eq_add op d)

/-! ## The operation codes, the reserved ones with their free bits (30_encoding.md R112, R114) -/

theorem pcw_op_cases : ∀ op : BitVec 3,
    op = 0b000 ∨ op = 0b001 ∨ op = 0b010 ∨ op = 0b011 ∨ op = 0b100 ∨ op = 0b101
      ∨ ∃ x : BitVec 1, op = 0b11#2 ++ x := by
  decide

theorem ccw_op_cases : ∀ op : BitVec 3,
    op = 0b000 ∨ op = 0b001 ∨ op = 0b010 ∨ op = 0b011 ∨ ∃ xx : BitVec 2, op = 0b1#1 ++ xx := by
  decide

theorem decodePcw_reserved (q : Queue) (d : Byte) (x : BitVec 1) :
    decodePcw q ((0b11#2 ++ x) ++ d) = .wRsv67 q x d := by
  have hop : (0b11#2 ++ x).toNat = x.toNat + 6 := (toNat_append_eq_add _ x).trans (Nat.add_comm _ _)
  rw [decodePcw, opField_append, operandField_append, extractLsb'_append_append, hop]
  rfl

theorem decodeCcw_reserved (q : Queue) (d : Byte) (xx : BitVec 2) :
    decodeCcw q ((0b1#1 ++ xx) ++ d) = .rRsv q xx d := by
  have hop : (0b1#1 ++ xx).toNat = xx.toNat + 4 := (toNat_append_eq_add _ xx).trans (Nat.add_comm _ _)
  rw [decodeCcw, opField_append, operandField_append, extractLsb'_append_append, hop]
  rfl

theorem decodePcw_append (q : Queue) (d : Byte) :
    decodePcw q ((0b000 : BitVec 3) ++ d) = .wNop q d
    ∧ decodePcw q ((0b001 : BitVec 3) ++ d) = .wByte q d
    ∧ decodePcw q ((0b010 : BitVec 3) ++ d) = .wCommit q d
    ∧ decodePcw q ((0b011 : BitVec 3) ++ d) = .wAbort q d
    ∧ decodePcw q ((0b100 : BitVec 3) ++ d) = .wClrcnt q d
    ∧ decodePcw q ((0b101 : BitVec 3) ++ d) = .wRsv5 q d
    ∧ ∀ x : BitVec 1, decodePcw q ((0b11#2 ++ x) ++ d) = .wRsv67 q x d := by
  refine ⟨?_, ?_, ?_, ?_, ?_, ?_, decodePcw_reserved q d⟩ <;>
    simp only [decodePcw, opField_append, operandField_append] <;> rfl

theorem decodeCcw_append (q : Queue) (d : Byte) :
    decodeCcw q ((0b000 : BitVec 3) ++ d) = .rNop q d
    ∧ decodeCcw q ((0b001 : BitVec 3) ++ d) = .rRead q d
    ∧ decodeCcw q ((0b010 : BitVec 3) ++ d) = .rPop q d
    ∧ decodeCcw q ((0b011 : BitVec 3) ++ d) = .rClrerr q d
    ∧ ∀ xx : BitVec 2, decodeCcw q ((0b1#1 ++ xx) ++ d) = .rRsv q xx d := by
  refine ⟨?_, ?_, ?_, ?_, decodeCcw_reserved q d⟩ <;>
    simp only [decodeCcw, opField_append, operandField_append] <;> rfl

/-! ## The wire bytes (30_encoding.md R119) -/

/-- The framing bytes are told apart because they are distinct (00_scope.md R7). -/
theorem decodeWire_framing (hl : p.legal = true) :
    decodeWire p p.FLAG = .wireFlag ∧ decodeWire p p.ESC = .wireEsc ∧ decodeWire p p.T_FLAG = .wireTFlag
      ∧ decodeWire p p.T_ESC = .wireTEsc := by
  obtain ⟨hFE, hFT, hFU, hET, hEU, hTU⟩ := Params.legal_bytes hl
  simp [decodeWire, hFE.symm, hFT.symm, hFU.symm, hET.symm, hEU.symm, hTU.symm]

theorem decodeWire_data {b : Byte} (hb : p.framingByte b = false) : decodeWire p b = .wireData b := by
  obtain ⟨hF, hE, hT, hU⟩ := Params.framingByte_eq_false.mp hb
  simp [decodeWire, hF, hE, hT, hU]

/-! ## Decoding a value of the port's width (30_encoding.md R110) -/

theorem decode_w (w : BitVec 11) : decode p (.w q) w.toNat = .ok (decodePcw q w) := by
  simp [decode, w.isLt]

theorem decode_r (w : BitVec 11) : decode p (.r q) w.toNat = .ok (decodeCcw q w) := by
  simp [decode, w.isLt]

theorem decode_rx (b : Byte) : decode p .rx b.toNat = .ok (decodeWire p b) := by
  simp [decode, b.isLt]

theorem decode_w_commandWord (op : BitVec 3) (d : Byte) :
    decode p (.w q) (commandWord op d) = .ok (decodePcw q (op ++ d)) := by
  rw [commandWord_eq_toNat, decode_w]

theorem decode_r_commandWord (op : BitVec 3) (d : Byte) :
    decode p (.r q) (commandWord op d) = .ok (decodeCcw q (op ++ d)) := by
  rw [commandWord_eq_toNat, decode_r]

theorem exists_decode_of_lt (h : raw < 2 ^ port.width) : ∃ i, decode p port raw = .ok i := by
  cases port with
  | w q => exact ⟨_, decode_w (BitVec.ofNatLT raw h)⟩
  | r q => exact ⟨_, decode_r (BitVec.ofNatLT raw h)⟩
  | rx => exact ⟨_, decode_rx (BitVec.ofNatLT raw h)⟩

theorem lt_of_decode (h : decode p port raw = .ok i) : raw < 2 ^ port.width := by
  by_contra hge
  cases port with
  | w | r | rx =>
    rw [Port.width] at hge
    rw [decode, if_neg hge] at h
    cases h

/-- What decodes is a bit vector of the port's width, read as the form of that port. -/
theorem decode_cases (h : decode p port raw = .ok i) :
    (∃ q w, port = .w q ∧ raw = BitVec.toNat w ∧ i = decodePcw q w)
    ∨ (∃ q w, port = .r q ∧ raw = BitVec.toNat w ∧ i = decodeCcw q w)
    ∨ ∃ b, port = .rx ∧ raw = BitVec.toNat b ∧ i = decodeWire p b := by
  obtain ⟨w, rfl⟩ : ∃ w : BitVec port.width, w.toNat = raw := ⟨.ofNatLT raw (lt_of_decode h), rfl⟩
  cases port with
  | w q => exact .inl ⟨q, w, rfl, rfl, Except.ok.inj (h.symm.trans (decode_w w))⟩
  | r q => exact .inr (.inl ⟨q, w, rfl, rfl, Except.ok.inj (h.symm.trans (decode_r w))⟩)
  | rx => exact .inr (.inr ⟨w, rfl, rfl, Except.ok.inj (h.symm.trans (decode_rx w))⟩)

/-! ## Decoding what was encoded -/

/-- A command word decodes to what it encodes, under every configuration. -/
theorem decode_encode_of_command (hc : i.port ≠ .rx) : decode p (encode p i).1 (encode p i).2 = .ok i := by
  cases i with
  | wNop | wByte | wCommit | wAbort | wClrcnt | wRsv5 | wRsv67 =>
    simp only [encode, decode_w_commandWord, decodePcw_append]
  | rNop | rRead | rPop | rClrerr | rRsv => simp only [encode, decode_r_commandWord, decodeCcw_append]
  | wireFlag | wireEsc | wireTFlag | wireTEsc | wireData => exact absurd rfl hc

theorem decode_encode_of_wire (hl : p.legal = true) (hwf : i.wf p = true) (hw : i.port = .rx) :
    decode p (encode p i).1 (encode p i).2 = .ok i := by
  obtain ⟨hF, hE, hT, hU⟩ := decodeWire_framing hl
  cases i with
  | wireFlag | wireEsc | wireTFlag | wireTEsc => simp only [encode, decode_rx, hF, hE, hT, hU]
  | wireData b =>
    rw [Instr.wf, Bool.not_eq_true'] at hwf
    simp only [encode, decode_rx, decodeWire_data hwf]
  | _ => cases hw

/-- Settles O3: a command word decodes to what it encodes whatever the parameters; a wire byte does because the framing
bytes are distinct and a data byte is none of them. -/
theorem decodeOfEncode : Obligations.DecodeOfEncode := by
  intro p i hl hwf
  by_cases hw : i.port = .rx
  · exact decode_encode_of_wire hl hwf hw
  · exact decode_encode_of_command hw

/-! ## Encoding what was decoded -/

theorem encode_decodePcw (w : BitVec 11) :
    (decodePcw q w).wf p = true ∧ encode p (decodePcw q w) = (.w q, w.toNat) := by
  rw [← opField_append_operandField w, ← commandWord_eq_toNat]
  rcases pcw_op_cases (opField w) with h | h | h | h | h | h | ⟨x, h⟩ <;>
    simp only [h, decodePcw_append, Instr.wf, encode, and_self]

theorem encode_decodeCcw (w : BitVec 11) :
    (decodeCcw q w).wf p = true ∧ encode p (decodeCcw q w) = (.r q, w.toNat) := by
  rw [← opField_append_operandField w, ← commandWord_eq_toNat]
  rcases ccw_op_cases (opField w) with h | h | h | h | ⟨xx, h⟩ <;>
    simp only [h, decodeCcw_append, Instr.wf, encode, and_self]

theorem encode_decodeWire (b : Byte) :
    (decodeWire p b).wf p = true ∧ encode p (decodeWire p b) = (.rx, b.toNat) := by
  rw [decodeWire]
  split_ifs with hF hE hT hU
  · exact ⟨rfl, by rw [encode, hF]⟩
  · exact ⟨rfl, by rw [encode, hE]⟩
  · exact ⟨rfl, by rw [encode, hT]⟩
  · exact ⟨rfl, by rw [encode, hU]⟩
  · exact ⟨by rw [Instr.wf, Params.framingByte_eq_false.mpr ⟨hF, hE, hT, hU⟩, Bool.not_false], rfl⟩

/-- Settles O4: the value is the bits of its port's form, and each form is given back by the encoder. -/
theorem encodeOfDecode : Obligations.EncodeOfDecode := by
  intro p port raw i h
  obtain ⟨q, w, rfl, rfl, rfl⟩ | ⟨q, w, rfl, rfl, rfl⟩ | ⟨b, rfl, rfl, rfl⟩ := decode_cases h
  · exact encode_decodePcw w
  · exact encode_decodeCcw w
  · exact encode_decodeWire b

/-! ## What a port can carry -/

/-- The encoder answers the instruction's own port and a value of its width, for every instruction. -/
theorem encode_carried : ∀ i, Laws.Carried.Statement i
  | .wNop q d => Laws.Carried.wNop q d
  | .wByte q d => Laws.Carried.wByte q d
  | .wCommit q d => Laws.Carried.wCommit q d
  | .wAbort q d => Laws.Carried.wAbort q d
  | .wClrcnt q d => Laws.Carried.wClrcnt q d
  | .wRsv5 q d => Laws.Carried.wRsv5 q d
  | .wRsv67 q x d => Laws.Carried.wRsv67 q x d
  | .rNop q d => Laws.Carried.rNop q d
  | .rRead q d => Laws.Carried.rRead q d
  | .rPop q d => Laws.Carried.rPop q d
  | .rClrerr q d => Laws.Carried.rClrerr q d
  | .rRsv q xx d => Laws.Carried.rRsv q xx d
  | .wireFlag => Laws.Carried.wireFlag
  | .wireEsc => Laws.Carried.wireEsc
  | .wireTFlag => Laws.Carried.wireTFlag
  | .wireTEsc => Laws.Carried.wireTEsc
  | .wireData b => Laws.Carried.wireData b

theorem port_of_encode (he : encode p i = (port, raw)) : i.port = port := by
  rw [← (encode_carried i p).1, he]

/-- Settles O5: no wider value decodes; one of the width does, to an instruction that the encoder puts on that port. -/
theorem everyPortWordDecodes : Obligations.EveryPortWordDecodes := by
  intro p port raw
  constructor
  · rintro ⟨i, hi, -⟩
    exact lt_of_decode hi
  · intro h
    obtain ⟨i, hi⟩ := exists_decode_of_lt h
    exact ⟨i, hi, port_of_encode (encodeOfDecode p port raw i hi).2⟩

/-! ## The codes in numbers -/

/-- The word `(OP << 8) | d` in numbers decodes to the command it encodes. -/
theorem decode_command_add (hc : port ≠ .rx) (op : BitVec 3) (d : Byte) (he : encode p i = (port, commandWord op d)) :
    decode p port (op.toNat * 0x100 + d.toNat) = .ok i := by
  have h := decode_encode_of_command (p := p) (port_of_encode he ▸ hc : i.port ≠ .rx)
  rwa [he, commandWord_eq_add] at h

/-- Settles O1: each code is the operation field of the command it encodes; the words written out are evaluated. -/
theorem commandCodesDecode : Obligations.CommandCodesDecode := by
  refine ⟨fun p q d => ?_, by decide⟩
  have hw {i} := decode_command_add (p := p) (i := i) (port := .w q) nofun
  have hr {i} := decode_command_add (p := p) (i := i) (port := .r q) nofun
  exact ⟨hw 0 d rfl, hw 1 d rfl, hw 2 d rfl, hw 3 d rfl, hw 4 d rfl, hw 5 d rfl, hw 6 d rfl, hw 7 d rfl,
    hr 0 d rfl, hr 1 d rfl, hr 2 d rfl, hr 3 d rfl, hr 4 d rfl, hr 5 d rfl, hr 6 d rfl, hr 7 d rfl⟩

end Sys2Proof
end

section
/-! Escaped bytes and encoded frames: their length, where `FLAG` stands, and what follows an `ESC`
(spec/30_encoding.md R117, R118, R120, R122). -/

namespace Sys2Proof.Machine

variable {p : Params} {v : Byte} {bs : List Byte}

/-! ## One escaped byte (30_encoding.md R117) -/

/-- `escb` sends `ESC` and an escape code for a byte it must escape, and any other byte as it is. -/
theorem escb_cases (p : Params) (v : Byte) :
    ((v == p.FLAG || v == p.ESC) = true ∧ ∃ t, (t = p.T_FLAG ∨ t = p.T_ESC) ∧ escb p v = [p.ESC, t])
    ∨ ((v == p.FLAG || v == p.ESC) = false ∧ v ≠ p.FLAG ∧ v ≠ p.ESC ∧ escb p v = [v]) := by
  rw [escb]
  split_ifs with hF hE
  · exact .inl ⟨by simp [hF], _, .inl rfl, rfl⟩
  · exact .inl ⟨by simp [hE], _, .inr rfl, rfl⟩
  · exact .inr ⟨by simp [hF, hE], hF, hE, rfl⟩

theorem flag_notMem_escb (hl : p.legal = true) (v : Byte) : p.FLAG ∉ escb p v := by
  obtain ⟨hFE, hFT, hFU, -⟩ := Params.legal_bytes hl
  obtain ⟨-, t, rfl | rfl, he⟩ | ⟨-, hF, -, he⟩ := escb_cases p v
  · simp [he, hFE, hFT]
  · simp [he, hFE, hFU]
  · simp [he, hF.symm]

/-! ## Escaped bytes in a row -/

theorem flag_notMem_flatMap_escb (hl : p.legal = true) (l : List Byte) : p.FLAG ∉ l.flatMap (escb p) := by
  simp [List.mem_flatMap, flag_notMem_escb hl]

/-- Each escaped byte takes one byte more. -/
theorem length_flatMap_escb (p : Params) (l : List Byte) :
    (l.flatMap (escb p)).length = l.length + (l.filter fun b => b == p.FLAG || b == p.ESC).length := by
  induction l with
  | nil => rfl
  | cons v l ih =>
    rw [List.flatMap_cons, List.length_append, ih, List.length_cons, List.filter_cons]
    obtain ⟨hv, t, -, he⟩ | ⟨hv, -, -, he⟩ := escb_cases p v
    · rw [he, if_pos hv, List.length_cons, List.length_singleton, List.length_cons]
      omega
    · rw [he, if_neg (Bool.eq_false_iff.mp hv), List.length_singleton]
      omega

/-- Every `ESC` is followed by an escape code (30_encoding.md R122). -/
def EscFollowed (p : Params) (bs : List Byte) : Prop :=
  ∀ j, bs[j]? = some p.ESC → bs[j + 1]? = some p.T_FLAG ∨ bs[j + 1]? = some p.T_ESC

namespace EscFollowed

theorem nil : EscFollowed p [] := nofun

theorem cons (hv : v ≠ p.ESC) (h : EscFollowed p bs) : EscFollowed p (v :: bs)
  | 0, hj => absurd (Option.some.inj hj) hv
  | j + 1, hj => h j hj

theorem esc_cons {t : Byte} (hl : p.legal = true) (ht : t = p.T_FLAG ∨ t = p.T_ESC) (h : EscFollowed p bs) :
    EscFollowed p (p.ESC :: t :: bs)
  | 0, _ => ht.imp (congrArg some) (congrArg some)
  | j + 1, hj => by
    obtain ⟨-, -, -, hET, hEU, -⟩ := Params.legal_bytes hl
    have hne : t ≠ p.ESC := by rcases ht with rfl | rfl <;> [exact hET.symm; exact hEU.symm]
    exact h.cons hne j hj

theorem flatMap_escb_append (hl : p.legal = true) (h : EscFollowed p bs) (l : List Byte) :
    EscFollowed p (l.flatMap (escb p) ++ bs) := by
  induction l with
  | nil => exact h
  | cons v l ih =>
    rw [List.flatMap_cons, List.append_assoc]
    obtain ⟨-, t, ht, he⟩ | ⟨-, -, hE, he⟩ := escb_cases p v
    · rw [he]
      exact ih.esc_cons hl ht
    · rw [he]
      exact ih.cons hE

end EscFollowed

/-! ## The frame (30_encoding.md R118) -/

/-- The header, where there is one, is escaped like a byte before the payload. -/
theorem encodeFrame_eq {h : Nat} (F : Frame) (hh : (p.LEN_FIELD = true ∧ h = 1) ∨ (p.LEN_FIELD = false ∧ h = 0)) :
    encodeFrame p F =
      p.FLAG :: ((List.replicate h (BitVec.ofNat 8 F.length) ++ F).flatMap (escb p) ++ [p.FLAG]) := by
  rcases hh with ⟨hlf, rfl⟩ | ⟨hlf, rfl⟩ <;> simp [encodeFrame, lenHeader, hlf]

/-- Between two marks that it does not contain, a list has the mark at both ends and nowhere else. -/
theorem getElem?_marked_eq_some_iff {α : Type} {a : α} {l : List α} (ha : a ∉ l) (j : Nat) :
    (a :: (l ++ [a]))[j]? = some a ↔ j = 0 ∨ j + 1 = (a :: (l ++ [a])).length := by
  cases j with
  | zero => simp
  | succ j =>
    rw [List.getElem?_cons_succ, List.getElem?_append]
    split_ifs with hj
    · have hne : l[j]? ≠ some a := fun h => ha (List.mem_of_getElem? h)
      simp [hne, hj.ne]
    · simp only [List.getElem?_singleton, List.length_cons, List.length_append, List.length_nil,
        Option.ite_none_right_eq_some, and_true, false_or]
      omega

/-- The length of an encoded frame, `E` of its bytes being escapes (30_encoding.md R120). -/
theorem length_encodeFrame {h : Nat} (F : Frame)
    (hh : (p.LEN_FIELD = true ∧ h = 1) ∨ (p.LEN_FIELD = false ∧ h = 0)) :
    (encodeFrame p F).length = 2 + h + F.length
      + ((List.replicate h (BitVec.ofNat 8 F.length) ++ F).filter (fun b => b == p.FLAG || b == p.ESC)).length := by
  rw [encodeFrame_eq F hh, List.length_cons, List.length_append, length_flatMap_escb, List.length_append,
    List.length_replicate, List.length_singleton]
  omega

/-- At most every byte of the header and the payload is escaped. -/
theorem length_encodeFrame_le {h : Nat} {F : Frame} (hF : F.length ≤ p.M)
    (hh : (p.LEN_FIELD = true ∧ h = 1) ∨ (p.LEN_FIELD = false ∧ h = 0)) :
    (encodeFrame p F).length ≤ 2 + 2 * (h + p.M) := by
  have hE := List.length_filter_le (fun b => b == p.FLAG || b == p.ESC)
    (List.replicate h (BitVec.ofNat 8 F.length) ++ F)
  rw [List.length_append, List.length_replicate] at hE
  rw [length_encodeFrame F hh]
  omega

/-- Settles O6: between its two `FLAG`s the frame is the header and the payload, escaped byte by byte. -/
theorem encodedFrameShape : Obligations.EncodedFrameShape := by
  rintro p F _ h hl hF rfl hh
  refine ⟨length_encodeFrame F hh, length_encodeFrame_le hF hh, ?_, ?_⟩
  · rw [encodeFrame_eq F hh]
    exact getElem?_marked_eq_some_iff (flag_notMem_flatMap_escb hl _)
  · have hFE : p.FLAG ≠ p.ESC := (Params.legal_bytes hl).1
    rw [encodeFrame_eq F hh]
    exact ((EscFollowed.nil.cons hFE).flatMap_escb_append hl _).cons hFE

end Sys2Proof.Machine
end

section
/-! What each producer operation answers: `W_BYTE` case by case, and every PCW row as one operation of its queue
(spec/40_queue_write.md R150 to R159). -/

namespace Sys2Proof.Machine

variable {p : Params} {q : Queue} {N : Nat} {d : Byte} {f g : Fq} {s t : State} {i : Instr}

/-! ## The frame being assembled (40_queue_write.md R152) -/

theorem Fq.assembly_of_open (ho : f.w_open = true) : f.assembly N = ⟨f.w_len, f.w_discard, f.w_oversize⟩ := by
  rw [Fq.assembly, if_pos ho]

theorem Fq.assembly_of_closed (ho : f.w_open = false) : f.assembly N = ⟨0, f.w_full N, false⟩ := by
  rw [Fq.assembly, if_neg (by simp [ho]), openFrame]

/-! ## `W_BYTE` (40_queue_write.md R151) -/

theorem Fq.wByte_of_discard (hd : (f.assembly (p.N q)).discard = true) :
    f.wByte p q d = .ok { f with
      w_open := true, w_len := (f.assembly (p.N q)).len, w_discard := true,
      w_oversize := (f.assembly (p.N q)).oversize } :=
  if_pos hd

theorem Fq.wByte_of_len_eq (hd : (f.assembly (p.N q)).discard = false) (hlen : (f.assembly (p.N q)).len.toNat = p.M) :
    f.wByte p q d = .ok { f with
      w_open := true, w_len := (f.assembly (p.N q)).len, w_discard := false, w_oversize := true } :=
  (if_neg (Bool.eq_false_iff.mp hd)).trans (if_pos hlen)

/-- A kept frame that does not hold `M` bytes takes the byte where slot memory has room for it. -/
theorem Fq.wByte_of_len_ne (hd : (f.assembly (p.N q)).discard = false) (hlen : (f.assembly (p.N q)).len.toNat ≠ p.M) :
    f.wByte p q d = (memWrite p q (slotidx (p.N q) f.wbin) (f.assembly (p.N q)).len.toNat d f.mem).map fun m =>
      { f with
        mem := m, w_open := true, w_len := (f.assembly (p.N q)).len + 1, w_discard := false,
        w_oversize := (f.assembly (p.N q)).oversize } := by
  rw [Fq.wByte, if_neg (Bool.eq_false_iff.mp hd), if_neg hlen]
  cases memWrite p q (slotidx (p.N q) f.wbin) (f.assembly (p.N q)).len.toNat d f.mem <;> rfl

theorem Fq.wByte_of_len_lt (hN : 0 < p.N q) (hd : (f.assembly (p.N q)).discard = false)
    (hlen : (f.assembly (p.N q)).len.toNat < p.M) :
    f.wByte p q d = .ok { f with
      mem := f.mem.write (dataAddr p (slotidx (p.N q) f.wbin) (f.assembly (p.N q)).len.toNat) d
      w_open := true, w_len := (f.assembly (p.N q)).len + 1, w_discard := false,
      w_oversize := (f.assembly (p.N q)).oversize } := by
  rw [Fq.wByte_of_len_ne hd hlen.ne, memWrite_eq_ok.mpr ⟨slotidx_lt hN _, hlen, rfl⟩]
  rfl

theorem Fq.wByte_of_lt_len (hd : (f.assembly (p.N q)).discard = false)
    (hlen : p.M < (f.assembly (p.N q)).len.toNat) : f.wByte p q d = .error .outsideSlot := by
  rw [Fq.wByte_of_len_ne hd hlen.ne', memWrite_eq_error.mpr ⟨fun h => by omega, rfl⟩]
  rfl

/-- `W_BYTE` writes the frame-assembly registers and slot memory, and nothing else. -/
theorem Fq.wByte_frame (h : f.wByte p q d = .ok g) :
    ∃ m o len discard oversize,
      g = { f with mem := m, w_open := o, w_len := len, w_discard := discard, w_oversize := oversize } := by
  obtain ⟨-, rfl⟩ | ⟨-, -, rfl⟩ | ⟨-, -, -, rfl⟩ := Fq.wByte_cases h <;> exact ⟨_, _, _, _, _, rfl⟩

/-! ## `W_COMMIT` (40_queue_write.md R155) -/

theorem Fq.wCommit_of_discard (hd : (f.assembly (p.N q)).discard = true) :
    f.wCommit p q = { f.closeFrame with w_drop_cnt := satInc p f.w_drop_cnt, w_result := .full } :=
  if_pos hd

theorem Fq.wCommit_of_oversize (hd : (f.assembly (p.N q)).discard = false)
    (ho : (f.assembly (p.N q)).oversize = true) :
    f.wCommit p q = { f.closeFrame with w_long_cnt := satInc p f.w_long_cnt, w_result := .tooLong } :=
  (if_neg (Bool.eq_false_iff.mp hd)).trans (if_pos ho)

theorem Fq.wCommit_of_kept (hd : (f.assembly (p.N q)).discard = false)
    (ho : (f.assembly (p.N q)).oversize = false) :
    f.wCommit p q = { f.closeFrame with
      mem := f.mem.write (lenAddr p (slotidx (p.N q) f.wbin)) (f.assembly (p.N q)).len
      wbin := ptrSucc (p.N q) f.wbin
      wgray := gray (ptrSucc (p.N q) f.wbin)
      w_result := .ok } :=
  (if_neg (Bool.eq_false_iff.mp hd)).trans (if_neg (Bool.eq_false_iff.mp ho))

/-- `W_COMMIT` writes neither the read domain, nor `rsync`, nor `w_operr`. -/
theorem Fq.wCommit_frame (p : Params) (q : Queue) (f : Fq) :
    ∃ m wb wg res drop long,
      f.wCommit p q = { f.closeFrame with
        mem := m, wbin := wb, wgray := wg, w_result := res, w_drop_cnt := drop, w_long_cnt := long } := by
  obtain ⟨-, h⟩ | ⟨-, -, h⟩ | ⟨-, -, h⟩ := Fq.wCommit_cases p q f <;> exact ⟨_, _, _, _, _, _, h⟩

end Sys2Proof.Machine
end

section
/-! The PCW rows as operations of one queue: their results, what they leave unchanged, and what they do not look at
(spec/40_queue_write.md R150 to R159, R162). -/

namespace Sys2Proof.Machine

variable {p : Params} {q : Queue} {d : Byte} {f g : Fq} {s t : State} {i : Instr}

/-! ## Results -/

/-- The word of a producer command in numbers, `OP * 0x100 + DATA` (30_encoding.md R111). -/
theorem decode_pcw_add (op : BitVec 3) (he : encode p i = (.w q, commandWord op d)) :
    decode p (.w q) (op.toNat * 0x100 + d.toNat) = .ok i :=
  decode_command_add (port := .w q) nofun op d he

/-- The reserved codes with their free bit in numbers (30_encoding.md R112). -/
theorem decode_wRsv67_add (x : BitVec 1) :
    decode p (.w q) (0x600 + 0x100 * x.toNat + d.toNat) = .ok (.wRsv67 q x d) := by
  have h := decode_pcw_add (p := p) (i := .wRsv67 q x d) (0b11#2 ++ x) rfl
  have hop : (0b11#2 ++ x).toNat * 0x100 = 0x600 + 0x100 * x.toNat := by
    rw [toNat_append_eq_add, BitVec.toNat_ofNat]
    omega
  rwa [hop] at h

/-- Settles O10: both are operations that cannot fault; `W_NOP` gives back the queue. -/
theorem wNopAndReservedResult : Obligations.WNopAndReservedResult := by
  intro s q x d hl
  refine ⟨decode_pcw_add 0 rfl, decode_pcw_add 5 rfl, decode_wRsv67_add x, ?_, finishFq_ok hl, finishFq_ok hl⟩
  rw [exec, execWNop, finishFq_ok hl, Fq.wNop, State.setFq_fq]

/-- Settles O13: both are operations that cannot fault. -/
theorem wAbortAndClrcntResult : Obligations.WAbortAndClrcntResult :=
  fun _ _ _ hl => ⟨decode_pcw_add 3 rfl, decode_pcw_add 4 rfl, finishFq_ok hl, finishFq_ok hl⟩

/-- A byte offered to an open frame that is being discarded changes nothing. -/
theorem Fq.wByte_of_discarding (ho : f.w_open = true) (hd : f.w_discard = true) : f.wByte p q d = .ok f := by
  have ha : f.assembly (p.N q) = ⟨f.w_len, true, f.w_oversize⟩ := by rw [Fq.assembly_of_open ho, hd]
  rw [Fq.wByte_of_discard (by rw [ha]), ha]
  cases f
  simp only at ho hd
  rw [ho, hd]

/-- Settles O11: the assembly of a closed frame is the empty one, discarded where the queue is full, and of an open one
the registers; then one equation of `W_BYTE` per clause. -/
theorem wByteResult : Obligations.WByteResult := by
  rintro s q d _ hl rfl
  have hN : 0 < s.params.N q := by have := ring_of_legal hl q; omega
  have hM := (Params.legal_M hl).1
  have hok {r} (hr : (s.fq q).wByte s.params q d = .ok r) : exec (.wByte q d) s = .next (s.setFq q r) := by
    rw [exec, execWByte, hr, finishFq_ok hl]
  refine ⟨fun ho hfull => ?_, fun ho hfull => ?_, fun ho hd => ?_, fun ho hd hlen => ?_, fun ho hd hlen => ?_,
    fun ho hd hlen => ?_⟩
  · have ha := Fq.assembly_of_closed (N := s.params.N q) ho
    rw [hok (Fq.wByte_of_discard (by rw [ha, hfull])), ha]
  · have ha := Fq.assembly_of_closed (N := s.params.N q) ho
    rw [hok (Fq.wByte_of_len_lt hN (by rw [ha, hfull]) (by rw [ha]; exact hM)), ha]
    rfl
  · rw [hok (Fq.wByte_of_discarding ho hd), State.setFq_fq]
  · have ha := Fq.assembly_of_open (N := s.params.N q) ho
    rw [hok (Fq.wByte_of_len_eq (by rw [ha, hd]) (by rw [ha]; exact hlen)), ha, ← ho, ← hd]
  · have ha := Fq.assembly_of_open (N := s.params.N q) ho
    rw [hok (Fq.wByte_of_len_lt hN (by rw [ha, hd]) (by rw [ha]; exact hlen)), ha, ← ho, ← hd]
  · have ha := Fq.assembly_of_open (N := s.params.N q) ho
    exact finishFq_eq_fault.mpr ⟨hl, Fq.wByte_of_lt_len (by rw [ha, hd]) (by rw [ha]; exact hlen)⟩

/-- Settles O12: the clauses are those of `W_COMMIT` on the assembly, which an unopened frame takes from `w_full`. -/
theorem wCommitResult : Obligations.WCommitResult := by
  rintro s q d _ _ hl rfl rfl
  have hok {r} (hr : (s.fq q).wCommit s.params q = r) : exec (.wCommit q d) s = .next (s.setFq q r) := by
    rw [exec, execWCommit, hr, finishFq_ok hl]
  refine ⟨decode_pcw_add 2 rfl, fun hdrop => ?_, fun ⟨ho, hd, hover⟩ => ?_, fun len hkept => ?_⟩
  · refine hok (Fq.wCommit_of_discard ?_)
    obtain ⟨ho, hd⟩ | ⟨ho, hfull⟩ := hdrop
    · rw [Fq.assembly_of_open ho, hd]
    · rw [Fq.assembly_of_closed ho, hfull]
  · have ha := Fq.assembly_of_open (N := s.params.N q) ho
    exact hok (Fq.wCommit_of_oversize (by rw [ha, hd]) (by rw [ha, hover]))
  · have ha : (s.fq q).assembly (s.params.N q) = ⟨len, false, false⟩ := by
      obtain ⟨ho, hd, hover, rfl⟩ | ⟨ho, hfull, rfl⟩ := hkept
      · rw [Fq.assembly_of_open ho, hd, hover]
      · rw [Fq.assembly_of_closed ho, hfull]
    rw [hok (Fq.wCommit_of_kept (by rw [ha]) (by rw [ha])), ha]
    rfl

/-- Settles O55: only `W_BYTE`, `R_READ` and the wire rows can fault, and none of them does under the invariant. -/
theorem everyInstructionCompletes : Obligations.EveryInstructionCompletes := fun _ i h => exec_completes h i

/-! ## Every PCW row is one operation of its queue -/

/-- The operation of a PCW row on its queue; a row of another port has none. -/
def Fq.wOp (p : Params) (q : Queue) (i : Instr) (f : Fq) : Except Fault Fq :=
  match i with
  | .wByte _ d => f.wByte p q d
  | .wCommit _ _ => .ok (f.wCommit p q)
  | .wAbort _ _ => .ok f.wAbort
  | .wClrcnt _ _ => .ok f.wClrcnt
  | .wRsv5 _ _ => .ok f.wRsv
  | .wRsv67 _ _ _ => .ok f.wRsv
  | _ => .ok f

theorem exec_of_port_w (hi : i.port = .w q) (s : State) : exec i s = finishFq s q ((s.fq q).wOp s.params q i) := by
  cases i with
  | wNop | wByte | wCommit | wAbort | wClrcnt | wRsv5 | wRsv67 => cases hi; rfl
  | rNop | rRead | rPop | rClrerr | rRsv | wireFlag | wireEsc | wireTFlag | wireTEsc | wireData => cases hi

/-- A step on a producer port is the operation of the row on the queue. -/
theorem exec_of_port_w_eq_next (hi : i.port = .w q) :
    exec i s = .next t ↔ s.params.legal = true ∧ ∃ g, (s.fq q).wOp s.params q i = .ok g ∧ t = s.setFq q g := by
  rw [exec_of_port_w hi, finishFq_eq_next]

/-! ## What a producer operation leaves unchanged -/

/-- `f` with the registers that no producer operation writes, the read domain and `rsync`, taken from `h`. -/
def Fq.withForeign (f h : Fq) : Fq :=
  { f with
    rsync := h.rsync, rbin := h.rbin, rgray := h.rgray, wsync := h.wsync, r_rdata := h.r_rdata, r_result := h.r_result,
    r_operr := h.r_operr }

/-- No producer operation writes a foreign register. -/
theorem Fq.wOp_foreign (hg : f.wOp p q i = .ok g) : g.withForeign f = g := by
  cases i with
  | wByte =>
    obtain ⟨_, _, _, _, _, rfl⟩ := Fq.wByte_frame hg
    rfl
  | wCommit =>
    obtain ⟨_, _, _, _, _, _, hc⟩ := Fq.wCommit_frame p q f
    obtain rfl := hc.symm.trans (Except.ok.inj hg)
    rfl
  | _ => cases hg; rfl

/-- Settles O14: everything outside the queue is left by `setFq`, and the foreign registers by every operation; of the
others each operation writes those its equation names. -/
theorem producerRegisterFrame : Obligations.ProducerRegisterFrame := by
  intro s t q i hi ht
  obtain ⟨-, g, hg, rfl⟩ := (exec_of_port_w_eq_next hi).mp ht
  have hforeign := Fq.wOp_foreign hg
  refine ⟨fun q' hq' => State.fq_setFq_ne _ _ _ _ hq', State.setFq_params .., State.setFq_frx .., State.setFq_ftx ..,
    State.setFq_txlog .., State.setFq_pending .., State.setFq_draws .., State.setFq_seen .., ?_⟩
  rw [State.fq_setFq, ← hforeign]
  refine ⟨rfl, rfl, rfl, rfl, rfl, rfl, rfl, ?_⟩
  rw [hforeign]
  cases i with
  | rNop | rRead | rPop | rClrerr | rRsv | wireFlag | wireEsc | wireTFlag | wireTEsc | wireData => cases hi
  | wByte _ d =>
    cases hi
    obtain ⟨_, _, _, _, _, rfl⟩ := Fq.wByte_frame hg
    exact ⟨fun _ => ⟨rfl, rfl⟩, fun _ _ => rfl, fun _ _ => ⟨rfl, rfl⟩, fun _ _ _ => rfl, fun hb => absurd rfl (hb d)⟩
  | wCommit _ d =>
    cases hi
    obtain ⟨_, _, _, _, _, _, hcommit⟩ := Fq.wCommit_frame s.params q (s.fq q)
    obtain rfl := hcommit.symm.trans (Except.ok.inj hg)
    exact ⟨fun hc => absurd rfl (hc d), fun hc => absurd rfl (hc d), fun hc => absurd rfl (hc d), fun _ _ _ => rfl,
      fun _ hc => absurd rfl (hc d)⟩
  | wNop =>
    cases hi
    cases hg
    exact ⟨fun _ => ⟨rfl, rfl⟩, fun _ _ => rfl, fun _ _ => ⟨rfl, rfl⟩, fun _ _ _ => rfl,
      fun _ _ _ => ⟨rfl, rfl, rfl, rfl⟩⟩
  | wAbort _ d =>
    cases hi
    cases hg
    exact ⟨fun _ => ⟨rfl, rfl⟩, fun _ ha => absurd rfl (ha d), fun _ _ => ⟨rfl, rfl⟩, fun _ _ _ => rfl,
      fun _ _ ha => absurd rfl (ha d)⟩
  | wClrcnt _ d =>
    cases hi
    cases hg
    exact ⟨fun _ => ⟨rfl, rfl⟩, fun _ _ => rfl, fun _ hc => absurd rfl (hc d), fun hc => absurd rfl (hc d),
      fun _ _ _ => ⟨rfl, rfl, rfl, rfl⟩⟩
  | wRsv5 _ d =>
    cases hi
    cases hg
    exact ⟨fun _ => ⟨rfl, rfl⟩, fun _ _ => rfl, fun _ _ => ⟨rfl, rfl⟩, fun _ hr => absurd rfl (hr d),
      fun _ _ _ => ⟨rfl, rfl, rfl, rfl⟩⟩
  | wRsv67 _ x d =>
    cases hi
    cases hg
    exact ⟨fun _ => ⟨rfl, rfl⟩, fun _ _ => rfl, fun _ _ => ⟨rfl, rfl⟩, fun _ _ hr => absurd rfl (hr x d),
      fun _ _ _ => ⟨rfl, rfl, rfl, rfl⟩⟩

/-! ## What a producer operation does not look at -/

variable {h : Fq}

/-- The assembly of an open frame is its registers, and none of them is foreign. -/
theorem Fq.assembly_withForeign_of_open {N : Nat} (ho : f.w_open = true) :
    (f.withForeign h).assembly N = f.assembly N :=
  (Fq.assembly_of_open (f := f.withForeign h) ho).trans (Fq.assembly_of_open ho).symm

/-- Of the foreign registers, `W_BYTE` and `W_COMMIT` look at what `w_full` gives a frame that opens, and the others at
none. -/
theorem Fq.wOp_withForeign (ha : (f.withForeign h).assembly (p.N q) = f.assembly (p.N q)) :
    (f.withForeign h).wOp p q i = (f.wOp p q i).map (·.withForeign h) := by
  cases i with
  | wByte _ d =>
    simp only [Fq.wOp, Fq.wByte, ha]
    split_ifs
    · rfl
    · rfl
    · rw [withForeign]
      cases memWrite p q (slotidx (p.N q) f.wbin) (f.assembly (p.N q)).len.toNat d f.mem <;> rfl
  | wCommit =>
    simp only [Fq.wOp, Fq.wCommit, ha]
    split_ifs <;> rfl
  | _ => rfl

/-- Other foreign registers give the same step, with those registers carried along. -/
theorem exec_setFq_withForeign (hi : i.port = .w q) (ht : exec i s = .next t)
    (ha : ((s.fq q).withForeign h).assembly (s.params.N q) = (s.fq q).assembly (s.params.N q)) :
    exec i (s.setFq q ((s.fq q).withForeign h)) = .next (t.setFq q ((t.fq q).withForeign h)) := by
  obtain ⟨hl, g, hg, rfl⟩ := (exec_of_port_w_eq_next hi).mp ht
  have hop := Fq.wOp_withForeign (i := i) ha
  rw [hg] at hop
  exact (exec_of_port_w_eq_next hi).mpr
    ⟨by rwa [State.setFq_params], g.withForeign h, by rwa [State.fq_setFq, State.setFq_params], by simp⟩

/-- Settles O16: `rsync` is foreign, and the assembly of an open frame does not look at it. -/
theorem fullnessIsSampledOnce : Obligations.FullnessIsSampledOnce := by
  intro s t q i rs ho hi ht
  have hport : i.port = .w q := by obtain ⟨d, rfl | rfl⟩ := hi <;> rfl
  have hstep := exec_setFq_withForeign (h := { s.fq q with rsync := rs }) hport ht
    (Fq.assembly_withForeign_of_open ho)
  obtain ⟨-, g, hg, rfl⟩ := (exec_of_port_w_eq_next hport).mp ht
  rw [State.fq_setFq, ← Fq.wOp_foreign hg] at hstep ⊢
  exact hstep

/-- Settles O17: the read domain is foreign, and with `rsync` as it was no assembly looks at it. -/
theorem producerIgnoresReadDomain : Obligations.ProducerIgnoresReadDomain := by
  intro s t q i rb rg ws rd rr re hport ht
  have hstep := exec_setFq_withForeign hport ht
    (h := { s.fq q with rbin := rb, rgray := rg, wsync := ws, r_rdata := rd, r_result := rr, r_operr := re }) rfl
  obtain ⟨-, g, hg, rfl⟩ := (exec_of_port_w_eq_next hport).mp ht
  rw [State.fq_setFq, ← Fq.wOp_foreign hg] at hstep ⊢
  exact hstep

end Sys2Proof.Machine
end

section
/-! `W_BYTE` keeps the invariant of its queue, and what it makes of the frame being assembled (spec/20_memory.md R84,
R89; spec/40_queue_write.md R151 to R154). -/

namespace Sys2Proof.Machine

variable {p : Params} {q : Queue} {N : Nat} {d : Byte} {f g : Fq}

/-! ## What the invariant says of the frame being assembled -/

namespace Fq.Inv

theorem assembly_oversize (h : f.Inv p q) : (f.assembly N).oversize = f.w_oversize := by
  cases ho : f.w_open with
  | true => rw [Fq.assembly_of_open ho]
  | false => rw [Fq.assembly_of_closed ho, (h.assembly.closed ho).2.2]

/-- A discarded frame counts no bytes and is not oversize. -/
theorem of_discard (h : f.Inv p q) (hd : (f.assembly N).discard = true) : f.w_len = 0 ∧ f.w_oversize = false := by
  cases ho : f.w_open with
  | true => exact h.assembly.discarded (by simpa [Fq.assembly_of_open ho] using hd)
  | false => exact ⟨(h.assembly.closed ho).1, (h.assembly.closed ho).2.2⟩

/-- Where a frame is kept, the producer sees a free slot (40_queue_write.md R152). -/
theorem w_level_lt (hl : p.legal = true) (h : f.Inv p q) (hd : (f.assembly (p.N q)).discard = false) :
    (f.w_level (p.N q)).toNat < p.N q := by
  cases ho : f.w_open with
  | true => exact (h.assembly.storing ho (by simpa [Fq.assembly_of_open ho] using hd)).1
  | false =>
    have hfull : f.w_full (p.N q) = false := by simpa [Fq.assembly_of_closed ho] using hd
    have hne := mt (h.w_full_iff hl).mpr (Bool.eq_false_iff.mp hfull)
    have hle := h.lags.lagR_le
    rw [h.w_level_eq hl] at hne ⊢
    omega

end Fq.Inv

/-! ## A byte stored -/

/-- The byte stored stands behind the bytes assembled so far. -/
theorem Fq.assembled_store {A : Frame} (hA : f.assembled p q = some A)
    (hmem : g.mem = f.mem.write (dataAddr p (slotidx (p.N q) f.wbin) f.w_len.toNat) d) (hw : g.wbin = f.wbin)
    (hlen : g.w_len.toNat = f.w_len.toNat + 1) : g.assembled p q = some (A ++ [d]) := by
  have haddr : dataAddr p (slotidx (p.N q) f.wbin) f.w_len.toNat
      = dataAddr p (slotidx (p.N q) f.wbin) 0 + f.w_len.toNat := rfl
  have hbytes := Memory.readBytes_write_outside f.mem (dataAddr p (slotidx (p.N q) f.wbin) 0)
    (dataAddr p (slotidx (p.N q) f.wbin) f.w_len.toNat) f.w_len.toNat d (.inr haddr.ge)
  rw [Fq.assembled, hw, hmem, hlen, Memory.readBytes_snoc, hbytes, ← haddr, Memory.read_write_same]
  rw [Fq.assembled] at hA
  rw [hA]

/-- Slot memory ends behind the last byte of the last slot. -/
theorem dataAddr_lt_memSize {i j : Nat} (hi : i < p.N q) (hj : j < p.M) : dataAddr p i j < memSize p q := by
  have := lenAddr_lt_memSize p i q hi
  rw [dataAddr_eq]
  omega

/-- One more byte of a frame of fewer than `M`: the count does not wrap. -/
theorem toNat_succ_of_lt_M (hl : p.legal = true) {b : Byte} (hb : b.toNat < p.M) : (b + 1).toNat = b.toNat + 1 := by
  have := (Params.legal_M hl).2
  exact BitVec.toNat_add_of_lt (show b.toNat + 1 < 2 ^ 8 by omega)

/-! ## `W_BYTE` keeps the invariant -/

namespace Fq.Inv

/-- Everything `W_BYTE` can do in a state of the invariant, an unopened frame's registers being clear. -/
theorem wByte_cases (h : f.Inv p q) (hg : f.wByte p q d = .ok g) :
    ((f.assembly (p.N q)).discard = true ∧ g = { f with w_open := true, w_discard := true })
    ∨ ((f.assembly (p.N q)).discard = false ∧ f.w_len.toNat = p.M ∧
      g = { f with w_open := true, w_discard := false, w_oversize := true })
    ∨ ((f.assembly (p.N q)).discard = false ∧ f.w_len.toNat < p.M ∧ slotidx (p.N q) f.wbin < p.N q ∧
      g = { f with
        mem := f.mem.write (dataAddr p (slotidx (p.N q) f.wbin) f.w_len.toNat) d
        w_open := true, w_len := f.w_len + 1, w_discard := false }) := by
  have hcases := Fq.wByte_cases hg
  rwa [h.assembly_len, h.assembly_oversize] at hcases

theorem wByte_assemblyInv (hl : p.legal = true) (h : f.Inv p q) (hg : f.wByte p q d = .ok g) :
    g.AssemblyInv p q := by
  obtain ⟨hd, rfl⟩ | ⟨hd, hM, rfl⟩ | ⟨hd, hM, -, rfl⟩ := h.wByte_cases hg
  · exact ⟨nofun, fun _ => h.of_discard hd, h.assembly.len_le, h.assembly.oversize, nofun⟩
  · have hlevel := h.w_level_lt hl hd
    exact ⟨nofun, nofun, hM.le, fun _ => hM, fun _ _ => ⟨hlevel, h.assembled_isSome hd⟩⟩
  · have hlevel := h.w_level_lt hl hd
    have hsucc := toNat_succ_of_lt_M hl hM
    obtain ⟨A, hA⟩ := Option.isSome_iff_exists.mp (h.assembled_isSome hd)
    refine ⟨nofun, nofun, hsucc.trans_le hM, fun ho => absurd (h.assembly.oversize ho) hM.ne, fun _ _ => ⟨hlevel, ?_⟩⟩
    exact Option.isSome_iff_exists.mpr ⟨A ++ [d], Fq.assembled_store hA rfl rfl hsucc⟩

theorem wByte_mem_lt (h : f.Inv p q) (hg : f.wByte p q d = .ok g) : ∀ c ∈ g.mem, c.1 < memSize p q := by
  obtain ⟨-, rfl⟩ | ⟨-, -, rfl⟩ | ⟨-, hM, hi, rfl⟩ := h.wByte_cases hg
  · exact h.mem_lt
  · exact h.mem_lt
  · exact Memory.lt_write _ _ h.mem_lt (dataAddr_lt_memSize hi hM)

/-- `W_BYTE` keeps the invariant of its queue. -/
theorem wByte (hl : p.legal = true) (h : f.Inv p q) (hg : f.wByte p q d = .ok g) : g.Inv p q := by
  have hassembly := h.wByte_assemblyInv hl hg
  have hslots := fun j hj => (Fq.Move.of_wByte hg).slotFrame_committed hl h (j := j) hj
  have hwf := Fq.wByte_wf hg h.mem_wf
  have hmem := h.wByte_mem_lt hg
  obtain ⟨m, _, _, _, _, rfl⟩ := Fq.wByte_frame hg
  obtain ⟨hbin, hbin', hgray, hgray'⟩ := h.pointers
  exact {
    pointers := ⟨hbin, hbin', hgray, hgray'⟩
    rchain := h.rchain
    wchain := h.wchain
    lags := ⟨h.lags.lagW_le, h.lags.lagR_le⟩
    assembly := hassembly
    slots := fun j hj => (congrArg (Option.any _) (hslots j hj)).trans (h.slots j hj)
    mem_wf := hwf
    mem_lt := hmem
    drop_le := h.drop_le
    long_le := h.long_le }

end Fq.Inv

end Sys2Proof.Machine
end

section
/-! `enqueue(F)`: the bytes of `F` and a `W_COMMIT` on a port that an external agent drives (spec/40_queue_write.md
R155, R156, R161; spec/20_memory.md R97, R98). -/

namespace Sys2Proof.Machine

variable {p : Params} {q : Queue} {N : Nat} {d : Byte} {F : Frame} {f g : Fq} {s t : State}

/-- A pointer and its successor differ. -/
theorem ptrSucc_ne (h : 2 ≤ N ∧ N ≤ 128) {a : Ptr} (ha : a.toNat < 2 * N) : ptrSucc N a ≠ a := fun he => by
  have := congrArg BitVec.toNat he
  rw [ptrSucc_toNat_of_lt h ha] at this
  split at this <;> omega

/-! ## Runs of statements -/

/-- A statement that makes `t` of `s` before any further statements is the first step of a run. -/
theorem runProg_cons {st : Stmt} {prog : List Stmt} (h : step (s.load (st :: prog)) = .next (t.load prog)) :
    runProg s (st :: prog) = runProg t prog := by
  simp only [runProg, List.length_cons, Host.Core.run, Sys2Proof.core, h]

/-- The word of a statement, presented by the port's driver, runs the instruction it decodes to. -/
theorem step_load_of_drive {st : Stmt} {prog : List Stmt} {port : Port} {raw : Nat} {i : Instr}
    (hl : s.params.legal = true) (hst : st.event = drive port raw) (hdrv : port.driver.external = true)
    (hdec : decode s.params port raw = .ok i) : step (s.load (st :: prog)) = exec i (s.load prog) := by
  have hmay : mayPresent port.driver port = true := by simp [mayPresent, hdrv]
  exact stepRunsTheDecodedInstruction _ _ _ _ _ _ hl
    (by rw [State.load_pending, List.map_cons, List.cons_append, hst]; rfl) hmay hdec

@[simp] theorem State.setFq_load (prog : List Stmt) : (s.load prog).setFq q f = (s.setFq q f).load prog := by
  cases q <;> rfl

/-- The producer ports of `QR` and `QT` have external drivers, RADIO and TASK (10_state.md R30). -/
theorem external_driver_w (hq : q ≠ .qh) : (Port.w q).driver.external = true := by
  cases q with
  | qr | qt => rfl
  | qh => exact absurd rfl hq

theorem step_load_wByte {prog : List Stmt} (hl : s.params.legal = true) (hq : q ≠ .qh)
    (hf : (s.fq q).wByte s.params q d = .ok f) :
    step (s.load (.wByte q d :: prog)) = .next ((s.setFq q f).load prog) := by
  have hdec := decode_encode_of_command (p := s.params) (i := .wByte q d) nofun
  rw [step_load_of_drive hl rfl (external_driver_w hq) hdec, exec, execWByte, State.load_fq, State.load_params,
    hf, finishFq_ok (s := s.load prog) hl, State.setFq_load]

theorem step_load_wCommit {prog : List Stmt} (hl : s.params.legal = true) (hq : q ≠ .qh) :
    step (s.load (.wCommit q :: prog)) = .next ((s.setFq q ((s.fq q).wCommit s.params q)).load prog) := by
  have hdec := decode_encode_of_command (p := s.params) (i := .wCommit q 0) nofun
  rw [step_load_of_drive hl rfl (external_driver_w hq) hdec, exec, execWCommit, State.load_fq, State.load_params,
    finishFq_ok (s := s.load prog) hl, State.setFq_load]

/-! ## The bytes of a frame -/

theorem frameStmts_nil : frameStmts q [] = [.wCommit q] := rfl

theorem frameStmts_cons : frameStmts q (d :: F) = .wByte q d :: frameStmts q F := rfl

/-- `W_BYTE` for each byte of `F`, in order (40_queue_write.md R161). -/
def Fq.wBytes (p : Params) (q : Queue) (F : Frame) (f : Fq) : Except Fault Fq := F.foldlM (fun f d => f.wByte p q d) f

theorem Fq.wBytes_cons (hf : f.wByte p q d = .ok g) : f.wBytes p q (d :: F) = g.wBytes p q F := by
  rw [Fq.wBytes, List.foldlM_cons, hf]
  rfl

/-- An enqueue whose bytes make `g` of its queue ends in the `W_COMMIT` of `g`. -/
theorem runProg_frameStmts (hl : s.params.legal = true) (hq : q ≠ .qh) (hF : (s.fq q).wBytes s.params q F = .ok g) :
    runProg s (frameStmts q F) = .next (s.setFq q (g.wCommit s.params q)) := by
  induction F generalizing s with
  | nil =>
    obtain rfl : s.fq q = g := Except.ok.inj hF
    rw [frameStmts_nil, runProg_cons (step_load_wCommit hl hq)]
    rfl
  | cons d F ih =>
    cases hf : (s.fq q).wByte s.params q d with
    | ok f =>
      rw [Fq.wBytes_cons hf] at hF
      have hrest := ih (s := s.setFq q f) (by simpa using hl) (by simpa using hF)
      rw [frameStmts_cons, runProg_cons (step_load_wByte hl hq hf)]
      simpa using hrest
    | error x =>
      rw [Fq.wBytes, List.foldlM_cons, hf] at hF
      cases hF

/-! ## On a full queue (40_queue_write.md R152, 20_memory.md R98) -/

/-- In a discarded frame `W_BYTE` answers a queue whose frame is discarded too, and which `W_COMMIT` drops to the same
end. -/
theorem Fq.wByte_discarding (hd : (f.assembly (p.N q)).discard = true) :
    ∃ g, f.wByte p q d = .ok g ∧ (g.assembly (p.N q)).discard = true ∧ g.wCommit p q = f.wCommit p q := by
  refine ⟨_, Fq.wByte_of_discard hd, rfl, ?_⟩
  rw [Fq.wCommit_of_discard hd]
  exact Fq.wCommit_of_discard rfl

/-- The whole enqueue of a discarded frame is its `W_COMMIT`. -/
theorem Fq.wBytes_discarding (F : Frame) (hd : (f.assembly (p.N q)).discard = true) :
    ∃ g, f.wBytes p q F = .ok g ∧ g.wCommit p q = f.wCommit p q := by
  induction F generalizing f with
  | nil => exact ⟨f, rfl, rfl⟩
  | cons d F ih =>
    obtain ⟨g, hg, hd', hcommit⟩ := Fq.wByte_discarding (d := d) hd
    rw [Fq.wBytes_cons hg, ← hcommit]
    exact ih hd'

theorem runProg_frameStmts_of_discard (hl : s.params.legal = true) (hq : q ≠ .qh) (F : Frame)
    (hd : ((s.fq q).assembly (s.params.N q)).discard = true) :
    runProg s (frameStmts q F) = .next (s.setFq q
      { (s.fq q).closeFrame with w_drop_cnt := satInc s.params (s.fq q).w_drop_cnt, w_result := .full }) := by
  obtain ⟨g, hg, hcommit⟩ := Fq.wBytes_discarding F hd
  rw [runProg_frameStmts hl hq hg, hcommit, Fq.wCommit_of_discard hd]

/-! ## On a queue with a free slot -/

/-- `g` is what `f` becomes while a frame is assembled that was kept when it opened, after the bytes of `F`: the first
`M` of them are assembled and the others ignored; frames, `wbin` and counters are those of `f`. -/
structure Fq.Offered (p : Params) (q : Queue) (f : Fq) (F : Frame) (g : Fq) : Prop where
  inv : g.Inv p q
  kept : (g.assembly (p.N q)).discard = false
  assembled : g.assembled p q = some (F.take p.M)
  oversize : (g.assembly (p.N q)).oversize = decide (p.M < F.length)
  frames : g.frames p q = f.frames p q
  wbin : g.wbin = f.wbin
  drop : g.w_drop_cnt = f.w_drop_cnt
  long : g.w_long_cnt = f.w_long_cnt

namespace Fq.Offered

theorem nil (h : f.Inv p q) (ho : f.w_open = false) (hfull : f.w_full (p.N q) = false) : Offered p q f [] f where
  inv := h
  kept := by rw [Fq.assembly_of_closed ho, hfull]
  assembled := by rw [Fq.assembled, (h.assembly.closed ho).1]; simp
  oversize := by rw [Fq.assembly_of_closed ho]; simp
  frames := rfl
  wbin := rfl
  drop := rfl
  long := rfl

/-- The bytes assembled are those counted: all that were offered, up to `M`. -/
theorem w_len_eq (h : Offered p q f F g) : g.w_len.toNat = min p.M F.length := by
  rw [← Memory.readBytes_length _ _ _ h.assembled, List.length_take]

/-- One more byte is stored behind the others, or ignored where there are `M`. -/
theorem wByte_assembly (hl : p.legal = true) (h : Offered p q f F g) {g' : Fq} (hg' : g.wByte p q d = .ok g') :
    (g'.assembly (p.N q)).discard = false ∧ g'.assembled p q = some ((F ++ [d]).take p.M)
      ∧ (g'.assembly (p.N q)).oversize = decide (p.M < (F ++ [d]).length) := by
  have hlen := h.w_len_eq
  have hA := h.assembled
  have hover := h.oversize
  rw [h.inv.assembly_oversize] at hover
  rw [List.length_append, List.length_singleton]
  obtain ⟨hd, -⟩ | ⟨-, hM, rfl⟩ | ⟨-, hM, -, rfl⟩ := h.inv.wByte_cases hg'
  · exact absurd hd (Bool.eq_false_iff.mp h.kept)
  · rw [List.take_append_of_le_length (by omega)]
    exact ⟨rfl, hA, (decide_eq_true (by omega)).symm⟩
  · rw [List.take_of_length_le (by omega)] at hA
    rw [List.take_of_length_le (by rw [List.length_append, List.length_singleton]; omega),
      decide_eq_false (by omega : ¬ p.M < F.length + 1)]
    exact ⟨rfl, Fq.assembled_store hA rfl rfl (toNat_succ_of_lt_M hl hM), hover.trans (decide_eq_false (by omega))⟩

theorem snoc (hl : p.legal = true) (h : Offered p q f F g) (d : Byte) :
    ∃ g', g.wByte p q d = .ok g' ∧ Offered p q f (F ++ [d]) g' := by
  obtain ⟨g', hg'⟩ := h.inv.wByte_ok hl d
  have hinv := h.inv.wByte hl hg'
  have hstill := (Fq.Move.of_wByte hg').frames_of_still hl h.inv
  obtain ⟨hkept, hassembled, hover⟩ := h.wByte_assembly hl hg'
  obtain ⟨_, _, _, _, _, rfl⟩ := Fq.wByte_frame hg'
  exact ⟨_, hg', hinv, hkept, hassembled, hover, (hstill rfl rfl).trans h.frames, h.wbin, h.drop, h.long⟩

theorem wBytes (hl : p.legal = true) {F₀ : Frame} (h : Offered p q f F₀ g) (F : Frame) :
    ∃ g', g.wBytes p q F = .ok g' ∧ Offered p q f (F₀ ++ F) g' := by
  induction F generalizing F₀ g with
  | nil => exact ⟨g, rfl, by rwa [List.append_nil]⟩
  | cons d F ih =>
    obtain ⟨g₁, hg₁, h₁⟩ := h.snoc hl d
    rw [Fq.wBytes_cons hg₁, List.append_cons]
    exact ih h₁

/-- A frame of at most `M` bytes is published behind the others (40_queue_write.md R155). -/
theorem wCommit_published (hl : p.legal = true) (h : Offered p q f F g) (hF : F.length ≤ p.M) :
    (g.wCommit p q).frames p q = f.frames p q ++ [some F] ∧ (g.wCommit p q).w_result = .ok
      ∧ (g.wCommit p q).w_open = false ∧ (g.wCommit p q).w_drop_cnt = f.w_drop_cnt
      ∧ (g.wCommit p q).w_long_cnt = f.w_long_cnt := by
  have hcommit := Fq.wCommit_of_kept h.kept (h.oversize.trans (decide_eq_false (by omega)))
  have hne : (g.wCommit p q).wbin ≠ g.wbin := by
    rw [hcommit]
    exact ptrSucc_ne (ring_of_legal hl q).2 h.inv.pointers.wbin_lt
  obtain ⟨hframes, -, hresult⟩ := Fq.Move.of_wCommit.frames_of_wbin_ne hl h.inv hne
  rw [h.frames, h.assembled, List.take_of_length_le hF] at hframes
  refine ⟨hframes, hresult, ?_⟩
  rw [hcommit]
  exact ⟨rfl, h.drop, h.long⟩

/-- A frame of more than `M` bytes is dropped and counted (40_queue_write.md R155). -/
theorem wCommit_tooLong (hl : p.legal = true) (h : Offered p q f F g) (hF : p.M < F.length) :
    (g.wCommit p q).frames p q = f.frames p q ∧ (g.wCommit p q).wbin = f.wbin
      ∧ (g.wCommit p q).w_result = .tooLong ∧ (g.wCommit p q).w_drop_cnt = f.w_drop_cnt
      ∧ (g.wCommit p q).w_long_cnt = satInc p f.w_long_cnt := by
  have hstill := Fq.Move.of_wCommit.frames_of_still hl h.inv
  rw [Fq.wCommit_of_oversize h.kept (h.oversize.trans (decide_eq_true hF))] at hstill ⊢
  exact ⟨(hstill rfl rfl).trans h.frames, h.wbin, rfl, h.drop, congrArg (satInc p) h.long⟩

end Fq.Offered

/-- An enqueue on a queue with a free slot ends in the `W_COMMIT` of the frame offered. -/
theorem runProg_frameStmts_of_not_full (h : s.Inv) (hq : q ≠ .qh) (ho : (s.fq q).w_open = false)
    (hfull : (s.fq q).w_full (s.params.N q) = false) (F : Frame) :
    ∃ g, (s.fq q).Offered s.params q F g
      ∧ runProg s (frameStmts q F) = .next (s.setFq q (g.wCommit s.params q)) := by
  obtain ⟨g, hg, hF⟩ := (Fq.Offered.nil (h.fq q) ho hfull).wBytes h.legal F
  exact ⟨g, hF, runProg_frameStmts h.legal hq hg⟩

/-- Settles O18: the bytes of `F` are assembled one behind the other, and `W_COMMIT` publishes them. -/
theorem enqueueAppendsTheFrame : Obligations.EnqueueAppendsTheFrame := by
  intro s q F h hq ho hfull hF
  obtain ⟨g, hg, hrun⟩ := runProg_frameStmts_of_not_full h hq ho hfull F
  refine ⟨_, hrun, ?_⟩
  rw [State.fq_setFq]
  exact hg.wCommit_published h.legal hF

/-- Settles O19: a frame that opens on a full queue is discarded to its `W_COMMIT`; of one with more than `M` bytes the
first `M` are assembled, and `W_COMMIT` drops it. -/
theorem enqueueDropsAndCounts : Obligations.EnqueueDropsAndCounts := by
  refine fun s q F h hq ho => ⟨fun hfull => ?_, fun hfull hF => ?_⟩
  · have hd : ((s.fq q).assembly (s.params.N q)).discard = true := by rw [Fq.assembly_of_closed ho, hfull]
    refine ⟨_, runProg_frameStmts_of_discard h.legal hq F hd, ?_⟩
    rw [State.fq_setFq]
    exact ⟨rfl, rfl, rfl, rfl, rfl, rfl, rfl, rfl⟩
  · obtain ⟨g, hg, hrun⟩ := runProg_frameStmts_of_not_full h hq ho hfull F
    refine ⟨_, hrun, ?_⟩
    rw [State.fq_setFq]
    exact hg.wCommit_tooLong h.legal hF

end Sys2Proof.Machine
end

section
/-! What each consumer operation answers: the head frame's length and bytes, and every CCW row as one operation of its
queue (spec/41_queue_read.md R180 to R186). -/

namespace Sys2Proof.Machine

variable {p : Params} {q : Queue} {m : Memory} {j k : Nat} {idx len v : Byte} {x : Fault} {f g : Fq} {s t : State}
  {i : Instr}

/-! ## Reads that find no byte (20_memory.md R80, R84) -/

theorem lenRead_of_unwritten (hm : m.read (lenAddr p k) = none) : lenRead p k m = .error .unwrittenSlotByte := by
  rw [lenRead, hm]

theorem memRead_of_unwritten (hk : k < p.N q) (hj : j < p.M) (hm : m.read (dataAddr p k j) = none) :
    memRead p q k j m = .error .unwrittenSlotByte := by
  rw [memRead, if_pos ⟨hk, hj⟩, hm]

theorem memRead_of_M_le (hj : p.M ≤ j) : memRead p q k j m = .error .outsideSlot :=
  if_neg fun hlt => absurd hlt.2 (Nat.not_lt.mpr hj)

/-! ## The head frame (41_queue_read.md R180, R181) -/

theorem Fq.r_len_of_empty (he : f.r_empty = true) : f.r_len p q = .ok 0 := if_pos he

theorem Fq.r_len_of_nonempty (he : f.r_empty = false) :
    f.r_len p q = lenRead p (slotidx (p.N q) f.rbin) f.mem :=
  if_neg (Bool.eq_false_iff.mp he)

/-- `R_READ` returns a byte of the head slot below `r_len`, which is 0 where the queue is empty. -/
theorem Fq.readByte_of_r_len (hlen : f.r_len p q = .ok len) :
    f.readByte p q idx =
      if idx.toNat < len.toNat then memRead p q (slotidx (p.N q) f.rbin) idx.toNat f.mem else .ok 0 := by
  cases he : f.r_empty with
  | true =>
    rw [Fq.r_len_of_empty he] at hlen
    cases hlen
    rw [Fq.readByte, if_pos he]
    rfl
  | false =>
    rw [Fq.r_len_of_nonempty he] at hlen
    rw [Fq.readByte, if_neg (Bool.eq_false_iff.mp he), hlen]

theorem Fq.readByte_of_r_len_error (hlen : f.r_len p q = .error x) : f.readByte p q idx = .error x := by
  cases he : f.r_empty with
  | true => cases (Fq.r_len_of_empty he).symm.trans hlen
  | false =>
    rw [Fq.r_len_of_nonempty he] at hlen
    rw [Fq.readByte, if_neg (Bool.eq_false_iff.mp he), hlen]

theorem Fq.rRead_of_readByte (hv : f.readByte p q idx = .ok v) : f.rRead p q idx = .ok { f with r_rdata := v } := by
  rw [Fq.rRead, hv]

theorem exec_rRead_of_readByte (hl : s.params.legal = true) (hv : (s.fq q).readByte s.params q idx = .ok v) :
    exec (.rRead q idx) s = .next (s.setFq q { s.fq q with r_rdata := v }) :=
  finishFq_eq_next.mpr ⟨hl, _, Fq.rRead_of_readByte hv, rfl⟩

theorem exec_rRead_of_readByte_error (hl : s.params.legal = true)
    (hx : (s.fq q).readByte s.params q idx = .error x) : exec (.rRead q idx) s = .fault x :=
  finishFq_eq_fault.mpr ⟨hl, by rw [Fq.rRead, hx]⟩

/-- Settles O25: the three cases of `r_len`, its definition. -/
theorem rLenIsTheHeadLength : Obligations.RLenIsTheHeadLength := by
  rintro s q f _ rfl rfl
  refine ⟨Fq.r_len_of_empty, fun len he hlen => ?_, fun he hlen => ?_⟩ <;> rw [Fq.r_len_of_nonempty he]
  · exact lenRead_eq_ok.mpr hlen
  · exact lenRead_of_unwritten hlen

/-- Settles O21: `r_len` is 0, the head slot's length or the fault; below it `R_READ` reads slot memory. -/
theorem rReadResult : Obligations.RReadResult := by
  rintro s q idx _ _ hl rfl rfl
  have hN : 0 < s.params.N q := by have := ring_of_legal hl q; omega
  have hlen {len} (he : (s.fq q).r_empty = false)
      (hm : (s.fq q).mem.read (lenAddr s.params (slotidx (s.params.N q) (s.fq q).rbin)) = some len) :
      (s.fq q).r_len s.params q = .ok len :=
    (Fq.r_len_of_nonempty he).trans (lenRead_eq_ok.mpr hm)
  refine ⟨fun he => ?_, fun len he hm hle => ?_, fun len v he hm hlt hM hv => ?_, ?_, fun len he hm hlt hM => ?_⟩
  · exact exec_rRead_of_readByte hl (Fq.readByte_of_r_len (Fq.r_len_of_empty he))
  · exact exec_rRead_of_readByte hl ((Fq.readByte_of_r_len (hlen he hm)).trans (if_neg (Nat.not_lt.mpr hle)))
  · exact exec_rRead_of_readByte hl (((Fq.readByte_of_r_len (hlen he hm)).trans (if_pos hlt)).trans
      (memRead_eq_ok.mpr ⟨slotidx_lt hN _, hM, hv⟩))
  · rintro he (hm | ⟨len, hm, hlt, hM, hv⟩) <;> refine exec_rRead_of_readByte_error hl ?_
    · exact Fq.readByte_of_r_len_error ((Fq.r_len_of_nonempty he).trans (lenRead_of_unwritten hm))
    · rw [Fq.readByte_of_r_len (hlen he hm), if_pos hlt, memRead_of_unwritten (slotidx_lt hN _) hM hv]
  · refine exec_rRead_of_readByte_error hl ?_
    rw [Fq.readByte_of_r_len (hlen he hm), if_pos hlt, memRead_of_M_le hM]

/-! ## `R_POP` and the one-register operations (41_queue_read.md R182 to R185) -/

theorem Fq.rPop_of_empty {N : Nat} (he : f.r_empty = true) : f.rPop N = { f with r_result := .empty } := if_pos he

theorem Fq.rPop_of_nonempty {N : Nat} (he : f.r_empty = false) :
    f.rPop N = { f with rbin := ptrSucc N f.rbin, rgray := gray (ptrSucc N f.rbin), r_result := .ok } :=
  if_neg (Bool.eq_false_iff.mp he)

/-- The word of a consumer command in numbers, `OP * 0x100 + IDX` (30_encoding.md R113). -/
theorem decode_ccw_add (op : BitVec 3) (he : encode p i = (.r q, commandWord op idx)) :
    decode p (.r q) (op.toNat * 0x100 + idx.toNat) = .ok i :=
  decode_command_add (port := .r q) nofun op idx he

/-- The reserved codes with their free bits in numbers (30_encoding.md R114). -/
theorem decode_rRsv_add (xx : BitVec 2) :
    decode p (.r q) (0x400 + 0x100 * xx.toNat + idx.toNat) = .ok (.rRsv q xx idx) := by
  have h := decode_ccw_add (p := p) (i := .rRsv q xx idx) (0b1#1 ++ xx) rfl
  have hop : (0b1#1 ++ xx).toNat * 0x100 = 0x400 + 0x100 * xx.toNat := by
    rw [toNat_append_eq_add, BitVec.toNat_ofNat]
    omega
  rwa [hop] at h

/-- Settles O22: the two cases of `R_POP`. -/
theorem rPopResult : Obligations.RPopResult := by
  refine fun s q i hl => ⟨decode_ccw_add 2 rfl, fun he => ?_, fun he => ?_⟩ <;>
    rw [exec, execRPop, finishFq_ok hl]
  · rw [Fq.rPop_of_empty he]
  · rw [Fq.rPop_of_nonempty he]

/-- Settles O20: none of the three can fault; `R_NOP` gives back the queue. -/
theorem rNopClrerrAndReservedResult : Obligations.RNopClrerrAndReservedResult := by
  intro s q xx i hl
  refine ⟨decode_ccw_add 0 rfl, decode_ccw_add 3 rfl, decode_rRsv_add xx, ?_, finishFq_ok hl, finishFq_ok hl⟩
  rw [exec, execRNop, finishFq_ok hl, Fq.rNop, State.setFq_fq]

/-! ## Every CCW row is one operation of its queue -/

/-- The operation of a CCW row on its queue; a row of another port has none. -/
def Fq.rOp (p : Params) (q : Queue) (i : Instr) (f : Fq) : Except Fault Fq :=
  match i with
  | .rRead _ idx => f.rRead p q idx
  | .rPop _ _ => .ok (f.rPop (p.N q))
  | .rClrerr _ _ => .ok f.rClrerr
  | .rRsv _ _ _ => .ok f.rRsv
  | _ => .ok f

theorem exec_of_port_r (hi : i.port = .r q) (s : State) : exec i s = finishFq s q ((s.fq q).rOp s.params q i) := by
  cases i with
  | rNop | rRead | rPop | rClrerr | rRsv => cases hi; rfl
  | wNop | wByte | wCommit | wAbort | wClrcnt | wRsv5 | wRsv67 | wireFlag | wireEsc | wireTFlag | wireTEsc
    | wireData => cases hi

/-- A step on a consumer port is the operation of the row on the queue. -/
theorem exec_of_port_r_eq_next (hi : i.port = .r q) :
    exec i s = .next t ↔ s.params.legal = true ∧ ∃ g, (s.fq q).rOp s.params q i = .ok g ∧ t = s.setFq q g := by
  rw [exec_of_port_r hi, finishFq_eq_next]

/-! ## What a consumer operation leaves unchanged, and what it does not look at -/

theorem Fq.rPop_frame (N : Nat) (f : Fq) :
    ∃ rb rg res, f.rPop N = { f with rbin := rb, rgray := rg, r_result := res } := by
  obtain ⟨-, h⟩ | ⟨-, h⟩ := Fq.rPop_cases N f <;> exact ⟨_, _, _, h⟩

/-- A consumer operation writes neither slot memory, nor the write domain, nor `wsync`. -/
theorem Fq.rOp_frame (hg : f.rOp p q i = .ok g) :
    ∃ rd rb rg res oe,
      g = { f with r_rdata := rd, rbin := rb, rgray := rg, r_result := res, r_operr := oe } := by
  cases i with
  | rRead =>
    obtain ⟨_, -, rfl⟩ := Fq.rRead_cases hg
    exact ⟨_, _, _, _, _, rfl⟩
  | rPop =>
    obtain ⟨_, _, _, hpop⟩ := Fq.rPop_frame (p.N q) f
    exact ⟨_, _, _, _, _, (Except.ok.inj hg).symm.trans hpop⟩
  | _ => cases hg; exact ⟨_, _, _, _, _, rfl⟩

/-- Settles O23: everything outside the queue is left by `setFq`, and slot memory, the write domain and `wsync` by every
operation; of the others each operation writes those its rule names. -/
theorem consumerFrame : Obligations.ConsumerFrame := by
  intro s t q i hi ht
  obtain ⟨-, g, hg, rfl⟩ := (exec_of_port_r_eq_next hi).mp ht
  refine ⟨fun q' hq' => State.fq_setFq_ne _ _ _ _ hq', State.setFq_params .., State.setFq_frx .., State.setFq_ftx ..,
    State.setFq_txlog .., State.setFq_pending .., State.setFq_draws .., State.setFq_seen .., ?_⟩
  rw [State.fq_setFq]
  have hown : ((∀ k, i ≠ .rRead q k) → g.r_rdata = (s.fq q).r_rdata)
      ∧ ((∀ k, i ≠ .rPop q k) → g.rbin = (s.fq q).rbin ∧ g.rgray = (s.fq q).rgray ∧ g.r_result = (s.fq q).r_result)
      ∧ ((∀ k, i ≠ .rClrerr q k) → (∀ xx k, i ≠ .rRsv q xx k) → g.r_operr = (s.fq q).r_operr) := by
    cases i with
    | wNop | wByte | wCommit | wAbort | wClrcnt | wRsv5 | wRsv67 | wireFlag | wireEsc | wireTFlag | wireTEsc
      | wireData => cases hi
    | rRead _ k =>
      cases hi
      obtain ⟨_, -, rfl⟩ := Fq.rRead_cases hg
      exact ⟨fun hr => absurd rfl (hr k), fun _ => ⟨rfl, rfl, rfl⟩, fun _ _ => rfl⟩
    | rPop _ k =>
      cases hi
      obtain ⟨_, _, _, hpop⟩ := Fq.rPop_frame (s.params.N q) (s.fq q)
      obtain rfl := hpop.symm.trans (Except.ok.inj hg)
      exact ⟨fun _ => rfl, fun hp => absurd rfl (hp k), fun _ _ => rfl⟩
    | rNop =>
      cases hg
      exact ⟨fun _ => rfl, fun _ => ⟨rfl, rfl, rfl⟩, fun _ _ => rfl⟩
    | rClrerr _ k =>
      cases hi
      cases hg
      exact ⟨fun _ => rfl, fun _ => ⟨rfl, rfl, rfl⟩, fun hc => absurd rfl (hc k)⟩
    | rRsv _ xx k =>
      cases hi
      cases hg
      exact ⟨fun _ => rfl, fun _ => ⟨rfl, rfl, rfl⟩, fun _ hr => absurd rfl (hr xx k)⟩
  obtain ⟨_, _, _, _, _, rfl⟩ := Fq.rOp_frame hg
  exact ⟨fun _ => rfl, rfl, rfl, rfl, rfl, rfl, rfl, rfl, rfl, rfl, rfl, rfl, rfl, hown⟩

/-- `f` with the registers of the write domain taken from `h`. -/
def Fq.withWriteDomain (f h : Fq) : Fq :=
  { f with
    wbin := h.wbin, wgray := h.wgray, rsync := h.rsync, w_open := h.w_open, w_len := h.w_len,
    w_discard := h.w_discard, w_oversize := h.w_oversize, w_result := h.w_result, w_drop_cnt := h.w_drop_cnt,
    w_long_cnt := h.w_long_cnt, w_operr := h.w_operr }

/-- No consumer operation looks at the write domain: `r_empty` is the read domain's, and the head frame is read from
slot memory. -/
theorem Fq.rOp_withWriteDomain (f h : Fq) :
    (f.withWriteDomain h).rOp p q i = (f.rOp p q i).map (·.withWriteDomain h) := by
  cases i with
  | rRead _ idx =>
    have hread : (f.withWriteDomain h).readByte p q idx = f.readByte p q idx := rfl
    simp only [Fq.rOp, Fq.rRead, hread]
    cases f.readByte p q idx <;> rfl
  | rPop =>
    have hempty : (f.withWriteDomain h).r_empty = f.r_empty := rfl
    simp only [Fq.rOp, Fq.rPop, hempty]
    split_ifs <;> rfl
  | _ => rfl

/-- Another write domain gives the same step, with that write domain carried along. -/
theorem exec_setFq_withWriteDomain (hi : i.port = .r q) (ht : exec i s = .next t) (h : Fq) :
    exec i (s.setFq q ((s.fq q).withWriteDomain h)) = .next (t.setFq q ((t.fq q).withWriteDomain h)) := by
  obtain ⟨hl, g, hg, rfl⟩ := (exec_of_port_r_eq_next hi).mp ht
  have hop := Fq.rOp_withWriteDomain (p := s.params) (q := q) (i := i) (s.fq q) h
  rw [hg] at hop
  exact (exec_of_port_r_eq_next hi).mpr
    ⟨by rwa [State.setFq_params], g.withWriteDomain h, by rwa [State.fq_setFq, State.setFq_params], by simp⟩

/-- Settles O24: the operation of the row on the queue does not look at the write domain. -/
theorem consumerIgnoresWriteDomain : Obligations.ConsumerIgnoresWriteDomain := by
  intro s t q i wb wg rs wo wd wv we wl wr dc lc hi ht
  exact exec_setFq_withWriteDomain hi ht
    { s.fq q with
      wbin := wb, wgray := wg, rsync := rs, w_open := wo, w_len := wl, w_discard := wd, w_oversize := wv
      w_result := wr, w_drop_cnt := dc, w_long_cnt := lc, w_operr := we }

end Sys2Proof.Machine
end

section
/-! `dequeue()`: the head frame read byte by byte and an `R_POP` on a port that an external agent drives
(spec/41_queue_read.md R180 to R183, R187; spec/20_memory.md R97). -/

namespace Sys2Proof.Machine

variable {p : Params} {q : Queue} {idx : Byte} {f : Fq} {s : State}

/-! ## The head frame -/

theorem Fq.frames_head? (hpos : 0 < f.occupancy (p.N q)) :
    (f.frames p q).head? = some (f.slotFrame p (slotidx (p.N q) f.rbin)) := by
  rw [Fq.frames, List.head?_map, List.head?_range, if_neg hpos.ne', Option.map_some, Fq.slotAt_zero]

/-- What the consumer sees as non-empty shows it the head frame: its length, and each of its bytes (41_queue_read.md
R180, R181). -/
theorem Fq.Inv.headFrame (hl : p.legal = true) (h : f.Inv p q) (he : f.r_empty = false) :
    ∃ F : Frame, (f.frames p q).head? = some (some F) ∧ f.r_len p q = .ok (BitVec.ofNat 8 F.length) ∧ F.length ≤ p.M
      ∧ ∀ (i : Nat) (hi : i < F.length), f.readByte p q (BitVec.ofNat 8 i) = .ok F[i] := by
  have hpos := h.occupancy_pos_of_nonempty hl he
  obtain ⟨len, F, hlen, hbytes, hle⟩ := h.committed hpos
  have hF : F.length = len.toNat := Memory.readBytes_length _ _ _ hbytes
  rw [Fq.slotAt_zero] at hlen hbytes
  have hrlen : f.r_len p q = .ok len := (Fq.r_len_of_nonempty he).trans (lenRead_eq_ok.mpr hlen)
  refine ⟨F, ?_, ?_, hF.trans_le hle, fun i hi => ?_⟩
  · rw [Fq.frames_head? hpos, Fq.slotFrame_eq_some.mpr ⟨len, hlen, hbytes⟩]
  · rw [hrlen, hF, BitVec.ofNat_toNat, BitVec.setWidth_eq]
  · have hilen : i < len.toNat := hF ▸ hi
    have hidx : (BitVec.ofNat 8 i).toNat = i := by
      rw [BitVec.toNat_ofNat]
      exact Nat.mod_eq_of_lt (hilen.trans len.isLt)
    have hN : 0 < p.N q := by have := ring_of_legal hl q; omega
    have hread := Memory.read_of_readBytes _ _ _ hbytes i hilen
    rw [List.getElem?_eq_getElem hi] at hread
    rw [Fq.readByte_of_r_len hrlen, hidx, if_pos hilen]
    exact memRead_eq_ok.mpr ⟨slotidx_lt hN _, hilen.trans_le hle, hread⟩

/-! ## The run of a dequeue -/

/-- The consumer ports of `QR` and `QH` have an external driver, TASK (10_state.md R30). -/
theorem external_driver_r (hq : q ≠ .qt) : (Port.r q).driver.external = true := by
  cases q with
  | qr | qh => rfl
  | qt => exact absurd rfl hq

theorem step_load_rRead {prog : List Stmt} {v : Byte} (hl : s.params.legal = true) (hq : q ≠ .qt)
    (hv : (s.fq q).readByte s.params q idx = .ok v) :
    step (s.load (.rRead q idx :: prog)) = .next ((s.setFq q { s.fq q with r_rdata := v }).load prog) := by
  have hdec := decode_encode_of_command (p := s.params) (i := .rRead q idx) nofun
  rw [step_load_of_drive hl rfl (external_driver_r hq) hdec,
    exec_rRead_of_readByte (s := s.load prog) hl (by rwa [State.load_fq]), State.load_fq, State.setFq_load]

theorem step_load_rPop {prog : List Stmt} (hl : s.params.legal = true) (hq : q ≠ .qt) :
    step (s.load (.rPop q :: prog)) = .next ((s.setFq q ((s.fq q).rPop (s.params.N q))).load prog) := by
  have hdec := decode_encode_of_command (p := s.params) (i := .rPop q 0) nofun
  rw [step_load_of_drive hl rfl (external_driver_r hq) hdec, exec, execRPop, State.load_fq, State.load_params,
    finishFq_ok (s := s.load prog) hl, State.setFq_load]

/-- Reads that find a byte, and then a pop, end in the `R_POP` of a queue that differs in `r_rdata` alone. -/
theorem runProg_reads_pop (hl : s.params.legal = true) (hq : q ≠ .qt) (idxs : List Byte)
    (hread : ∀ idx, ∃ v, (s.fq q).readByte s.params q idx = .ok v) :
    ∃ v, runProg s (idxs.map (.rRead q) ++ [.rPop q])
      = .next (s.setFq q ({ s.fq q with r_rdata := v }.rPop (s.params.N q))) := by
  induction idxs generalizing s with
  | nil =>
    refine ⟨(s.fq q).r_rdata, ?_⟩
    rw [List.map_nil, List.nil_append, runProg_cons (step_load_rPop hl hq)]
    rfl
  | cons idx idxs ih =>
    obtain ⟨v, hv⟩ := hread idx
    have hrest := ih (s := s.setFq q { s.fq q with r_rdata := v }) (by rwa [State.setFq_params])
      (by rw [State.fq_setFq, State.setFq_params]; exact hread)
    rw [List.map_cons, List.cons_append, runProg_cons (step_load_rRead hl hq hv)]
    simpa using hrest

theorem takeStmts_eq (q : Queue) (k : Nat) :
    takeStmts q k = ((List.range k).map (BitVec.ofNat 8)).map (.rRead q) ++ [.rPop q] := by
  rw [takeStmts, List.map_map]
  rfl

/-- Settles O26: the committed head slot shows the frame, the reads leave the queue as it is but for `r_rdata`, and the
pop takes the frame from the front. -/
theorem dequeueReturnsTheHeadFrame : Obligations.DequeueReturnsTheHeadFrame := by
  intro s q h hq he
  have hf := h.fq q
  obtain ⟨F, hhead, hlen, hle, hbytes⟩ := hf.headFrame h.legal he
  obtain ⟨v, hrun⟩ := runProg_reads_pop h.legal hq ((List.range F.length).map (BitVec.ofNat 8))
    (hf.readByte_ok h.legal)
  rw [← takeStmts_eq] at hrun
  refine ⟨F, hhead, hlen, hle, fun i hi => exec_rRead_of_readByte h.legal (hbytes i hi), _, hrun, ?_⟩
  have hpop := Fq.rPop_of_nonempty (N := s.params.N q) (f := { s.fq q with r_rdata := v }) he
  have hmove : Fq.Move s.params q (s.fq q) ({ s.fq q with r_rdata := v }.rPop (s.params.N q)) := by
    rw [hpop]
    exact .pop he rfl rfl rfl rfl
  have hne : ({ s.fq q with r_rdata := v }.rPop (s.params.N q)).rbin ≠ (s.fq q).rbin := by
    rw [hpop]
    exact ptrSucc_ne (ring_of_legal h.legal q).2 hf.pointers.rbin_lt
  obtain ⟨hframes, -, hresult⟩ := hmove.frames_of_rbin_ne h.legal hf hne
  rw [State.fq_setFq]
  exact ⟨hframes, hresult⟩

end Sys2Proof.Machine
end

section
/-! One clock of a synchroniser: the chain it makes, what it does to the view behind it, and that it keeps the invariant of
its queue (spec/42_sync.md R201, R202, R208, R209). -/

namespace Sys2Proof.Machine

variable {p : Params} {q : Queue} {N S : Nat} {src g : Ptr} {chain : List Ptr} {f : Fq}

/-! ## A chain and its clock -/

/-- How far `src` is ahead of the gray-coded pointer `g`, on a ring of `2N`. -/
def lagBehind (N : Nat) (src g : Ptr) : Nat := (ptrDiff N src (gray2bin g)).toNat

theorem Fq.lagW_eq_lagBehind (N : Nat) (f : Fq) : f.lagW N = lagBehind N f.wbin f.wq := rfl

theorem Fq.lagR_eq_lagBehind (N : Nat) (f : Fq) : f.lagR N = lagBehind N f.rbin f.rq := rfl

theorem lagBehind_gray (h : 2 * N ∣ 256 ∧ 2 ≤ N ∧ N ≤ 128) (hsrc : src.toNat < 2 * N) :
    lagBehind N src (gray src) = 0 := by
  rw [lagBehind, gray2bin_gray]
  exact (ptrDiff_eq_zero_iff h hsrc hsrc).mpr rfl

theorem lastStage_eq_getLast (hne : chain ≠ []) : lastStage chain = chain.getLast hne := by
  rw [lastStage, List.getLastD_eq_getLast?, List.getLast?_eq_getLast_of_ne_nil hne, Option.getD_some]

namespace ChainInv

/-- The last stage holds the oldest value (42_sync.md R209, 2). -/
theorem lag_le_lastStage (h : ChainInv N S src chain) (hg : g ∈ chain) :
    lagBehind N src g ≤ lagBehind N src (lastStage chain) := by
  have hlast := (List.pairwise_map.mp h.older).rel_getLast_of_rel_getLast_getLast hg le_rfl
  rwa [← lastStage_eq_getLast] at hlast

/-- A clock of the chain takes in the source and drops the last stage. -/
theorem shiftIn (hN : 2 * N ∣ 256 ∧ 2 ≤ N ∧ N ≤ 128) (hS : 1 ≤ S) (hsrc : src.toNat < 2 * N)
    (h : ChainInv N S src chain) : ChainInv N S src (Machine.shiftIn (gray src) chain) where
  length_eq := (shiftIn_length (h.length_eq ▸ hS)).trans h.length_eq
  stage_lt := fun g hg => by
    rcases mem_shiftIn hg with rfl | hg
    · rwa [gray2bin_gray]
    · exact h.stage_lt g hg
  older := by
    rw [Machine.shiftIn, List.map_cons, List.pairwise_cons]
    refine ⟨fun lag _ => ?_, h.older.sublist ((List.dropLast_sublist chain).map _)⟩
    exact (lagBehind_gray hN hsrc).trans_le (Nat.zero_le lag)

/-- A clock of the chain brings its last stage no further behind. -/
theorem lag_lastStage_shiftIn_le (hN : 2 * N ∣ 256 ∧ 2 ≤ N ∧ N ≤ 128) (hS : 1 ≤ S) (hsrc : src.toNat < 2 * N)
    (h : ChainInv N S src chain) :
    lagBehind N src (lastStage (Machine.shiftIn (gray src) chain)) ≤ lagBehind N src (lastStage chain) := by
  have hmem := lastStage_mem (chain := Machine.shiftIn (gray src) chain)
    ((h.shiftIn hN hS hsrc).length_eq ▸ hS)
  rcases mem_shiftIn hmem with heq | hmem
  · rw [heq, lagBehind_gray hN hsrc]
    exact Nat.zero_le _
  · exact h.lag_le_lastStage hmem

end ChainInv

namespace Fq.Inv

/-! ## The consumer's view -/

/-- The consumer's level is the occupancy less the frames whose commit it has not seen yet (42_sync.md R209, 3). -/
theorem r_level_add_lagW (hl : p.legal = true) (h : f.Inv p q) :
    (f.r_level (p.N q)).toNat + f.lagW (p.N q) = f.occupancy (p.N q) := by
  have hr := ring_of_legal hl q
  have hle := h.lags.lagW_le
  have hw := h.pointers.wbin_lt
  have hb := h.pointers.rbin_lt
  have hwq := h.wq_lt hl
  rw [Fq.lagW, Fq.occupancy] at hle ⊢
  rw [Fq.r_level]
  rw [ptrDiff_toNat_eq_ite hr hw hwq, ptrDiff_toNat_eq_ite hr hw hb] at hle ⊢
  rw [ptrDiff_toNat_eq_ite hr hwq hb]
  split_ifs at hle ⊢ <;> omega

/-- `r_empty` is the level 0 (42_sync.md R208). -/
theorem r_empty_iff (hl : p.legal = true) (h : f.Inv p q) :
    f.r_empty = true ↔ (f.r_level (p.N q)).toNat = 0 := by
  rw [Fq.r_level, ptrDiff_eq_zero_iff (ring_of_legal hl q) (h.wq_lt hl) h.pointers.rbin_lt, Fq.r_empty, beq_iff_eq,
    h.pointers.rgray_eq]
  constructor
  · intro heq
    rw [← heq, gray2bin_gray]
  · intro heq
    rw [← heq, gray_gray2bin]

/-! ## The clocks keep the invariant -/

theorem lagW_syncW2R_le (hl : p.legal = true) (h : f.Inv p q) : f.syncW2R.lagW (p.N q) ≤ f.lagW (p.N q) := by
  rw [Fq.lagW_eq_lagBehind, Fq.wq, Fq.syncW2R, h.pointers.wgray_eq]
  exact h.wchain.lag_lastStage_shiftIn_le (ring_of_legal hl q) (le_trans (by decide) (Params.legal_S hl q))
    h.pointers.wbin_lt

theorem lagR_syncR2W_le (hl : p.legal = true) (h : f.Inv p q) : f.syncR2W.lagR (p.N q) ≤ f.lagR (p.N q) := by
  rw [Fq.lagR_eq_lagBehind, Fq.rq, Fq.syncR2W, h.pointers.rgray_eq]
  exact h.rchain.lag_lastStage_shiftIn_le (ring_of_legal hl q) (le_trans (by decide) (Params.legal_S hl q))
    h.pointers.rbin_lt

/-- A clock of `q.SYNC_W2R` keeps the invariant of the queue. -/
theorem syncW2R (hl : p.legal = true) (h : f.Inv p q) : f.syncW2R.Inv p q := by
  have hchain := h.wchain.shiftIn (ring_of_legal hl q) (le_trans (by decide) (Params.legal_S hl q)) h.pointers.wbin_lt
  rw [← h.pointers.wgray_eq] at hchain
  obtain ⟨hbin, hbin', hgray, hgray'⟩ := h.pointers
  obtain ⟨hclosed, hdiscarded, hle, hover, hstoring⟩ := h.assembly
  exact {
    pointers := ⟨hbin, hbin', hgray, hgray'⟩
    rchain := h.rchain
    wchain := hchain
    lags := ⟨(h.lagW_syncW2R_le hl).trans h.lags.lagW_le, h.lags.lagR_le⟩
    assembly := ⟨hclosed, hdiscarded, hle, hover, hstoring⟩
    slots := h.slots
    mem_wf := h.mem_wf
    mem_lt := h.mem_lt
    drop_le := h.drop_le
    long_le := h.long_le }

/-- A clock of `q.SYNC_R2W` keeps the invariant of the queue: the producer sees no fewer free slots. -/
theorem syncR2W (hl : p.legal = true) (h : f.Inv p q) : f.syncR2W.Inv p q := by
  have hring := ring_of_legal hl q
  have hS : 1 ≤ p.S q := le_trans (by decide) (Params.legal_S hl q)
  have hchain := h.rchain.shiftIn hring hS h.pointers.rbin_lt
  rw [← h.pointers.rgray_eq] at hchain
  have hlag := h.lagR_syncR2W_le hl
  have hlagN : f.occupancy (p.N q) + f.syncR2W.lagR (p.N q) ≤ p.N q :=
    (Nat.add_le_add_left hlag _).trans h.lags.lagR_le
  have hlevel : (f.syncR2W.w_level (p.N q)).toNat = f.occupancy (p.N q) + f.syncR2W.lagR (p.N q) :=
    ptrDiff_add hring h.pointers.wbin_lt h.pointers.rbin_lt (hchain.lastStage_lt hS)
      (lt_of_le_of_lt hlagN (by omega))
  have hlevel' := h.w_level_eq hl
  obtain ⟨hbin, hbin', hgray, hgray'⟩ := h.pointers
  obtain ⟨hclosed, hdiscarded, hle, hover, hstoring⟩ := h.assembly
  exact {
    pointers := ⟨hbin, hbin', hgray, hgray'⟩
    rchain := hchain
    wchain := h.wchain
    lags := ⟨h.lags.lagW_le, hlagN⟩
    assembly := ⟨hclosed, hdiscarded, hle, hover, fun ho hd => (hstoring ho hd).imp_left fun hlt => by omega⟩
    slots := h.slots
    mem_wf := h.mem_wf
    mem_lt := h.mem_lt
    drop_le := h.drop_le
    long_le := h.long_le }

/-! ## The clocks and the flags (42_sync.md R211) -/

theorem r_empty_syncW2R (hl : p.legal = true) (h : f.Inv p q) (he : f.r_empty = false) : f.syncW2R.r_empty = false := by
  have hlag := h.lagW_syncW2R_le hl
  have hlevel := h.r_level_add_lagW hl
  have hlevel' : (f.syncW2R.r_level (p.N q)).toNat + f.syncW2R.lagW (p.N q) = f.occupancy (p.N q) :=
    (h.syncW2R hl).r_level_add_lagW hl
  rw [Bool.eq_false_iff] at he ⊢
  rw [ne_eq, h.r_empty_iff hl] at he
  rw [ne_eq, (h.syncW2R hl).r_empty_iff hl]
  omega

theorem w_full_syncR2W (hl : p.legal = true) (h : f.Inv p q) (hf : f.w_full (p.N q) = false) :
    f.syncR2W.w_full (p.N q) = false := by
  have hlag := h.lagR_syncR2W_le hl
  have hle := h.lags.lagR_le
  have hlevel := h.w_level_eq hl
  have hlevel' : (f.syncR2W.w_level (p.N q)).toNat = f.occupancy (p.N q) + f.syncR2W.lagR (p.N q) :=
    (h.syncR2W hl).w_level_eq hl
  rw [Bool.eq_false_iff] at hf ⊢
  rw [ne_eq, h.w_full_iff hl] at hf
  rw [ne_eq, (h.syncR2W hl).w_full_iff hl]
  omega

end Fq.Inv

end Sys2Proof.Machine
end

section
/-! What a step does to one queue: a `RESET`, a clock of one of its synchronisers, or at most one operation on one of its
ports; and with that how its flags move and what stays of its head frame (spec/41_queue_read.md R188, R189;
spec/40_queue_write.md R154; spec/42_sync.md R211). -/

namespace Sys2Proof.Machine

variable {p : Params} {q : Queue} {N : Nat} {e : Event} {rest : List Event} {f g : Fq} {s t : State} {i : Instr}

/-! ## The operations of a queue's two ports -/

theorem State.fq_setFq_cases (s : State) (q q' : Queue) (g : Fq) :
    (q = q' ∧ (s.setFq q g).fq q' = g) ∨ (s.setFq q g).fq q' = s.fq q' := by
  by_cases hq : q = q'
  · subst hq
    exact .inl ⟨rfl, State.fq_setFq ..⟩
  · exact .inr (State.fq_setFq_ne _ _ _ _ (Ne.symm hq))

/-- One operation on a port of queue `q`, or none, makes `g` of `f`. -/
def Fq.PortOp (p : Params) (q : Queue) (f g : Fq) : Prop := ∃ i, f.wOp p q i = .ok g ∨ f.rOp p q i = .ok g

namespace Fq.PortOp

theorem refl : PortOp p q f f := ⟨.wNop q 0, .inl rfl⟩

theorem of_frxOp {op : FrxOp} (h : op.run p f = .ok g) : PortOp p .qh f g := by
  obtain ⟨-, rfl⟩ | ⟨v, -, hv⟩ | ⟨-, rfl⟩ | ⟨-, rfl⟩ := FrxOp.run_cases h
  · exact .refl
  · exact ⟨.wByte .qh v, .inl hv⟩
  · exact ⟨.wCommit .qh 0, .inl rfl⟩
  · exact ⟨.wAbort .qh 0, .inl rfl⟩

/-- An operation on one queue leaves the others. -/
theorem setFq (h : PortOp s.params q (s.fq q) g) (q' : Queue) :
    PortOp s.params q' (s.fq q') ((s.setFq q g).fq q') := by
  obtain ⟨rfl, hg⟩ | hg := State.fq_setFq_cases s q q' g <;> rw [hg]
  · exact h
  · exact .refl

end Fq.PortOp

/-! ## What a step does to a queue -/

theorem frxStep_portOp {b : Byte} (h : frxStep b s = .next t) (q : Queue) :
    Fq.PortOp s.params q (s.fq q) (t.fq q) := by
  obtain ⟨-, f, hf, rfl⟩ := frxStep_eq_next.mp h
  cases q with
  | qh => exact .of_frxOp hf
  | qr | qt => exact .refl

theorem exec_portOp (h : exec i s = .next t) (q : Queue) : Fq.PortOp s.params q (s.fq q) (t.fq q) := by
  cases hport : i.port with
  | w q' =>
    obtain ⟨-, g, hg, rfl⟩ := (exec_of_port_w_eq_next hport).mp h
    exact Fq.PortOp.setFq ⟨i, .inl hg⟩ q
  | r q' =>
    obtain ⟨-, g, hg, rfl⟩ := (exec_of_port_r_eq_next hport).mp h
    exact Fq.PortOp.setFq ⟨i, .inr hg⟩ q
  | rx =>
    cases i with
    | wireFlag | wireEsc | wireTFlag | wireTEsc | wireData => exact frxStep_portOp h q
    | _ => cases hport

/-- FTX reads `QT` in DATA and pops it in CLOSE (44_framer_tx.md R264, R265). -/
theorem ftxStep_portOp (h : ftxStep s = .ok t) (q : Queue) : Fq.PortOp s.params q (s.fq q) (t.fq q) := by
  have hqt : Fq.PortOp s.params .qt s.qt t.qt ∧ t.qr = s.qr ∧ t.qh = s.qh := by
    obtain ⟨-, rfl⟩ | ⟨-, ⟨-, hi⟩ | ⟨-, rfl⟩ | ⟨-, hd⟩ | ⟨-, rfl⟩⟩ := ftxStep_cases h
    · exact ⟨.refl, rfl, rfl⟩
    · obtain ⟨-, rfl⟩ | ⟨-, _, -, rfl⟩ := ftxIdle_cases hi
      · exact ⟨.refl, rfl, rfl⟩
      · exact ⟨.refl, rfl, rfl⟩
    · exact ⟨.refl, rfl, rfl⟩
    · obtain ⟨v, hv, rfl⟩ := ftxData_cases hd
      exact ⟨⟨.rRead .qt s.ftx.e_idx, .inr (Fq.rRead_of_readByte hv)⟩, rfl, rfl⟩
    · exact ⟨⟨.rPop .qt 0, .inr rfl⟩, rfl, rfl⟩
  obtain ⟨hop, hqr, hqh⟩ := hqt
  cases q with
  | qt => exact hop
  | qr => rw [State.fq_qr, State.fq_qr, hqr]; exact .refl
  | qh => rw [State.fq_qh, State.fq_qh, hqh]; exact .refl

theorem sample_portOp {d : Domain} {o : Output} (h : sample d o s = .ok t) (q : Queue) :
    Fq.PortOp s.params q (s.fq q) (t.fq q) := by
  obtain ⟨-, _, -, rfl⟩ | ⟨-, rfl⟩ := sample_cases h <;> cases q <;> exact .refl

/-- Everything an event can do to queue `q`. -/
theorem runEvent_fq_cases (h : runEvent e s = .next t) (q : Queue) :
    (e = .reset ∧ t.fq q = Fq.resetTo (s.params.S q) (s.fq q).mem)
    ∨ (e = .syncW2R q ∧ t.fq q = (s.fq q).syncW2R)
    ∨ (e = .syncR2W q ∧ t.fq q = (s.fq q).syncR2W)
    ∨ Fq.PortOp s.params q (s.fq q) (t.fq q) := by
  obtain ⟨_, _, _, i, -, -, -, hi⟩ | ⟨-, hf⟩ | ⟨q', rfl, rfl⟩ | ⟨q', rfl, rfl⟩ | ⟨rfl, rfl⟩ | ⟨d, o, -, ho⟩ :=
    runEvent_cases h
  · exact .inr (.inr (.inr (exec_portOp hi q)))
  · exact .inr (.inr (.inr (ftxStep_portOp hf q)))
  · obtain ⟨rfl, ht⟩ | ht := State.fq_setFq_cases s q' q (s.fq q').syncW2R
    · exact .inr (.inl ⟨rfl, ht⟩)
    · exact .inr (.inr (.inr (ht ▸ .refl)))
  · obtain ⟨rfl, ht⟩ | ht := State.fq_setFq_cases s q' q (s.fq q').syncR2W
    · exact .inr (.inr (.inl ⟨rfl, ht⟩))
    · exact .inr (.inr (.inr (ht ▸ .refl)))
  · exact .inl ⟨rfl, State.fq_resetAll ..⟩
  · exact .inr (.inr (.inr (sample_portOp ho q)))

/-- Everything the step of a pending event can do to queue `q`. -/
theorem step_fq_cases (hp : s.pending = e :: rest) (h : step s = .next t) (q : Queue) :
    (e = .reset ∧ t.fq q = Fq.resetTo (s.params.S q) (s.fq q).mem)
    ∨ (e = .syncW2R q ∧ t.fq q = (s.fq q).syncW2R)
    ∨ (e = .syncR2W q ∧ t.fq q = (s.fq q).syncR2W)
    ∨ Fq.PortOp s.params q (s.fq q) (t.fq q) := by
  rw [step_of_pending_cons (step_cases h).1 hp] at h
  simpa using runEvent_fq_cases h q

/-! ## The flags under an operation (40_queue_write.md R154, 41_queue_read.md R188, R189) -/

/-- Of the operations only a pop of what the consumer sees as non-empty can change `r_empty`. -/
theorem Fq.PortOp.r_empty_cases (h : PortOp p q f g) :
    g.r_empty = f.r_empty ∨ (f.r_empty = false ∧ g.rbin = ptrSucc (p.N q) f.rbin) := by
  obtain ⟨i, hg | hg⟩ := h
  · rw [← Fq.wOp_foreign hg]
    exact .inl rfl
  · cases i with
    | rPop =>
      obtain rfl := Except.ok.inj hg
      obtain ⟨-, hpop⟩ | ⟨he, hpop⟩ := Fq.rPop_cases (p.N q) f <;> rw [hpop]
      · exact .inl rfl
      · exact .inr ⟨he, rfl⟩
    | rRead =>
      obtain ⟨_, -, rfl⟩ := Fq.rRead_cases hg
      exact .inl rfl
    | _ => cases hg; exact .inl rfl

/-- Of the operations only a commit that publishes a frame can change `w_full`. -/
theorem Fq.PortOp.w_full_cases (h : PortOp p q f g) :
    g.w_full N = f.w_full N
    ∨ ((f.assembly (p.N q)).discard = false ∧ g.wbin = ptrSucc (p.N q) f.wbin ∧ g.w_result = .ok) := by
  obtain ⟨i, hg | hg⟩ := h
  · cases i with
    | wByte =>
      obtain ⟨_, _, _, _, _, rfl⟩ := Fq.wByte_frame hg
      exact .inl rfl
    | wCommit =>
      obtain rfl := Except.ok.inj hg
      obtain ⟨-, hc⟩ | ⟨-, -, hc⟩ | ⟨hd, -, hc⟩ := Fq.wCommit_cases p q f <;> rw [hc]
      · exact .inl rfl
      · exact .inl rfl
      · exact .inr ⟨hd, rfl, rfl⟩
    | _ => cases hg; exact .inl rfl
  · obtain ⟨_, _, _, _, _, rfl⟩ := Fq.rOp_frame hg
    exact .inl rfl

/-- Where a frame is kept, `w_full` is 0: fullness was sampled when the frame opened, and no step raises it since
(40_queue_write.md R154). -/
theorem Fq.Inv.w_full_of_kept (hl : p.legal = true) (h : f.Inv p q) (hd : (f.assembly (p.N q)).discard = false) :
    f.w_full (p.N q) = false := by
  rw [Bool.eq_false_iff, ne_eq, h.w_full_iff hl]
  exact (h.w_level_lt hl hd).ne

/-! ## The flags after reset (10_state.md R34 to R41) -/

theorem lastStage_replicate_zero (S : Nat) : lastStage (List.replicate S 0) = 0 := by
  rw [lastStage, List.getLastD_eq_getLast?, List.getLast?_replicate]
  split <;> rfl

theorem Fq.r_empty_resetTo (S : Nat) (m : Memory) : (Fq.resetTo S m).r_empty = true :=
  beq_iff_eq.mpr (lastStage_replicate_zero S).symm

theorem fullMask_ne_zero (hN : N = 2 ∨ N = 4 ∨ N = 8 ∨ N = 16 ∨ N = 32 ∨ N = 64 ∨ N = 128) : fullMask N ≠ 0 := by
  rcases hN with rfl | rfl | rfl | rfl | rfl | rfl | rfl <;> decide

theorem Fq.w_full_resetTo (hl : p.legal = true) (q : Queue) (S : Nat) (m : Memory) :
    (Fq.resetTo S m).w_full (p.N q) = false := by
  have hrq : (Fq.resetTo S m).rq = 0 := lastStage_replicate_zero S
  rw [Fq.w_full, hrq]
  exact beq_eq_false_iff_ne.mpr fun h0 => fullMask_ne_zero (Params.legal_N hl q) (BitVec.zero_xor.symm.trans h0.symm)

/-- Settles O33: `RESET` sets both flags as of an empty queue; a clock of a synchroniser moves one flag, and only down;
of the operations a pop moves `r_empty`, and a commit of a kept frame moves `w_full`, which was 0. -/
theorem flagsMoveOnlyAt : Obligations.FlagsMoveOnlyAt := by
  intro s t e rest q h hp ht
  have hf := h.fq q
  obtain ⟨he, hq⟩ | ⟨he, hq⟩ | ⟨he, hq⟩ | hop := step_fq_cases hp ht q
  · rw [hq, Fq.r_empty_resetTo, Fq.w_full_resetTo h.legal]
    exact ⟨fun _ => nofun, fun _ _ => .inl he, fun _ => nofun, fun _ _ => .inr he⟩
  · have hfull : (t.fq q).w_full (s.params.N q) = (s.fq q).w_full (s.params.N q) := by rw [hq]; rfl
    rw [hfull, hq]
    refine ⟨fun _ _ => he, fun hne hempty => ?_, fun h0 h1 => ?_, fun h1 h0 => ?_⟩
    · cases (hf.r_empty_syncW2R h.legal hne).symm.trans hempty
    · cases h0.symm.trans h1
    · cases h1.symm.trans h0
  · have hempty : (t.fq q).r_empty = (s.fq q).r_empty := by rw [hq]; rfl
    rw [hempty, hq]
    refine ⟨fun h1 h0 => ?_, fun h0 h1 => ?_, fun hne hfull => ?_, fun _ _ => .inl he⟩
    · cases h1.symm.trans h0
    · cases h0.symm.trans h1
    · cases (hf.w_full_syncR2W h.legal hne).symm.trans hfull
  · have hempty := hop.r_empty_cases
    have hfull := (hop.w_full_cases (N := s.params.N q)).imp_right
      fun hkept => And.intro (hf.w_full_of_kept h.legal hkept.1) hkept.2
    refine ⟨fun h1 h0 => ?_, fun h0 h1 => ?_, fun h0 h1 => ?_, fun h1 h0 => ?_⟩
    · simp [h0, h1] at hempty
    · exact hempty.elim (fun heq => by simp [h0, h1] at heq) fun hpop => .inr hpop.2
    · exact hfull.elim (fun heq => by simp [h0, h1] at heq) fun hc => hc.2
    · simp [h0, h1] at hfull

/-! ## The head frame stays (41_queue_read.md R188, 20_memory.md R89) -/

/-- `r_len` and `R_READ` look at `r_empty`, `rbin` and the bytes of the head slot, and at nothing else. -/
theorem Fq.head_congr (he : g.r_empty = f.r_empty) (hr : g.rbin = f.rbin)
    (hmem : ∀ a, lenAddr p (slotidx (p.N q) f.rbin) ≤ a → a < lenAddr p (slotidx (p.N q) f.rbin) + (p.M + 1) →
      g.mem.read a = f.mem.read a) :
    g.r_len p q = f.r_len p q ∧ ∀ idx, g.readByte p q idx = f.readByte p q idx := by
  have hlen : lenRead p (slotidx (p.N q) f.rbin) g.mem = lenRead p (slotidx (p.N q) f.rbin) f.mem := by
    rw [lenRead, lenRead, hmem _ le_rfl (by omega)]
  have hdata (j : Nat) :
      memRead p q (slotidx (p.N q) f.rbin) j g.mem = memRead p q (slotidx (p.N q) f.rbin) j f.mem := by
    by_cases hj : j < p.M
    · rw [memRead, memRead, hmem _ (by rw [dataAddr_eq]; omega) (by rw [dataAddr_eq]; omega)]
    · rw [memRead_of_M_le (Nat.not_lt.mp hj), memRead_of_M_le (Nat.not_lt.mp hj)]
  exact ⟨by rw [Fq.r_len, Fq.r_len, he, hr, hlen], fun idx => by rw [Fq.readByte, Fq.readByte, he, hr, hlen, hdata]⟩

/-- Settles O27: `r_empty` rises only where `rbin` moves on; the bytes of the head slot stay, and of the moves that leave
`rbin` a commit puts its frame behind the head and the others leave every frame. -/
theorem headFrameIsStable : Obligations.HeadFrameIsStable := by
  intro s t e rest q h hp hne ht he hr
  have hf := h.fq q
  have hpos := hf.occupancy_pos_of_nonempty h.legal he
  obtain ⟨-, hrise, -⟩ := flagsMoveOnlyAt s t e rest q h hp ht
  have he' : (t.fq q).r_empty = false := by
    by_contra hempty
    rcases hrise he (by simpa using hempty) with hreset | hpop
    · exact hne hreset
    · exact ptrSucc_ne (ring_of_legal h.legal q).2 hf.pointers.rbin_lt (hpop.symm.trans hr)
  have hmove : Fq.Move s.params q (s.fq q) (t.fq q) := by
    obtain ⟨hreset, -⟩ | ⟨-, hm⟩ := step_moves ht
    · rw [hp, List.head?_cons, Option.some.injEq] at hreset
      exact absurd hreset hne
    · exact hm q
  obtain ⟨hlen, hbyte⟩ := Fq.head_congr (p := s.params) (q := q) (he'.trans he.symm) hr
    fun a ha ha' => hmove.read_committed h.legal hf hpos ha ha'
  refine ⟨he', hlen, ?_, hbyte⟩
  by_cases hw : (t.fq q).wbin = (s.fq q).wbin
  · rw [hmove.frames_of_still h.legal hf hw hr]
  · rw [(hmove.frames_of_wbin_ne h.legal hf hw).1, List.head?_append, Fq.frames_head? hpos, Option.some_or]

end Sys2Proof.Machine
end

section
/-! Every operation on a port of a queue keeps the queue's invariant, and so does `RESET` (spec/42_sync.md R209;
spec/20_memory.md R84, R89; spec/40_queue_write.md R151 to R159; spec/41_queue_read.md R181 to R185). -/

namespace Sys2Proof.Machine

variable {p : Params} {q : Queue} {N S : Nat} {src : Ptr} {chain : List Ptr} {f g : Fq} {i : Instr}

/-! ## Counters, chains, committed frames and closed ones -/

/-- `sat_inc` stays at or below the largest value (00_scope.md R13). -/
theorem satInc_le {c : Cnt} (h : c ≤ cntMax p) : satInc p c ≤ cntMax p := by
  rw [satInc]
  split
  · exact h
  · generalize cntMax p = m at *
    bv_omega

/-- A source that moves on leaves every stage one further behind, so the order of the stages stays. -/
theorem ChainInv.ptrSucc (hN : 2 * N ∣ 256 ∧ 2 ≤ N ∧ N ≤ 128) (hsrc : src.toNat < 2 * N) (h : ChainInv N S src chain)
    (hlag : lagBehind N src (lastStage chain) < N) : ChainInv N S (Machine.ptrSucc N src) chain where
  length_eq := h.length_eq
  stage_lt := h.stage_lt
  older := by
    have hsucc : ∀ g ∈ chain, (ptrDiff N (Machine.ptrSucc N src) (gray2bin g)).toNat = lagBehind N src g + 1 :=
      fun g hg => ptrDiff_succ_left hN hsrc (h.stage_lt g hg) ((h.lag_le_lastStage hg).trans_lt hlag)
    have holder := List.pairwise_map.mp h.older
    rw [List.pairwise_map]
    refine holder.imp_of_mem fun hg hg' hle => ?_
    rw [hsucc _ hg, hsucc _ hg']
    exact Nat.succ_le_succ hle

/-- The committed slots hold written frames of at most `M` bytes exactly when the frames of the queue are such. -/
theorem Fq.slotsInv_iff : f.SlotsInv p q ↔
    ∀ F ∈ f.frames p q, F.any (fun F => decide (F.length ≤ p.M)) = true := by
  simp [Fq.SlotsInv, Fq.frames]

/-- With no frame open the frame-assembly registers are to be clear, and that is all. -/
theorem Fq.assemblyInv_of_closed (hopen : f.w_open = false) (hlen : f.w_len = 0) (hdiscard : f.w_discard = false)
    (hover : f.w_oversize = false) : f.AssemblyInv p q where
  closed := fun _ => ⟨hlen, hdiscard, hover⟩
  discarded := by simp [hdiscard]
  len_le := by simp [hlen]
  oversize := by simp [hover]
  storing := by simp [hopen]

namespace Fq.Inv

/-! ## Registers no other part looks at, and the frame-assembly registers -/

/-- The invariant of a queue does not look at its results, its sticky bits and `r_rdata`, and of its counters only at
their bound. -/
theorem with_registers (h : f.Inv p q) {res : WResult} {drop long : Cnt} {operr operr' : Bool} {rd : Byte}
    {res' : RResult} (hdrop : drop ≤ cntMax p) (hlong : long ≤ cntMax p) :
    { f with
      w_result := res, w_drop_cnt := drop, w_long_cnt := long, w_operr := operr, r_rdata := rd, r_result := res'
      r_operr := operr' : Fq }.Inv p q where
  pointers := ⟨h.pointers.wbin_lt, h.pointers.rbin_lt, h.pointers.wgray_eq, h.pointers.rgray_eq⟩
  rchain := h.rchain
  wchain := h.wchain
  lags := ⟨h.lags.lagW_le, h.lags.lagR_le⟩
  assembly := ⟨h.assembly.closed, h.assembly.discarded, h.assembly.len_le, h.assembly.oversize, h.assembly.storing⟩
  slots := h.slots
  mem_wf := h.mem_wf
  mem_lt := h.mem_lt
  drop_le := hdrop
  long_le := hlong

theorem closeFrame (h : f.Inv p q) : f.closeFrame.Inv p q where
  pointers := ⟨h.pointers.wbin_lt, h.pointers.rbin_lt, h.pointers.wgray_eq, h.pointers.rgray_eq⟩
  rchain := h.rchain
  wchain := h.wchain
  lags := ⟨h.lags.lagW_le, h.lags.lagR_le⟩
  assembly := Fq.assemblyInv_of_closed rfl rfl rfl rfl
  slots := h.slots
  mem_wf := h.mem_wf
  mem_lt := h.mem_lt
  drop_le := h.drop_le
  long_le := h.long_le

/-! ## `W_COMMIT` -/

/-- A frame published takes a slot that the producer saw free, and puts the view of the consumer one further behind. -/
theorem lags_publish (hl : p.legal = true) (h : f.Inv p q) (hd : (f.assembly (p.N q)).discard = false)
    (hw : g.wbin = ptrSucc (p.N q) f.wbin) (hr : g.rbin = f.rbin) (hws : g.wsync = f.wsync) (hrs : g.rsync = f.rsync) :
    g.LagInv (p.N q) := by
  have hring := ring_of_legal hl q
  have hlevel := h.w_level_lt hl hd
  rw [h.w_level_eq hl] at hlevel
  have hle := h.lags.lagW_le
  have hocc : g.occupancy (p.N q) = f.occupancy (p.N q) + 1 := by
    rw [Fq.occupancy, hw, hr]
    exact ptrDiff_succ_left hring h.pointers.wbin_lt h.pointers.rbin_lt (h.occupancy_lt_of_storing hl hd)
  have hlagW : g.lagW (p.N q) = f.lagW (p.N q) + 1 := by
    rw [Fq.lagW, Fq.wq, hw, hws]
    exact ptrDiff_succ_left hring h.pointers.wbin_lt (h.wq_lt hl) (hle.trans_lt (by omega))
  have hlagR : g.lagR (p.N q) = f.lagR (p.N q) := by rw [Fq.lagR, Fq.rq, hr, hrs, Fq.lagR, Fq.rq]
  constructor <;> omega

/-- A `W_COMMIT` that publishes the frame keeps the invariant (40_queue_write.md R155). -/
theorem wCommit_of_kept (hl : p.legal = true) (h : f.Inv p q) (hd : (f.assembly (p.N q)).discard = false)
    (ho : (f.assembly (p.N q)).oversize = false) : (f.wCommit p q).Inv p q := by
  have hring := ring_of_legal hl q
  have hne : (f.wCommit p q).wbin ≠ f.wbin := by
    rw [Fq.wCommit_of_kept hd ho]
    exact ptrSucc_ne hring.2 h.pointers.wbin_lt
  obtain ⟨hframes, -, -⟩ := Fq.Move.of_wCommit.frames_of_wbin_ne hl h hne
  have hslots : (f.wCommit p q).SlotsInv p q := by
    obtain ⟨F, hF⟩ := Option.isSome_iff_exists.mp (h.assembled_isSome hd)
    rw [Fq.slotsInv_iff, hframes, hF, List.forall_mem_append, List.forall_mem_singleton]
    refine ⟨Fq.slotsInv_iff.mp h.slots, decide_eq_true ?_⟩
    rw [Memory.readBytes_length _ _ _ hF]
    exact h.assembly.len_le
  have hlag : f.lagW (p.N q) < p.N q := h.lags.lagW_le.trans_lt (h.occupancy_lt_of_storing hl hd)
  have hslot := lenAddr_lt_memSize p _ q (slotidx_lt (N := p.N q) (by omega) f.wbin)
  rw [Fq.wCommit_of_kept hd ho] at hslots ⊢
  exact {
    pointers := ⟨ptrSucc_lt hring.2 _, h.pointers.rbin_lt, rfl, h.pointers.rgray_eq⟩
    rchain := h.rchain
    wchain := h.wchain.ptrSucc hring h.pointers.wbin_lt hlag
    lags := h.lags_publish hl hd rfl rfl rfl rfl
    assembly := Fq.assemblyInv_of_closed rfl rfl rfl rfl
    slots := hslots
    mem_wf := Memory.wf_write _ _ h.mem_wf
    mem_lt := Memory.lt_write _ _ h.mem_lt (by omega)
    drop_le := h.drop_le
    long_le := h.long_le }

/-- `W_COMMIT` keeps the invariant of its queue. -/
theorem wCommit (hl : p.legal = true) (h : f.Inv p q) : (f.wCommit p q).Inv p q := by
  obtain ⟨-, hc⟩ | ⟨-, -, hc⟩ | ⟨hd, ho, -⟩ := Fq.wCommit_cases p q f
  · rw [hc]
    exact h.closeFrame.with_registers (satInc_le h.drop_le) h.long_le
  · rw [hc]
    exact h.closeFrame.with_registers h.drop_le (satInc_le h.long_le)
  · exact h.wCommit_of_kept hl hd ho

/-- Every producer operation keeps the invariant of its queue. -/
theorem wOp (hl : p.legal = true) (h : f.Inv p q) (hg : f.wOp p q i = .ok g) : g.Inv p q := by
  cases i with
  | wByte => exact h.wByte hl hg
  | wCommit => cases hg; exact h.wCommit hl
  | wAbort => cases hg; exact h.closeFrame.with_registers h.drop_le h.long_le
  | wClrcnt => cases hg; exact h.with_registers (Nat.zero_le _) (Nat.zero_le _)
  | wRsv5 | wRsv67 => cases hg; exact h.with_registers h.drop_le h.long_le
  | _ => cases hg; exact h

/-! ## `R_POP` -/

/-- A pop takes a frame the consumer sees, and puts the view of the producer one further behind. -/
theorem lags_pop (hl : p.legal = true) (h : f.Inv p q) (he : f.r_empty = false)
    (hw : g.wbin = f.wbin) (hr : g.rbin = ptrSucc (p.N q) f.rbin) (hws : g.wsync = f.wsync) (hrs : g.rsync = f.rsync) :
    g.LagInv (p.N q) := by
  have hring := ring_of_legal hl q
  have hlevel := h.r_level_add_lagW hl
  have hne := mt (h.r_empty_iff hl).mpr (Bool.eq_false_iff.mp he)
  have hle := h.lags.lagR_le
  have hocc : g.occupancy (p.N q) + 1 = f.occupancy (p.N q) := by
    rw [Fq.occupancy, hw, hr]
    exact ptrDiff_succ_right hring h.pointers.wbin_lt h.pointers.rbin_lt (h.occupancy_pos_of_nonempty hl he)
  have hlagR : g.lagR (p.N q) = f.lagR (p.N q) + 1 := by
    rw [Fq.lagR, Fq.rq, hr, hrs]
    exact ptrDiff_succ_left hring h.pointers.rbin_lt (h.rq_lt hl) (show f.lagR (p.N q) < p.N q by omega)
  have hlagW : g.lagW (p.N q) = f.lagW (p.N q) := by rw [Fq.lagW, Fq.wq, hw, hws, Fq.lagW, Fq.wq]
  constructor <;> omega

/-- An `R_POP` that takes the head frame keeps the invariant (41_queue_read.md R183). -/
theorem rPop_of_nonempty (hl : p.legal = true) (h : f.Inv p q) (he : f.r_empty = false) :
    (f.rPop (p.N q)).Inv p q := by
  have hring := ring_of_legal hl q
  have hne : (f.rPop (p.N q)).rbin ≠ f.rbin := by
    rw [Fq.rPop_of_nonempty he]
    exact ptrSucc_ne hring.2 h.pointers.rbin_lt
  obtain ⟨hframes, -, -⟩ := Fq.Move.of_rPop.frames_of_rbin_ne hl h hne
  have hslots : (f.rPop (p.N q)).SlotsInv p q := by
    rw [Fq.slotsInv_iff, hframes]
    exact fun F hF => Fq.slotsInv_iff.mp h.slots F (List.mem_of_mem_tail hF)
  have hlag : f.lagR (p.N q) < p.N q := by
    have hpos := h.occupancy_pos_of_nonempty hl he
    have hle := h.lags.lagR_le
    omega
  rw [Fq.rPop_of_nonempty he] at hslots ⊢
  exact {
    pointers := ⟨h.pointers.wbin_lt, ptrSucc_lt hring.2 _, h.pointers.wgray_eq, rfl⟩
    rchain := h.rchain.ptrSucc hring h.pointers.rbin_lt hlag
    wchain := h.wchain
    lags := h.lags_pop hl he rfl rfl rfl rfl
    assembly := ⟨h.assembly.closed, h.assembly.discarded, h.assembly.len_le, h.assembly.oversize, h.assembly.storing⟩
    slots := hslots
    mem_wf := h.mem_wf
    mem_lt := h.mem_lt
    drop_le := h.drop_le
    long_le := h.long_le }

/-- Every consumer operation keeps the invariant of its queue. -/
theorem rOp (hl : p.legal = true) (h : f.Inv p q) (hg : f.rOp p q i = .ok g) : g.Inv p q := by
  cases i with
  | rRead =>
    obtain ⟨_, -, rfl⟩ := Fq.rRead_cases hg
    exact h.with_registers h.drop_le h.long_le
  | rPop =>
    obtain rfl := Except.ok.inj hg
    cases he : f.r_empty with
    | true =>
      rw [Fq.rPop_of_empty he]
      exact h.with_registers h.drop_le h.long_le
    | false => exact h.rPop_of_nonempty hl he
  | rClrerr | rRsv => cases hg; exact h.with_registers h.drop_le h.long_le
  | _ => cases hg; exact h

/-- At most one operation on one of its ports keeps the invariant of a queue. -/
theorem portOp (hl : p.legal = true) (h : f.Inv p q) (hg : Fq.PortOp p q f g) : g.Inv p q := by
  obtain ⟨_, hw | hr⟩ := hg
  · exact h.wOp hl hw
  · exact h.rOp hl hr

end Fq.Inv

/-! ## `RESET` -/

theorem gray_zero : gray 0 = 0 := by decide

/-- Right after reset every stage is the gray code 0 of both pointers. -/
theorem chainInv_replicate_zero (hN : 0 < N) (S : Nat) : ChainInv N S 0 (List.replicate S 0) where
  length_eq := List.length_replicate
  stage_lt := fun g hg => by
    rw [List.eq_of_mem_replicate hg]
    exact Nat.mul_pos Nat.two_pos hN
  older := by
    rw [List.map_replicate, List.pairwise_replicate]
    exact .inr le_rfl

/-- The reset values meet the invariant, whatever bytes the slot memory still holds (70_reset_and_hazards.md R330). -/
theorem Fq.inv_resetTo (hl : p.legal = true) {m : Memory} (hwf : m.wf) (hlt : ∀ c ∈ m, c.1 < memSize p q) :
    (Fq.resetTo (p.S q) m).Inv p q := by
  have hring := ring_of_legal hl q
  have hpos : (0 : Ptr).toNat < 2 * p.N q := show 0 < 2 * p.N q by omega
  have hocc := Fq.occupancy_resetTo (p.N q) (p.S q) m
  have hdiff : (ptrDiff (p.N q) 0 (gray2bin (lastStage (List.replicate (p.S q) 0)))).toNat = 0 := by
    rw [lastStage_replicate_zero]
    exact (ptrDiff_eq_zero_iff (a := 0) hring hpos hpos).mpr rfl
  have hlagW : (Fq.resetTo (p.S q) m).lagW (p.N q) = 0 := hdiff
  have hlagR : (Fq.resetTo (p.S q) m).lagR (p.N q) = 0 := hdiff
  exact {
    pointers := ⟨hpos, hpos, gray_zero.symm, gray_zero.symm⟩
    rchain := chainInv_replicate_zero (by omega) _
    wchain := chainInv_replicate_zero (by omega) _
    lags := ⟨by omega, by omega⟩
    assembly := Fq.assemblyInv_of_closed rfl rfl rfl rfl
    slots := fun j hj => by omega
    mem_wf := hwf
    mem_lt := hlt
    drop_le := Nat.zero_le _
    long_le := Nat.zero_le _ }

end Sys2Proof.Machine
end

section
/-! What a byte does to FRX, and that an FRX step keeps the invariants of FRX and of its hold on `QH`
(spec/43_framer_rx.md R220 to R234, R240). -/

namespace Sys2Proof.Machine

variable {p : Params} {d d' : Frx} {op : FrxOp} {b v : Byte} {f g : Fq}

/-- Everything one byte can make of FRX's registers, with the operation FRX issues for it (43_framer_rx.md R220). -/
inductive Frx.Move (p : Params) (d : Frx) : Frx × FrxOp → Prop
  /-- the byte is ignored -/
  | stay : Move p d (d, .nop)
  /-- the state moves on to await a header or an escaped byte, and no register else changes -/
  | await (next : DState) (not_body : next ≠ .body) (header : next = .lenEsc → p.LEN_FIELD = true)
      (outside : d.inFrame = true → next = .bodyEsc) : Move p d ({ d with d_state := next }, .nop)
  /-- `accept_len(v)` takes the header (43_framer_rx.md R222) -/
  | header (v : Byte) (field : p.LEN_FIELD = true) (outside : d.inFrame = false) (le : v.toNat ≤ p.M) :
      Move p d ({ d with d_len := v, d_cnt := 0, d_state := .body }, .nop)
  /-- `data(v)` passes a byte on (43_framer_rx.md R223) -/
  | payload (v : Byte) (room : ¬ ((p.LEN_FIELD = true ∧ d.d_cnt = d.d_len) ∨ d.d_cnt.toNat = p.M)) :
      Move p d ({ d with d_cnt := d.d_cnt + 1, d_state := .body }, .byte v)
  /-- `end_frame()` completes the frame (43_framer_rx.md R224) -/
  | complete :
      Move p d ({ d with d_ok_cnt := satInc p d.d_ok_cnt, d_state := .start, d_cnt := 0, d_len := 0 }, .commit)
  /-- `err(code, next)` (43_framer_rx.md R221) -/
  | error (code : DError) (next : DState) (outside : next = .hunt ∨ next = .start) : Move p d (d.err p code next)

namespace Frx.Move

theorem acceptLen (field : p.LEN_FIELD = true) (outside : d.inFrame = false) (v : Byte) :
    Move p d (d.acceptLen p v) := by
  unfold Frx.acceptLen
  split
  · exact .error .length .hunt (.inl rfl)
  · exact .header v field outside (by omega)

theorem data (v : Byte) : Move p d (d.data p v) := by
  unfold Frx.data
  split
  · exact .error .length .hunt (.inl rfl)
  · exact .payload v ‹_›

theorem endFrame : Move p d (d.endFrame p) := by
  unfold Frx.endFrame
  split
  · exact .error .delim .start (.inr rfl)
  · exact .complete

/-! One lemma per state (43_framer_rx.md R226 to R230). -/

theorem inHunt (hd : d.d_state = .hunt) : Move p d (d.inHunt p b) := by
  unfold Frx.inHunt
  split
  · exact .await .start nofun nofun (by simp [Frx.inFrame, hd])
  · exact .stay

theorem inStart (hd : d.d_state = .start) : Move p d (d.inStart p b) := by
  have hout : d.inFrame = false := by rw [Frx.inFrame, hd]
  unfold Frx.inStart
  split_ifs with _ _ hfield hfield
  · exact .stay
  · exact .await .lenEsc nofun (fun _ => hfield) (by simp [hout])
  · exact .await .bodyEsc nofun nofun (fun _ => rfl)
  · exact .acceptLen hfield hout b
  · exact .data b

theorem inLenEsc (hd : d.d_state = .lenEsc) (field : p.LEN_FIELD = true) : Move p d (d.inLenEsc p b) := by
  unfold Frx.inLenEsc
  split
  · exact .error .escape .start (.inr rfl)
  · split
    · exact .acceptLen field (by rw [Frx.inFrame, hd]) _
    · exact .error .escape .hunt (.inl rfl)

theorem inBody : Move p d (d.inBody p b) := by
  unfold Frx.inBody
  split_ifs
  · exact .endFrame
  · exact .await .bodyEsc nofun nofun (fun _ => rfl)
  · exact .data b

theorem inBodyEsc : Move p d (d.inBodyEsc p b) := by
  unfold Frx.inBodyEsc
  split
  · exact .error .escape .start (.inr rfl)
  · split
    · exact .data _
    · exact .error .escape .hunt (.inl rfl)

/-- Every byte moves FRX, in every state of its invariant: LEN_ESC occurs with a length field only. -/
theorem of_byte (h : d.Inv p) (b : Byte) : Move p d (d.byte p b) := by
  unfold Frx.byte
  split
  case h_1 => exact inHunt ‹_›
  case h_2 => exact inStart ‹_›
  case h_3 hd =>
    have field : p.LEN_FIELD = true := Bool.of_not_eq_false fun hno => (h.noHeader hno).2 hd
    exact inLenEsc hd field
  case h_4 => exact inBody
  case h_5 => exact inBodyEsc

end Frx.Move

/-! ## The invariant of FRX -/

/-- A payload byte passed on is counted without a wrap. -/
theorem Frx.Inv.cnt_succ (h : d.Inv p) (hl : p.legal = true)
    (room : ¬ ((p.LEN_FIELD = true ∧ d.d_cnt = d.d_len) ∨ d.d_cnt.toNat = p.M)) :
    (d.d_cnt + 1).toNat = d.d_cnt.toNat + 1 ∧ d.d_cnt.toNat < p.M := by
  have hlt : d.d_cnt.toNat < p.M := lt_of_le_of_ne h.cnt_le fun he => room (.inr he)
  exact ⟨toNat_succ_of_lt_M hl hlt, hlt⟩

/-- In HUNT and START the registers are to be clear, and the counters within their bound. -/
theorem Frx.inv_of_clear (hcnt : d.d_cnt = 0) (hlen : d.d_len = 0) (hst : d.d_state = .hunt ∨ d.d_state = .start)
    (herr : d.d_err_cnt ≤ cntMax p) (hok : d.d_ok_cnt ≤ cntMax p) : d.Inv p where
  cnt_le := by simp [hcnt]
  len_le := by simp [hlen]
  outside := fun _ => ⟨hcnt, hlen⟩
  header := by simp [hcnt]
  noHeader := fun _ => ⟨hlen, by rcases hst with hst | hst <;> simp [hst]⟩
  bodyHasByte := fun _ hbody => by simp [hbody] at hst
  err_le := herr
  ok_le := hok

/-- A move keeps the invariant of FRX. -/
theorem Frx.Move.inv (hl : p.legal = true) (h : d.Inv p) (hm : Frx.Move p d (d', op)) : d'.Inv p := by
  cases hm with
  | stay => exact h
  | await next not_body header outside =>
    exact {
      cnt_le := h.cnt_le
      len_le := h.len_le
      outside := fun hout => h.outside (by
        cases hin : d.inFrame with
        | false => rfl
        | true => simp [Frx.inFrame, outside hin] at hout)
      header := h.header
      noHeader := fun hno => ⟨(h.noHeader hno).1, fun he => by simp [header he] at hno⟩
      bodyHasByte := fun _ he => absurd he not_body
      err_le := h.err_le
      ok_le := h.ok_le }
  | header v field outside hle =>
    exact {
      cnt_le := Nat.zero_le _
      len_le := hle
      outside := nofun
      header := fun _ => Nat.zero_le _
      noHeader := fun hno => by simp [field] at hno
      bodyHasByte := fun hno => by simp [field] at hno
      err_le := h.err_le
      ok_le := h.ok_le }
  | payload v room =>
    obtain ⟨hsucc, hlt⟩ := h.cnt_succ hl room
    exact {
      cnt_le := hsucc.trans_le hlt
      len_le := h.len_le
      outside := nofun
      header := fun field => hsucc.trans_le
        (lt_of_le_of_ne (h.header field) fun he => room (.inl ⟨field, BitVec.eq_of_toNat_eq he⟩))
      noHeader := fun hno => ⟨(h.noHeader hno).1, nofun⟩
      bodyHasByte := fun _ _ => hsucc.symm ▸ Nat.succ_pos _
      err_le := h.err_le
      ok_le := h.ok_le }
  | complete => exact Frx.inv_of_clear rfl rfl (.inr rfl) h.err_le (satInc_le h.ok_le)
  | error code next outside => exact Frx.inv_of_clear rfl rfl outside (satInc_le h.err_le) h.ok_le

/-! ## FRX and `QH` -/

/-- With no frame open in `QH` and no byte counted in FRX, the two agree. -/
theorem RxInv.of_closed (hcnt : d.d_cnt = 0) (hopen : g.w_open = false) (hover : g.w_oversize = false)
    (hlong : g.w_long_cnt = 0) : RxInv d g where
  open_iff := by simp [hcnt, hopen]
  len_eq := by simp [hopen]
  noOversize := hover
  noLong := hlong

/-- The commit of a frame FRX completed finds no oversize frame, so it counts none (43_framer_rx.md R240). -/
theorem RxInv.wCommit_closed (hr : RxInv d f) (h : f.Inv p .qh) :
    (f.wCommit p .qh).w_open = false ∧ (f.wCommit p .qh).w_oversize = false ∧ (f.wCommit p .qh).w_long_cnt = 0 := by
  obtain ⟨-, hc⟩ | ⟨-, hover, -⟩ | ⟨-, -, hc⟩ := Fq.wCommit_cases p .qh f
  · rw [hc]
    exact ⟨rfl, rfl, hr.noLong⟩
  · rw [h.assembly_oversize, hr.noOversize] at hover
    cases hover
  · rw [hc]
    exact ⟨rfl, rfl, hr.noLong⟩

/-- The byte FRX passes on opens a frame or is the next one of the frame that is open, which has room for it
(43_framer_rx.md R234, R240). -/
theorem RxInv.payload (hr : RxInv d f) (hl : p.legal = true) (h : d.Inv p) (hf : f.Inv p .qh)
    (room : ¬ ((p.LEN_FIELD = true ∧ d.d_cnt = d.d_len) ∨ d.d_cnt.toNat = p.M)) (hg : f.wByte p .qh v = .ok g) :
    RxInv { d with d_cnt := d.d_cnt + 1, d_state := .body } g := by
  obtain ⟨hsucc, hlt⟩ := h.cnt_succ hl room
  have hopen : true = true ↔ 1 ≤ (d.d_cnt + 1).toNat := by rw [hsucc]; simp
  have hlen (hd : (f.assembly (p.N .qh)).discard = false) : f.w_len = d.d_cnt := by
    cases ho : f.w_open with
    | true => exact hr.len_eq ho (by simpa [Fq.assembly_of_open ho] using hd)
    | false =>
      have hcnt : ¬ 1 ≤ d.d_cnt.toNat := fun hpos => by simp [hr.open_iff.mpr hpos] at ho
      rw [(hf.assembly.closed ho).1]
      exact BitVec.eq_of_toNat_eq (by simp; omega)
  obtain ⟨-, rfl⟩ | ⟨hd, hM, -⟩ | ⟨hd, -, -, rfl⟩ := hf.wByte_cases hg
  · exact ⟨hopen, nofun, hr.noOversize, hr.noLong⟩
  · rw [hlen hd] at hM
    omega
  · exact ⟨hopen, fun _ _ => congrArg (· + 1) (hlen hd), hr.noOversize, hr.noLong⟩

/-- A move, with the operation it issues run on `QH`, keeps the agreement of the two. -/
theorem Frx.Move.rxInv (hl : p.legal = true) (h : d.Inv p) (hf : f.Inv p .qh) (hr : RxInv d f)
    (hm : Frx.Move p d (d', op)) (hg : op.run p f = .ok g) : RxInv d' g := by
  cases hm with
  | stay => cases hg; exact hr
  | await => cases hg; exact ⟨hr.open_iff, hr.len_eq, hr.noOversize, hr.noLong⟩
  | header v _ outside =>
    cases hg
    have hopen : f.w_open = false := by
      rw [Bool.eq_false_iff, ne_eq, hr.open_iff, (h.outside outside).1]
      decide
    exact .of_closed rfl hopen hr.noOversize hr.noLong
  | payload v room => exact hr.payload hl h hf room hg
  | complete =>
    cases hg
    obtain ⟨hopen, hover, hlong⟩ := hr.wCommit_closed hf
    exact .of_closed rfl hopen hover hlong
  | error => cases hg; exact .of_closed rfl rfl rfl hr.noLong

end Sys2Proof.Machine
end

section
/-! What an FTX step does to FTX's registers, and that it keeps the invariants of FTX and of its hold on `QT`
(spec/44_framer_tx.md R260 to R267). -/

namespace Sys2Proof.Machine

variable {p : Params} {v : Byte} {e : Ftx} {s t : State}

/-! ## The pending byte (44_framer_tx.md R261, R266) -/

/-- `emit_esc(v)` leaves the escape code of `v` pending, or nothing. -/
theorem Ftx.pendEsc_cases (p : Params) (v : Byte) (e : Ftx) :
    e.pendEsc p v = e
    ∨ ∃ b, (b = p.T_FLAG ∨ b = p.T_ESC) ∧ e.pendEsc p v = { e with e_pend := true, e_pbyte := b } := by
  unfold Ftx.pendEsc
  split_ifs
  · exact .inr ⟨_, .inl rfl, rfl⟩
  · exact .inr ⟨_, .inr rfl, rfl⟩
  · exact .inl rfl

@[simp] theorem Ftx.pendEsc_e_len (p : Params) (v : Byte) (e : Ftx) : (e.pendEsc p v).e_len = e.e_len := by
  obtain he | ⟨_, -, he⟩ := Ftx.pendEsc_cases p v e <;> rw [he]

@[simp] theorem Ftx.pendEsc_e_idx (p : Params) (v : Byte) (e : Ftx) : (e.pendEsc p v).e_idx = e.e_idx := by
  obtain he | ⟨_, -, he⟩ := Ftx.pendEsc_cases p v e <;> rw [he]

@[simp] theorem Ftx.pendEsc_e_ok_cnt (p : Params) (v : Byte) (e : Ftx) :
    (e.pendEsc p v).e_ok_cnt = e.e_ok_cnt := by
  obtain he | ⟨_, -, he⟩ := Ftx.pendEsc_cases p v e <;> rw [he]

/-! ## The registers of FTX -/

namespace Ftx.Inv

theorem pendEsc_pend (h : e.Inv p) (hp : (e.pendEsc p v).e_pend = true) :
    (e.pendEsc p v).e_pbyte = p.T_FLAG ∨ (e.pendEsc p v).e_pbyte = p.T_ESC := by
  obtain he | ⟨_, hb, he⟩ := Ftx.pendEsc_cases p v e <;> rw [he] at hp ⊢
  · exact h.pend hp
  · exact hb

/-- The pending byte goes out in DATA or CLOSE. -/
theorem pending (h : e.Inv p) : { e with e_pend := false }.Inv p where
  idle := fun hst => ⟨(h.idle hst).1, (h.idle hst).2.1, rfl⟩
  len := fun hst => ⟨(h.len hst).1, (h.len hst).2.1, rfl⟩
  data := h.data
  close := h.close
  pend := nofun
  ok_le := h.ok_le

/-- The start of a frame of `L` bytes: its header, its first byte or its closing delimiter is next. -/
theorem start (h : e.Inv p) (hst : e.e_state = .idle) (L : Byte) :
    { e with
      e_len := L, e_idx := 0
      e_state := if p.LEN_FIELD then .len else if L = 0 then .close else .data : Ftx }.Inv p := by
  obtain ⟨-, -, hpend⟩ := h.idle hst
  split_ifs with hfield hL
  · exact ⟨nofun, fun _ => ⟨hfield, rfl, hpend⟩, nofun, nofun, h.pend, h.ok_le⟩
  · exact ⟨nofun, nofun, nofun, fun _ => hL.symm, h.pend, h.ok_le⟩
  · exact ⟨nofun, nofun, fun _ => by bv_omega, nofun, h.pend, h.ok_le⟩

/-- After the header comes the first byte, or the closing delimiter of an empty frame. -/
theorem header (h : e.Inv p) (hst : e.e_state = .len) :
    { e.pendEsc p v with e_state := if e.e_len = 0 then .close else .data }.Inv p := by
  obtain ⟨-, hidx, -⟩ := h.len hst
  split_ifs with hlen
  · exact ⟨nofun, nofun, nofun, fun _ => by simp [hlen, hidx], h.pendEsc_pend, by simpa using h.ok_le⟩
  · refine ⟨nofun, nofun, fun _ => ?_, nofun, h.pendEsc_pend, by simpa using h.ok_le⟩
    simp only [Ftx.pendEsc_e_idx, Ftx.pendEsc_e_len, hidx]
    bv_omega

/-- After a byte comes the next one, or the closing delimiter behind the last. -/
theorem payload (h : e.Inv p) (hst : e.e_state = .data) :
    { e.pendEsc p v with
      e_idx := e.e_idx + 1, e_state := if e.e_idx + 1 = e.e_len then .close else e.e_state : Ftx }.Inv p := by
  have hlt := h.data hst
  rw [hst]
  split_ifs with hlast
  · exact ⟨nofun, nofun, nofun, fun _ => by simpa using hlast, h.pendEsc_pend, by simpa using h.ok_le⟩
  · refine ⟨nofun, nofun, fun _ => ?_, nofun, h.pendEsc_pend, by simpa using h.ok_le⟩
    rw [Ftx.pendEsc_e_len]
    bv_omega

/-- After the closing delimiter the registers are clear, and the frame is counted. -/
theorem finish (h : e.Inv p) (hpend : e.e_pend = false) :
    { e with e_ok_cnt := satInc p e.e_ok_cnt, e_state := .idle, e_idx := 0, e_len := 0 }.Inv p :=
  ⟨fun _ => ⟨rfl, rfl, hpend⟩, nofun, nofun, nofun, h.pend, satInc_le h.ok_le⟩

end Ftx.Inv

/-! ## FTX and `QT` -/

/-- An FTX step keeps the invariants of FTX: the length latched when the frame was begun is that of the head slot, and
`QT` is popped when FTX leaves the frame (44_framer_tx.md R262 to R267). -/
theorem ftxStep_inv (h : s.Inv) (ht : ftxStep s = .ok t) : t.ftx.Inv s.params ∧ TxInv s.params t.ftx t.qt := by
  obtain ⟨-, rfl⟩ | ⟨hpend, ⟨hst, hi⟩ | ⟨hst, rfl⟩ | ⟨hst, hd⟩ | ⟨-, rfl⟩⟩ := ftxStep_cases ht
  · exact ⟨h.ftx.pending, h.tx⟩
  · obtain ⟨-, rfl⟩ | ⟨he, L, hL, rfl⟩ := ftxIdle_cases hi
    · exact ⟨h.ftx, h.tx⟩
    · rw [Fq.r_len_of_nonempty he] at hL
      exact ⟨h.ftx.start hst L, fun _ => ⟨he, lenRead_eq_ok.mp hL⟩⟩
  · have hhead := h.tx (by simp [hst])
    exact ⟨h.ftx.header hst, fun _ => by simpa [ftxLen] using hhead⟩
  · obtain ⟨hempty, hlen⟩ := h.tx (by simp [hst])
    obtain ⟨v, -, rfl⟩ := ftxData_cases hd
    exact ⟨h.ftx.payload hst, fun _ => ⟨hempty, by simpa using hlen⟩⟩
  · exact ⟨h.ftx.finish hpend, fun hne => absurd rfl hne⟩

end Sys2Proof.Machine
end

section
/-! Every step keeps the invariant of the whole machine (spec/42_sync.md R209; spec/43_framer_rx.md R234, R240;
spec/44_framer_tx.md R267). -/

namespace Sys2Proof.Machine

variable {p : Params} {q : Queue} {i : Instr} {a : Agent} {b : Byte} {d : Frx} {e : Ftx} {f g : Fq} {s t : State}

/-! ## The ports of FRX and FTX (10_state.md R30, 70_reset_and_hazards.md R335) -/

/-- No agent presents words on `QH.W`: FRX drives it, within its own steps. -/
theorem ne_qh_of_mayPresent (ha : mayPresent a (.w q) = true) : q ≠ .qh := by
  rintro rfl
  cases a <;> cases ha

/-- No agent presents words on `QT.R`: FTX drives it, within its own steps. -/
theorem ne_qt_of_mayPresent (ha : mayPresent a (.r q) = true) : q ≠ .qt := by
  rintro rfl
  cases a <;> cases ha

/-! ## A step of one queue -/

/-- A consumer operation on `QH` is nothing FRX's hold on it looks at. -/
theorem RxInv.rOp (h : RxInv d f) (hg : f.rOp p q i = .ok g) : RxInv d g := by
  obtain ⟨_, _, _, _, _, rfl⟩ := Fq.rOp_frame hg
  exact ⟨h.open_iff, h.len_eq, h.noOversize, h.noLong⟩

/-- A producer operation on `QT` leaves FTX its head frame: the head slot is committed (20_memory.md R89). -/
theorem TxInv.wOp (hl : p.legal = true) (hf : f.Inv p .qt) (h : TxInv p e f) (hm : Fq.Move p .qt f g)
    (hg : f.wOp p .qt i = .ok g) : TxInv p e g := by
  intro hne
  obtain ⟨hempty, hlen⟩ := h hne
  have hread := hm.read_committed hl hf (hf.occupancy_pos_of_nonempty hl hempty) le_rfl (by omega)
  rw [Fq.slotAt_zero, hlen] at hread
  have hforeign := Fq.wOp_foreign hg
  have hbin : g.rbin = f.rbin := by rw [← hforeign]; rfl
  have hempty' : g.r_empty = f.r_empty := by rw [← hforeign]; rfl
  exact ⟨hempty'.trans hempty, by rwa [hbin]⟩

namespace State.Inv

/-- A step of one queue keeps the invariant where it keeps the queue's own, and FRX's or FTX's hold on it. -/
theorem setFq (h : s.Inv) (hg : g.Inv s.params q) (hrx : q = .qh → RxInv s.frx g)
    (htx : q = .qt → TxInv s.params s.ftx g) : (s.setFq q g).Inv := by
  cases q with
  | qr => exact ⟨h.legal, hg, h.qh, h.qt, h.frx, h.rx, h.ftx, h.tx⟩
  | qh => exact ⟨h.legal, h.qr, hg, h.qt, h.frx, hrx rfl, h.ftx, h.tx⟩
  | qt => exact ⟨h.legal, h.qr, h.qh, hg, h.frx, h.rx, h.ftx, htx rfl⟩

/-! ## The events -/

theorem syncW2R (h : s.Inv) (q : Queue) : (syncW2R q s).Inv := by
  refine h.setFq ((h.fq q).syncW2R h.legal) ?_ ?_
  · rintro rfl
    exact ⟨h.rx.open_iff, h.rx.len_eq, h.rx.noOversize, h.rx.noLong⟩
  · rintro rfl hne
    obtain ⟨hempty, hlen⟩ := h.tx hne
    exact ⟨h.qt.r_empty_syncW2R h.legal hempty, hlen⟩

theorem syncR2W (h : s.Inv) (q : Queue) : (syncR2W q s).Inv := by
  refine h.setFq ((h.fq q).syncR2W h.legal) ?_ ?_
  · rintro rfl
    exact ⟨h.rx.open_iff, h.rx.len_eq, h.rx.noOversize, h.rx.noLong⟩
  · rintro rfl
    exact h.tx

/-- `RESET` leaves the invariant in any state in which the slot memory is well formed: FRX awaits a delimiter and FTX is
idle. -/
theorem resetAll (h : s.Inv) : (resetAll s).Inv where
  legal := h.legal
  qr := Fq.inv_resetTo h.legal h.qr.mem_wf h.qr.mem_lt
  qh := Fq.inv_resetTo h.legal h.qh.mem_wf h.qh.mem_lt
  qt := Fq.inv_resetTo h.legal h.qt.mem_wf h.qt.mem_lt
  frx := Frx.inv_of_clear rfl rfl (.inl rfl) (Nat.zero_le _) (Nat.zero_le _)
  rx := RxInv.of_closed rfl rfl rfl rfl
  ftx := ⟨fun _ => ⟨rfl, rfl, rfl⟩, nofun, nofun, nofun, nofun, Nat.zero_le _⟩
  tx := fun hne => absurd rfl hne

theorem frxStep (h : s.Inv) (ht : frxStep b s = .next t) : t.Inv := by
  obtain ⟨hl, f, hf, rfl⟩ := frxStep_eq_next.mp ht
  have hmove := Frx.Move.of_byte h.frx b
  exact {
    legal := hl
    qr := h.qr
    qh := h.qh.portOp hl (.of_frxOp hf)
    qt := h.qt
    frx := hmove.inv hl h.frx
    rx := hmove.rxInv hl h.frx h.qh h.rx hf
    ftx := h.ftx
    tx := h.tx }

/-- An instruction that its port's driver presents keeps the invariant. -/
theorem exec (h : s.Inv) (ha : mayPresent a i.port = true) (ht : exec i s = .next t) : t.Inv := by
  cases hport : i.port with
  | w q =>
    have hmove := exec_moves ht q
    obtain ⟨hl, g, hg, rfl⟩ := (exec_of_port_w_eq_next hport).mp ht
    rw [State.fq_setFq] at hmove
    refine h.setFq ((h.fq q).wOp hl hg) (fun hq => absurd hq (ne_qh_of_mayPresent (hport ▸ ha))) ?_
    rintro rfl
    exact h.tx.wOp hl h.qt hmove hg
  | r q =>
    obtain ⟨hl, g, hg, rfl⟩ := (exec_of_port_r_eq_next hport).mp ht
    refine h.setFq ((h.fq q).rOp hl hg) ?_ (fun hq => absurd hq (ne_qt_of_mayPresent (hport ▸ ha)))
    rintro rfl
    exact h.rx.rOp hg
  | rx =>
    cases i with
    | wireFlag | wireEsc | wireTFlag | wireTEsc | wireData => exact h.frxStep ht
    | _ => cases hport

end State.Inv

/-- An FTX step leaves `QR`, `QH`, FRX and the parameters as they are. -/
theorem ftxStep_frame (h : ftxStep s = .ok t) :
    t.params = s.params ∧ t.qr = s.qr ∧ t.qh = s.qh ∧ t.frx = s.frx := by
  obtain ⟨-, rfl⟩ | ⟨-, ⟨-, hi⟩ | ⟨-, rfl⟩ | ⟨-, hd⟩ | ⟨-, rfl⟩⟩ := ftxStep_cases h
  · exact ⟨rfl, rfl, rfl, rfl⟩
  · obtain ⟨-, rfl⟩ | ⟨-, _, -, rfl⟩ := ftxIdle_cases hi <;> exact ⟨rfl, rfl, rfl, rfl⟩
  · exact ⟨rfl, rfl, rfl, rfl⟩
  · obtain ⟨_, -, rfl⟩ := ftxData_cases hd
    exact ⟨rfl, rfl, rfl, rfl⟩
  · exact ⟨rfl, rfl, rfl, rfl⟩

namespace State.Inv

theorem ftxStep (h : s.Inv) (ht : ftxStep s = .ok t) : t.Inv := by
  obtain ⟨hftx, htx⟩ := ftxStep_inv h ht
  have hqt := h.qt.portOp h.legal (ftxStep_portOp ht .qt)
  obtain ⟨hparams, hqr, hqh, hfrx⟩ := ftxStep_frame ht
  exact {
    legal := hparams ▸ h.legal
    qr := hparams ▸ hqr ▸ h.qr
    qh := hparams ▸ hqh ▸ h.qh
    qt := hparams ▸ hqt
    frx := hparams ▸ hfrx ▸ h.frx
    rx := hfrx ▸ hqh ▸ h.rx
    ftx := hparams ▸ hftx
    tx := hparams ▸ htx }

theorem sample (h : s.Inv) {d : Domain} {o : Output} (ht : sample d o s = .ok t) : t.Inv := by
  obtain ⟨-, _, -, rfl⟩ | ⟨-, rfl⟩ := sample_cases ht <;>
    exact ⟨h.legal, h.qr, h.qh, h.qt, h.frx, h.rx, h.ftx, h.tx⟩

/-- Every event keeps the invariant. -/
theorem runEvent (h : s.Inv) {e : Event} (ht : runEvent e s = .next t) : t.Inv := by
  obtain ⟨a, port, raw, i, -, ha, hdec, hi⟩ | ⟨-, hf⟩ | ⟨q, -, rfl⟩ | ⟨q, -, rfl⟩ | ⟨-, rfl⟩ | ⟨d, o, -, ho⟩ :=
    runEvent_cases ht
  · have hport := port_of_encode (encodeOfDecode s.params port raw i hdec).2
    exact h.exec (hport.symm ▸ ha) hi
  · exact h.ftxStep hf
  · exact h.syncW2R q
  · exact h.syncR2W q
  · exact h.resetAll
  · exact h.sample ho

end State.Inv

/-- Settles O52: a stutter changes nothing, and the next event keeps the invariant: an operation on a queue's port that
queue's own, an FRX or FTX step that of the framer with its queue, and a clock those of its chain. -/
theorem stepKeepsTheInvariant : Obligations.StepKeepsTheInvariant := by
  intro s t h ht
  obtain ⟨-, ⟨-, rfl⟩ | ⟨e, rest, -, he⟩⟩ := step_cases ht
  · exact h
  · exact (h.with_pending rest).runEvent he

end Sys2Proof.Machine
end

section
/-! The gray code of every capacity, the levels against the flags and the occupancy, and a synchroniser clocked once and
`S` times (spec/42_sync.md R200 to R212). -/

namespace Sys2Proof.Machine

variable {p : Params} {q : Queue} {N k : Nat} {b src : Ptr} {chain : List Ptr} {f : Fq} {s : State}

/-! ## The gray code (42_sync.md R200) -/

section Gray

variable (hN : N = 2 ∨ N = 4 ∨ N = 8 ∨ N = 16 ∨ N = 32 ∨ N = 64 ∨ N = 128) (hb : b.toNat < 2 * N)
include hN hb

/-- From a pointer to the next, the wrap included, one bit of the gray code changes. -/
theorem gray_xor_gray_ptrSucc : ∃ i < pw N, gray b ^^^ gray (ptrSucc N b) = 1#8 <<< i := by
  revert b
  rcases hN with rfl | rfl | rfl | rfl | rfl | rfl | rfl <;> decide

theorem gray_lt : (gray b).toNat < 2 * N := by
  revert b
  rcases hN with rfl | rfl | rfl | rfl | rfl | rfl | rfl <;> decide

theorem gray2bin_lt : (gray2bin b).toNat < 2 * N := by
  revert b
  rcases hN with rfl | rfl | rfl | rfl | rfl | rfl | rfl <;> decide

end Gray

/-- Settles O29: for each capacity by evaluation on its pointers; that `gray` and `gray2bin` undo each other holds on all
eight bits. -/
theorem grayCodeOfEveryCapacity : Obligations.GrayCodeOfEveryCapacity := by
  intro c b hc hb
  have hN := ((FqParams.legal_iff c).mp hc).1
  exact ⟨gray_xor_gray_ptrSucc hN hb, gray_lt hN hb, gray2bin_gray b, gray2bin_lt hN hb, gray_gray2bin b, by decide⟩

/-! ## Levels, flags and occupancy (42_sync.md R208 to R211) -/

/-- Settles O30: both are facts about the queue's own invariant. -/
theorem fullAndEmptyAreLevels : Obligations.FullAndEmptyAreLevels := by
  intro s q h
  refine ⟨(h.fq q).w_full_iff h.legal, ?_⟩
  rw [(h.fq q).r_empty_iff h.legal, ← BitVec.toNat_inj]
  rfl

/-- Settles O31: the producer's level is the occupancy and `lag_r`, which is at most `N`, and `N` exactly where `w_full`
is 1. -/
theorem levelsBracketTheOccupancy : Obligations.LevelsBracketTheOccupancy := by
  rintro s q _ _ h rfl rfl
  have hf := h.fq q
  have hlevel := hf.w_level_eq h.legal
  have hle := hf.lags.lagR_le
  refine ⟨hf.r_level_add_lagW h.legal, hlevel, hlevel.trans_le hle, fun hfull => ?_,
    hf.occupancy_pos_of_nonempty h.legal⟩
  have hne := mt (hf.w_full_iff h.legal).mpr (Bool.eq_false_iff.mp hfull)
  omega

/-! ## One clock (42_sync.md R201, R202) -/

/-- Behind the source, a clock of the chain leaves each stage but the last one place further on. -/
theorem getElem?_shiftIn_succ {j : Nat} (hj : j + 1 < chain.length) : (shiftIn src chain)[j + 1]? = chain[j]? := by
  rw [shiftIn, List.getElem?_cons_succ, List.getElem?_dropLast, if_pos (by omega)]

/-- The chain after a clock, stage by stage. -/
theorem shiftIn_stages {S : Nat} (hS : 1 ≤ S) (hlen : chain.length = S) :
    (shiftIn src chain).length = S ∧ (shiftIn src chain)[0]? = some src
      ∧ ∀ j, j + 1 < S → (shiftIn src chain)[j + 1]? = chain[j]? := by
  subst hlen
  exact ⟨shiftIn_length hS, rfl, fun _ hj => getElem?_shiftIn_succ hj⟩

/-- Settles O28: each event is one clock of its chain. -/
theorem synchroniserStepsShift : Obligations.SynchroniserStepsShift := by
  intro s q rest hl hw hr
  have hS : 1 ≤ s.params.S q := le_trans (by decide) (Params.legal_S hl q)
  refine ⟨fun hp => ⟨shiftIn (s.fq q).wgray (s.fq q).wsync, ?_, shiftIn_stages hS hw⟩,
    fun hp => ⟨shiftIn (s.fq q).rgray (s.fq q).rsync, ?_, shiftIn_stages hS hr⟩⟩
  · rw [step_of_pending_cons hl hp, runEvent, finish_ok (by exact hl), syncW2R, State.fq_with_pending, Fq.syncW2R]
  · rw [step_of_pending_cons hl hp, runEvent, finish_ok (by exact hl), syncR2W, State.fq_with_pending, Fq.syncR2W]

/-! ## `S` clocks (42_sync.md R212) -/

/-- After `k` clocks the source stands `k` times before the stages there were, as far as the chain reaches. -/
theorem iterate_shiftIn (hne : chain ≠ []) (k : Nat) :
    (shiftIn src)^[k] chain = (List.replicate k src ++ chain).take chain.length := by
  obtain ⟨g, gs, rfl⟩ := List.exists_cons_of_ne_nil hne
  induction k with
  | zero => simp
  | succ k ih =>
    have hlen : (((List.replicate k src ++ g :: gs).take (g :: gs).length).dropLast)
        = (List.replicate k src ++ g :: gs).take gs.length := by
      rw [List.dropLast_eq_take, List.length_take, List.take_take]
      congr 1
      simp
    rw [Function.iterate_succ_apply', ih, shiftIn, hlen]
    rfl

/-- As many clocks as the chain has stages leave the source in every stage. -/
theorem iterate_shiftIn_length (hne : chain ≠ []) (src : Ptr) :
    (shiftIn src)^[chain.length] chain = List.replicate chain.length src := by
  rw [iterate_shiftIn hne, List.take_left' List.length_replicate]

/-- `S` clocks bring the last stage up to date. -/
theorem lastStage_iterate_shiftIn {N S : Nat} {src' : Ptr} (hS : 2 ≤ S) (h : ChainInv N S src' chain) (src : Ptr) :
    lastStage ((shiftIn src)^[S] chain) = src := by
  have hlen := h.length_eq
  have hne : chain ≠ [] := List.ne_nil_of_length_pos (by omega)
  have hne' : List.replicate S src ≠ [] := List.ne_nil_of_length_pos (by rw [List.length_replicate]; omega)
  rw [← hlen, iterate_shiftIn_length hne, hlen, lastStage_eq_getLast hne', List.getLast_replicate]

theorem Fq.iterate_syncW2R (k : Nat) (f : Fq) :
    Fq.syncW2R^[k] f = { f with wsync := (shiftIn f.wgray)^[k] f.wsync } := by
  induction k with
  | zero => rfl
  | succ k ih => rw [Function.iterate_succ_apply', ih, Fq.syncW2R, Function.iterate_succ_apply']

theorem Fq.iterate_syncR2W (k : Nat) (f : Fq) :
    Fq.syncR2W^[k] f = { f with rsync := (shiftIn f.rgray)^[k] f.rsync } := by
  induction k with
  | zero => rfl
  | succ k ih => rw [Function.iterate_succ_apply', ih, Fq.syncR2W, Function.iterate_succ_apply']

namespace Fq.Inv

theorem iterate_syncW2R_inv (hl : p.legal = true) (h : f.Inv p q) (k : Nat) : (Fq.syncW2R^[k] f).Inv p q :=
  Function.Iterate.rec (Fq.Inv p q) h (fun _ hg => hg.syncW2R hl) k

theorem iterate_syncR2W_inv (hl : p.legal = true) (h : f.Inv p q) (k : Nat) : (Fq.syncR2W^[k] f).Inv p q :=
  Function.Iterate.rec (Fq.Inv p q) h (fun _ hg => hg.syncR2W hl) k

/-- `S` clocks of `q.SYNC_W2R` bring the consumer's view up to date. -/
theorem iterate_syncW2R (hl : p.legal = true) (h : f.Inv p q) :
    (Fq.syncW2R^[p.S q] f).wq = f.wgray
      ∧ ((Fq.syncW2R^[p.S q] f).r_level (p.N q)).toNat = f.occupancy (p.N q) := by
  have hwq : (Fq.syncW2R^[p.S q] f).wq = f.wgray := by
    rw [Fq.iterate_syncW2R]
    exact lastStage_iterate_shiftIn (Params.legal_S hl q) h.wchain _
  refine ⟨hwq, ?_⟩
  rw [Fq.r_level, hwq, h.pointers.wgray_eq, gray2bin_gray, Fq.iterate_syncW2R]
  rfl

/-- `S` clocks of `q.SYNC_R2W` bring the producer's view up to date. -/
theorem iterate_syncR2W (hl : p.legal = true) (h : f.Inv p q) :
    (Fq.syncR2W^[p.S q] f).rq = f.rgray
      ∧ ((Fq.syncR2W^[p.S q] f).w_level (p.N q)).toNat = f.occupancy (p.N q) := by
  have hrq : (Fq.syncR2W^[p.S q] f).rq = f.rgray := by
    rw [Fq.iterate_syncR2W]
    exact lastStage_iterate_shiftIn (Params.legal_S hl q) h.rchain _
  refine ⟨hrq, ?_⟩
  rw [Fq.w_level, hrq, h.pointers.rgray_eq, gray2bin_gray, Fq.iterate_syncR2W]
  rfl

end Fq.Inv

/-! ## Runs of clocks (30_encoding.md R124) -/

theorem step_load_syncW2R {prog : List Stmt} (hl : s.params.legal = true) :
    step (s.load (.syncW2R q :: prog)) = .next ((s.setFq q (s.fq q).syncW2R).load prog) := by
  have hrun := finish_ok (s := s.load prog) (t := syncW2R q (s.load prog)) hl
  rw [step_of_pending_cons (s := s.load _) hl rfl, ← State.setFq_load, ← State.load_fq s q prog]
  exact hrun

theorem step_load_syncR2W {prog : List Stmt} (hl : s.params.legal = true) :
    step (s.load (.syncR2W q :: prog)) = .next ((s.setFq q (s.fq q).syncR2W).load prog) := by
  have hrun := finish_ok (s := s.load prog) (t := syncR2W q (s.load prog)) hl
  rw [step_of_pending_cons (s := s.load _) hl rfl, ← State.setFq_load, ← State.load_fq s q prog]
  exact hrun

/-- A statement that makes `op` of its queue makes `op` again and again of it. -/
theorem runProg_replicate_append {st : Stmt} {op : Fq → Fq} (hl : s.params.legal = true)
    (hst : ∀ {s : State} {prog : List Stmt}, s.params.legal = true →
      step (s.load (st :: prog)) = .next ((s.setFq q (op (s.fq q))).load prog)) (k : Nat) (prog : List Stmt) :
    runProg s (List.replicate k st ++ prog) = runProg (s.setFq q (op^[k] (s.fq q))) prog := by
  induction k generalizing s with
  | zero => simp
  | succ k ih =>
    rw [List.replicate_succ, List.cons_append, runProg_cons (hst hl), ih (by simpa using hl)]
    simp

theorem runProg_replicate {st : Stmt} {op : Fq → Fq} (hl : s.params.legal = true)
    (hst : ∀ {s : State} {prog : List Stmt}, s.params.legal = true →
      step (s.load (st :: prog)) = .next ((s.setFq q (op (s.fq q))).load prog)) (k : Nat) :
    runProg s (List.replicate k st) = .next (s.setFq q (op^[k] (s.fq q))) := by
  rw [← List.append_nil (List.replicate k st), runProg_replicate_append hl hst]
  rfl

/-- Settles O32: `S` clocks fill a chain with the gray pointer of the other side; they leave the occupancy, and the level
that the other chain shows. -/
theorem synchronisersConverge : Obligations.SynchronisersConverge := by
  rintro s q _ h rfl
  have hl := h.legal
  have hf := h.fq q
  have hw := hf.iterate_syncW2R hl
  refine ⟨⟨_, runProg_replicate hl step_load_syncR2W _, ?_⟩, ⟨_, runProg_replicate hl step_load_syncW2R _, ?_⟩,
    ⟨_, (runProg_replicate_append hl step_load_syncW2R _ _).trans
      (runProg_replicate (by simpa using hl) step_load_syncR2W _), ?_⟩⟩
  · rw [State.fq_setFq]
    exact hf.iterate_syncR2W hl
  · rw [State.fq_setFq]
    exact hw
  · have hr := (hf.iterate_syncW2R_inv hl (s.params.S q)).iterate_syncR2W hl
    rw [State.fq_setFq, State.fq_setFq]
    refine ⟨hr.2.trans ?_, Eq.trans ?_ hw.2⟩
    · rw [Fq.iterate_syncW2R]
      rfl
    · rw [Fq.iterate_syncR2W]
      rfl

end Sys2Proof.Machine
end

section
/-! In a fair run the flag of one side falls some time after the other side has acted: the side with the flag up waits, so
its pointer stands still while its synchroniser takes in the other side's pointer (spec/42_sync.md R201, R202, R211 to
R213). -/

namespace Sys2Proof.Machine

variable {p : Params} {q : Queue} {S j n m : Nat} {bad g : Ptr} {chain : List Ptr} {f f' : Fq} {e : Event} {s t : State}
  {sched : Schedule} {σ : Nat → State}

/-! ## A chain that is clocked again and again -/

/-- A clock moves the stages that do not hold `bad` on by one, if the value taken in is not `bad` either. -/
theorem notMem_take_shiftIn (hg : g ≠ bad) (hbad : bad ∉ chain.take j) : bad ∉ (shiftIn g chain).take (j + 1) := by
  rw [shiftIn, List.take_succ_cons, List.mem_cons, not_or, List.dropLast_eq_take, List.take_take]
  exact ⟨hg.symm, fun hmem => hbad (List.take_subset_take_left _ (Nat.min_le_left _ _) hmem)⟩

/-- A chain that takes in a value other than `bad` again and again, and never `bad` itself, shows another value than `bad`
some time. -/
theorem exists_lastStage_ne {chain : Nat → List Ptr} (hS : 1 ≤ S) (hlen : ∀ m, n ≤ m → (chain m).length = S)
    (hstep : ∀ m, n ≤ m → chain (m + 1) = chain m ∨ ∃ g, g ≠ bad ∧ chain (m + 1) = shiftIn g (chain m))
    (hoften : ∀ m, n ≤ m → ∃ m', m ≤ m' ∧ ∃ g, g ≠ bad ∧ chain (m' + 1) = shiftIn g (chain m')) :
    ∃ m, n ≤ m ∧ lastStage (chain m) ≠ bad := by
  have hkeep {j m m' : Nat} (hn : n ≤ m) (hm : m ≤ m') (hbad : bad ∉ (chain m).take j) :
      bad ∉ (chain m').take j := by
    induction m', hm using Nat.le_induction with
    | base => exact hbad
    | succ m' hm ih =>
      obtain heq | ⟨g, hg, heq⟩ := hstep m' (hn.trans hm) <;> rw [heq]
      · exact ih
      · exact fun hmem => notMem_take_shiftIn hg ih (List.take_subset_take_left _ (Nat.le_succ j) hmem)
  have hfill : ∀ j, ∃ m, n ≤ m ∧ bad ∉ (chain m).take j := by
    intro j
    induction j with
    | zero => exact ⟨n, le_rfl, by simp⟩
    | succ j ih =>
      obtain ⟨m, hn, hbad⟩ := ih
      obtain ⟨m', hm, g, hg, heq⟩ := hoften m hn
      refine ⟨m' + 1, by omega, ?_⟩
      rw [heq]
      exact notMem_take_shiftIn hg (hkeep hn hm hbad)
  obtain ⟨m, hn, hbad⟩ := hfill S
  rw [List.take_of_length_le (hlen m hn).le] at hbad
  exact ⟨m, hn, fun heq => hbad (heq ▸ lastStage_mem (hS.trans_eq (hlen m hn).symm))⟩

/-! ## A queue whose flag is up -/

theorem Fq.PortOp.move (h : PortOp p q f f') : Move p q f f' := by
  obtain ⟨i, hw | hr⟩ := h
  · cases i with
    | wByte => exact .of_wByte hw
    | wCommit => cases hw; exact .of_wCommit
    | _ => cases hw; exact .idle rfl rfl rfl
  · cases i with
    | rRead => exact .of_rRead hr
    | rPop => cases hr; exact .of_rPop
    | _ => cases hr; exact .idle rfl rfl rfl

/-- No operation on a port clocks a synchroniser. -/
theorem Fq.PortOp.sync_eq (h : PortOp p q f f') : f'.wsync = f.wsync ∧ f'.rsync = f.rsync := by
  obtain ⟨i, hw | hr⟩ := h
  · rw [← Fq.wOp_foreign hw]
    exact ⟨rfl, rfl⟩
  · obtain ⟨_, _, _, _, _, rfl⟩ := Fq.rOp_frame hr
    exact ⟨rfl, rfl⟩

/-- While the consumer sees the queue empty, `rbin` stands still and the occupancy does not fall. -/
theorem Fq.Move.of_empty (hl : p.legal = true) (h : f.Inv p q) (hm : Move p q f f') (he : f.r_empty = true) :
    f'.rbin = f.rbin ∧ f.occupancy (p.N q) ≤ f'.occupancy (p.N q) := by
  cases hm with
  | idle _ hw hr | store _ _ _ _ hw hr => exact ⟨hr, (Fq.occupancy_congr hw hr).ge⟩
  | publish hd _ hw hr =>
    have hocc := ptrDiff_succ_left (ring_of_legal hl q) h.pointers.wbin_lt h.pointers.rbin_lt
      (h.occupancy_lt_of_storing hl hd)
    refine ⟨hr, ?_⟩
    rw [Fq.occupancy, Fq.occupancy, hw, hr, hocc]
    exact Nat.le_succ _
  | pop hne => simp [he] at hne

/-- While the producer sees the queue full, `wbin` stands still and the occupancy does not rise. -/
theorem Fq.Move.of_full (hl : p.legal = true) (h : f.Inv p q) (hm : Move p q f f') (hfull : f.w_full (p.N q) = true) :
    f'.wbin = f.wbin ∧ f'.occupancy (p.N q) ≤ f.occupancy (p.N q) := by
  cases hm with
  | idle _ hw hr | store _ _ _ _ hw hr => exact ⟨hw, (Fq.occupancy_congr hw hr).le⟩
  | publish hd => simp [h.w_full_of_kept hl hd] at hfull
  | pop hne _ hw hr =>
    have hocc := ptrDiff_succ_right (ring_of_legal hl q) h.pointers.wbin_lt h.pointers.rbin_lt
      (h.occupancy_pos_of_nonempty hl hne)
    refine ⟨hw, ?_⟩
    rw [Fq.occupancy, Fq.occupancy, hw, hr, ← hocc]
    exact Nat.le_succ _

/-- With a frame queued the two gray pointers differ. -/
theorem Fq.Inv.wgray_ne_rgray (hl : p.legal = true) (h : f.Inv p q) (hpos : 0 < f.occupancy (p.N q)) :
    f.wgray ≠ f.rgray := by
  rw [h.pointers.wgray_eq, h.pointers.rgray_eq, gray_injective.ne_iff]
  exact mt (ptrDiff_eq_zero_iff (ring_of_legal hl q) h.pointers.wbin_lt h.pointers.rbin_lt).mpr hpos.ne'

/-- With a slot free the two gray pointers are not those of a full queue: a producer whose view is up to date does not see
it full. -/
theorem Fq.Inv.rgray_ne_full (hl : p.legal = true) (h : f.Inv p q) (hlt : f.occupancy (p.N q) < p.N q) :
    f.rgray ≠ f.wgray ^^^ fullMask (p.N q) := by
  intro heq
  obtain ⟨hrq, hlevel⟩ := h.iterate_syncR2W hl
  have hfull : (Fq.syncR2W^[p.S q] f).w_full (p.N q) = true := by
    rw [Fq.w_full, hrq, heq, Fq.iterate_syncR2W, BitVec.xor_assoc, BitVec.xor_self, BitVec.xor_zero, beq_self_eq_true]
  rw [(h.iterate_syncR2W_inv hl _).w_full_iff hl, hlevel] at hfull
  omega

/-! ## Runs -/

theorem exec_params {i : Instr} (h : exec i s = .next t) : t.params = s.params := by
  rcases exec_cases i s with ⟨q, r, hi⟩ | ⟨b, hi⟩ <;> rw [hi] at h
  · obtain ⟨-, f, -, rfl⟩ := finishFq_eq_next.mp h
    exact State.setFq_params s q f
  · obtain ⟨-, f, -, rfl⟩ := frxStep_eq_next.mp h
    rfl

/-- No event changes a parameter (70_reset_and_hazards.md R340). -/
theorem runEvent_params (h : runEvent e s = .next t) : t.params = s.params := by
  obtain ⟨_, _, _, i, -, -, -, hi⟩ | ⟨-, hf⟩ | ⟨q, -, rfl⟩ | ⟨q, -, rfl⟩ | ⟨-, rfl⟩ | ⟨d, o, -, ho⟩ := runEvent_cases h
  · exact exec_params hi
  · exact (ftxStep_frame hf).1
  · exact State.setFq_params s q _
  · exact State.setFq_params s q _
  · rfl
  · obtain ⟨-, _, -, rfl⟩ | ⟨-, rfl⟩ := sample_cases ho <;> rfl

theorem step_params (h : step s = .next t) : t.params = s.params := by
  obtain ⟨-, ⟨-, rfl⟩ | ⟨e, rest, -, he⟩⟩ := step_cases h
  · rfl
  · exact runEvent_params (s := { s with pending := rest }) he

theorem perform_reset (hl : s.params.legal = true) :
    s.perform .reset = .next (resetAll { s with pending := [] }) :=
  (step_of_pending_cons (s := { s with pending := [.reset] }) hl rfl).trans
    (finish_ok (s := { s with pending := [] }) hl)

namespace IsRun

/-- The invariant and the parameters stay along a run. -/
theorem inv_params (h : IsRun sched σ) (hinv : (σ n).Inv) (hm : n ≤ m) :
    (σ m).Inv ∧ (σ m).params = (σ n).params := by
  induction m, hm using Nat.le_induction with
  | base => exact ⟨hinv, rfl⟩
  | succ m hm ih =>
    exact ⟨stepKeepsTheInvariant _ _ (ih.1.with_pending _) (h m), (step_params (h m)).trans ih.2⟩

theorem fq_inv (h : IsRun sched σ) (hinv : (σ n).Inv) (hm : n ≤ m) (q : Queue) :
    ((σ m).fq q).Inv (σ n).params q := by
  obtain ⟨hinv', hparams⟩ := h.inv_params hinv hm
  exact hparams ▸ hinv'.fq q

/-- Everything that happens to queue `q` at one place of a run. -/
theorem fq_cases (h : IsRun sched σ) (hinv : (σ n).Inv) (hm : n ≤ m) (q : Queue) :
    (sched m = .reset ∧ (σ (m + 1)).fq q = Fq.resetTo ((σ n).params.S q) ((σ m).fq q).mem)
    ∨ (sched m = .syncW2R q ∧ (σ (m + 1)).fq q = ((σ m).fq q).syncW2R)
    ∨ (sched m = .syncR2W q ∧ (σ (m + 1)).fq q = ((σ m).fq q).syncR2W)
    ∨ Fq.PortOp (σ n).params q ((σ m).fq q) ((σ (m + 1)).fq q) := by
  have hcases := step_fq_cases rfl (h m) q
  rw [State.fq_with_pending] at hcases
  rwa [← (h.inv_params hinv hm).2]

theorem fq_move (h : IsRun sched σ) (hinv : (σ n).Inv) (hm : n ≤ m) (hne : sched m ≠ .reset) (q : Queue) :
    Fq.Move (σ n).params q ((σ m).fq q) ((σ (m + 1)).fq q) := by
  obtain ⟨hreset, -⟩ | ⟨-, heq⟩ | ⟨-, heq⟩ | hop := h.fq_cases hinv hm q
  · exact absurd hreset hne
  · exact heq ▸ .of_syncW2R
  · exact heq ▸ .of_syncR2W
  · exact hop.move

theorem fq_syncW2R (h : IsRun sched σ) (he : sched m = .syncW2R q) :
    (σ (m + 1)).fq q = ((σ m).fq q).syncW2R := by
  have hm := h m
  rw [he, perform_syncW2R (h.legal m), Host.Outcome.next.injEq] at hm
  rw [← hm, syncW2R, State.fq_setFq, State.fq_with_pending]

theorem fq_syncR2W (h : IsRun sched σ) (he : sched m = .syncR2W q) :
    (σ (m + 1)).fq q = ((σ m).fq q).syncR2W := by
  have hm := h m
  rw [he, perform_syncR2W (h.legal m), Host.Outcome.next.injEq] at hm
  rw [← hm, syncR2W, State.fq_setFq, State.fq_with_pending]

/-- A `RESET` leaves no queue full. -/
theorem w_full_of_reset (h : IsRun sched σ) (he : sched m = .reset) (hl : p.legal = true) (q : Queue) :
    ((σ (m + 1)).fq q).w_full (p.N q) = false := by
  have hm := h m
  rw [he, perform_reset (h.legal m), Host.Outcome.next.injEq] at hm
  rw [← hm, State.fq_resetAll]
  exact Fq.w_full_resetTo hl ..

/-! ## The chains along a run -/

theorem wsync_cases (h : IsRun sched σ) (hinv : (σ n).Inv) (hm : n ≤ m) (hne : sched m ≠ .reset) (q : Queue) :
    ((σ (m + 1)).fq q).wsync = ((σ m).fq q).wsync
    ∨ ((σ (m + 1)).fq q).wsync = shiftIn ((σ m).fq q).wgray ((σ m).fq q).wsync := by
  obtain ⟨he, -⟩ | ⟨-, heq⟩ | ⟨-, heq⟩ | hop := h.fq_cases hinv hm q
  · exact absurd he hne
  · exact .inr (heq ▸ rfl)
  · exact .inl (heq ▸ rfl)
  · exact .inl hop.sync_eq.1

theorem rsync_cases (h : IsRun sched σ) (hinv : (σ n).Inv) (hm : n ≤ m) (hne : sched m ≠ .reset) (q : Queue) :
    ((σ (m + 1)).fq q).rsync = ((σ m).fq q).rsync
    ∨ ((σ (m + 1)).fq q).rsync = shiftIn ((σ m).fq q).rgray ((σ m).fq q).rsync := by
  obtain ⟨he, -⟩ | ⟨-, heq⟩ | ⟨-, heq⟩ | hop := h.fq_cases hinv hm q
  · exact absurd he hne
  · exact .inl (heq ▸ rfl)
  · exact .inr (heq ▸ rfl)
  · exact .inl hop.sync_eq.2

/-! ## A side that waits -/

/-- As long as the consumer sees the queue empty, its pointer stands still and the occupancy does not fall. -/
theorem rgray_of_empty (h : IsRun sched σ) (hinv : (σ n).Inv) (hreset : ∀ m, n ≤ m → sched m ≠ .reset)
    (hup : ∀ m, n ≤ m → ((σ m).fq q).r_empty = true) (hm : n ≤ m) :
    ((σ m).fq q).rgray = ((σ n).fq q).rgray
      ∧ ((σ n).fq q).occupancy ((σ n).params.N q) ≤ ((σ m).fq q).occupancy ((σ n).params.N q) := by
  induction m, hm using Nat.le_induction with
  | base => exact ⟨rfl, le_rfl⟩
  | succ m hm ih =>
    have hq := h.fq_inv hinv hm q
    have hq' := h.fq_inv hinv (Nat.le_succ_of_le hm) q
    obtain ⟨hbin, hle⟩ := (h.fq_move hinv hm (hreset m hm) q).of_empty hinv.legal hq (hup m hm)
    rw [hq'.pointers.rgray_eq, hbin, ← hq.pointers.rgray_eq]
    exact ⟨ih.1, ih.2.trans hle⟩

/-- As long as the producer sees the queue full, its pointer stands still and the occupancy does not rise. -/
theorem wgray_of_full (h : IsRun sched σ) (hinv : (σ n).Inv) (hreset : ∀ m, n ≤ m → sched m ≠ .reset)
    (hup : ∀ m, n ≤ m → ((σ m).fq q).w_full ((σ n).params.N q) = true) (hm : n ≤ m) :
    ((σ m).fq q).wgray = ((σ n).fq q).wgray
      ∧ ((σ m).fq q).occupancy ((σ n).params.N q) ≤ ((σ n).fq q).occupancy ((σ n).params.N q) := by
  induction m, hm using Nat.le_induction with
  | base => exact ⟨rfl, le_rfl⟩
  | succ m hm ih =>
    have hq := h.fq_inv hinv hm q
    have hq' := h.fq_inv hinv (Nat.le_succ_of_le hm) q
    obtain ⟨hbin, hle⟩ := (h.fq_move hinv hm (hreset m hm) q).of_full hinv.legal hq (hup m hm)
    rw [hq'.pointers.wgray_eq, hbin, ← hq.pointers.wgray_eq]
    exact ⟨ih.1, hle.trans ih.2⟩

end IsRun

/-! ## The flags fall -/

namespace FairRun

/-- A consumer that saw the queue empty for ever, with a frame in it, would clock in only pointers of a queue that holds a
frame, and so see one. -/
theorem r_empty_falls (h : FairRun sched σ) (hinv : (σ n).Inv)
    (hpos : 0 < ((σ n).fq q).occupancy ((σ n).params.N q)) (hreset : ∀ m, n ≤ m → sched m ≠ .reset) :
    ∃ m, n ≤ m ∧ ((σ m).fq q).r_empty = false := by
  by_contra hno
  have hup : ∀ m, n ≤ m → ((σ m).fq q).r_empty = true := fun m hm =>
    Bool.of_not_eq_false fun hfalse => hno ⟨m, hm, hfalse⟩
  have hstill := fun m (hm : n ≤ m) => h.run.rgray_of_empty hinv hreset hup hm
  have hne : ∀ m, n ≤ m → ((σ m).fq q).wgray ≠ ((σ n).fq q).rgray := fun m hm =>
    (hstill m hm).1 ▸ (h.run.fq_inv hinv hm q).wgray_ne_rgray hinv.legal (hpos.trans_le (hstill m hm).2)
  obtain ⟨m, hm, hlast⟩ := exists_lastStage_ne (chain := fun m => ((σ m).fq q).wsync)
    (le_trans (by decide) (Params.legal_S hinv.legal q)) (fun m hm => (h.run.fq_inv hinv hm q).wchain.length_eq)
    (fun m hm => (h.run.wsync_cases hinv hm (hreset m hm) q).imp_right fun heq => ⟨_, hne m hm, heq⟩)
    (fun m hm => by
      obtain ⟨m', hm', he⟩ := (h.syncs q m).1
      exact ⟨m', hm', _, hne m' (hm.trans hm'), congrArg Fq.wsync (h.run.fq_syncW2R he)⟩)
  have hwq : ((σ m).fq q).rgray = ((σ m).fq q).wq := beq_iff_eq.mp (hup m hm)
  exact hlast (hwq.symm.trans (hstill m hm).1)

/-- A producer that saw the queue full for ever, with a slot free, would clock in only pointers of a queue that has a slot
free, and so see one; a `RESET` lets it see one at once. -/
theorem w_full_falls (h : FairRun sched σ) (hinv : (σ n).Inv)
    (hlt : ((σ n).fq q).occupancy ((σ n).params.N q) < (σ n).params.N q) :
    ∃ m, n ≤ m ∧ ((σ m).fq q).w_full ((σ n).params.N q) = false := by
  by_contra hno
  have hup : ∀ m, n ≤ m → ((σ m).fq q).w_full ((σ n).params.N q) = true := fun m hm =>
    Bool.of_not_eq_false fun hfalse => hno ⟨m, hm, hfalse⟩
  have hreset : ∀ m, n ≤ m → sched m ≠ .reset := fun m hm he =>
    hno ⟨m + 1, Nat.le_succ_of_le hm, h.run.w_full_of_reset he hinv.legal q⟩
  have hstill := fun m (hm : n ≤ m) => h.run.wgray_of_full hinv hreset hup hm
  have hne : ∀ m, n ≤ m → ((σ m).fq q).rgray ≠ ((σ n).fq q).wgray ^^^ fullMask ((σ n).params.N q) := fun m hm =>
    (hstill m hm).1 ▸ (h.run.fq_inv hinv hm q).rgray_ne_full hinv.legal ((hstill m hm).2.trans_lt hlt)
  obtain ⟨m, hm, hlast⟩ := exists_lastStage_ne (chain := fun m => ((σ m).fq q).rsync)
    (le_trans (by decide) (Params.legal_S hinv.legal q)) (fun m hm => (h.run.fq_inv hinv hm q).rchain.length_eq)
    (fun m hm => (h.run.rsync_cases hinv hm (hreset m hm) q).imp_right fun heq => ⟨_, hne m hm, heq⟩)
    (fun m hm => by
      obtain ⟨m', hm', he⟩ := (h.syncs q m).2
      exact ⟨m', hm', _, hne m' (hm.trans hm'), congrArg Fq.rsync (h.run.fq_syncR2W he)⟩)
  have hrq : ((σ m).fq q).wgray = ((σ m).fq q).rq ^^^ fullMask ((σ n).params.N q) := beq_iff_eq.mp (hup m hm)
  refine hlast ?_
  rw [← (hstill m hm).1, hrq, BitVec.xor_assoc, BitVec.xor_self, BitVec.xor_zero]
  rfl

end FairRun

/-- Settles O2: a side whose flag stayed up would wait for ever, while its clocks bring it the other side's pointer. -/
theorem fairRunsLowerTheFlags : Obligations.FairRunsLowerTheFlags := by
  rintro sched σ q n _ h hinv rfl
  exact ⟨h.r_empty_falls hinv, h.w_full_falls hinv⟩

end Sys2Proof.Machine
end

section
/-! What each wire row makes of FRX: its answer to every byte, state by state (spec/30_encoding.md R119;
spec/43_framer_rx.md R220 to R230). -/

namespace Sys2Proof.Machine

variable {p : Params} {b v : Byte} {d d' : Frx} {op : FrxOp} {f : Fq} {s : State} {i : Instr}
  {code : DError} {next : DState}

/-! ## The byte of a wire row (30_encoding.md R119) -/

/-- The byte a wire row stands for; a row of another port has none. -/
def wireByte (p : Params) : Instr → Byte
  | .wireFlag => p.FLAG
  | .wireEsc => p.ESC
  | .wireTFlag => p.T_FLAG
  | .wireTEsc => p.T_ESC
  | .wireData b => b
  | _ => 0

/-- A wire row is the FRX step on its byte. -/
theorem exec_of_port_rx (hi : i.port = .rx) (s : State) : exec i s = frxStep (wireByte s.params i) s := by
  cases i with
  | wireFlag | wireEsc | wireTFlag | wireTEsc | wireData => rfl
  | _ => cases hi

/-- What a byte on `FRX.RX` decodes to is the row that stands for it. -/
theorem wireByte_decodeWire (p : Params) (b : Byte) : wireByte p (decodeWire p b) = b := by
  rw [decodeWire]
  split_ifs with hF hE hT hU
  · exact hF.symm
  · exact hE.symm
  · exact hT.symm
  · exact hU.symm
  · rfl

theorem PlainByte.exec_eq (hp : PlainByte s.params i v) : exec i s = frxStep v s := by
  obtain ⟨rfl, rfl⟩ | ⟨rfl, rfl⟩ | ⟨rfl, -⟩ := hp <;> rfl

/-- A plain byte neither delimits nor escapes. -/
theorem PlainByte.ne (hl : p.legal = true) (hp : PlainByte p i v) : v ≠ p.FLAG ∧ v ≠ p.ESC := by
  obtain ⟨-, hFT, hFU, hET, hEU, -⟩ := Params.legal_bytes hl
  obtain ⟨-, rfl⟩ | ⟨-, rfl⟩ | ⟨-, hdata⟩ := hp
  · exact ⟨hFT.symm, hET.symm⟩
  · exact ⟨hFU.symm, hEU.symm⟩
  · obtain ⟨hF, hE, -⟩ := Params.framingByte_eq_false.mp hdata
    exact ⟨hF, hE⟩

/-! ## The escape code undone (43_framer_rx.md R225) -/

theorem unesc_T_FLAG : unesc p p.T_FLAG = some p.FLAG := if_pos rfl

theorem unesc_T_ESC (hl : p.legal = true) : unesc p p.T_ESC = some p.ESC := by
  obtain ⟨-, -, -, -, -, hTU⟩ := Params.legal_bytes hl
  rw [unesc, if_neg hTU.symm, if_pos rfl]

theorem unesc_ESC (hl : p.legal = true) : unesc p p.ESC = none := by
  obtain ⟨-, -, -, hET, hEU, -⟩ := Params.legal_bytes hl
  rw [unesc, if_neg hET, if_neg hEU]

theorem unesc_of_not_framing (hb : p.framingByte b = false) : unesc p b = none := by
  obtain ⟨-, -, hT, hU⟩ := Params.framingByte_eq_false.mp hb
  rw [unesc, if_neg hT, if_neg hU]

/-- An escape code is no delimiter. -/
theorem ne_flag_of_unesc (hl : p.legal = true) (hb : unesc p b = some v) : b ≠ p.FLAG := by
  obtain ⟨-, hFT, hFU, -⟩ := Params.legal_bytes hl
  rintro rfl
  rw [unesc, if_neg hFT, if_neg hFU] at hb
  cases hb

/-! ## One byte in each state (43_framer_rx.md R226 to R230) -/

namespace Frx

theorem byte_flag_of_hunt (hd : d.d_state = .hunt) : d.byte p p.FLAG = ({ d with d_state := .start }, .nop) := by
  rw [byte, hd]
  exact if_pos rfl

theorem byte_of_hunt (hd : d.d_state = .hunt) (hb : b ≠ p.FLAG) : d.byte p b = (d, .nop) := by
  rw [byte, hd]
  exact if_neg hb

theorem byte_flag_of_start (hd : d.d_state = .start) : d.byte p p.FLAG = (d, .nop) := by
  rw [byte, hd]
  exact if_pos rfl

theorem byte_esc_of_start (hl : p.legal = true) (hd : d.d_state = .start) :
    d.byte p p.ESC = ({ d with d_state := if p.LEN_FIELD then .lenEsc else .bodyEsc }, .nop) := by
  rw [byte, hd]
  exact (if_neg (Params.legal_bytes hl).1.symm).trans (if_pos rfl)

theorem byte_of_start (hd : d.d_state = .start) (hF : b ≠ p.FLAG) (hE : b ≠ p.ESC) :
    d.byte p b = if p.LEN_FIELD then d.acceptLen p b else d.data p b := by
  rw [byte, hd]
  exact (if_neg hF).trans (if_neg hE)

theorem byte_flag_of_lenEsc (hd : d.d_state = .lenEsc) : d.byte p p.FLAG = d.err p .escape .start := by
  rw [byte, hd]
  exact if_pos rfl

theorem byte_of_lenEsc_some (hl : p.legal = true) (hd : d.d_state = .lenEsc) (hb : unesc p b = some v) :
    d.byte p b = d.acceptLen p v := by
  simp only [byte, hd, inLenEsc, if_neg (ne_flag_of_unesc hl hb), hb]

theorem byte_of_lenEsc_none (hd : d.d_state = .lenEsc) (hF : b ≠ p.FLAG) (hb : unesc p b = none) :
    d.byte p b = d.err p .escape .hunt := by
  simp only [byte, hd, inLenEsc, if_neg hF, hb]

theorem byte_flag_of_body (hd : d.d_state = .body) : d.byte p p.FLAG = d.endFrame p := by
  rw [byte, hd]
  exact if_pos rfl

theorem byte_esc_of_body (hl : p.legal = true) (hd : d.d_state = .body) :
    d.byte p p.ESC = ({ d with d_state := .bodyEsc }, .nop) := by
  rw [byte, hd]
  exact (if_neg (Params.legal_bytes hl).1.symm).trans (if_pos rfl)

theorem byte_of_body (hd : d.d_state = .body) (hF : b ≠ p.FLAG) (hE : b ≠ p.ESC) : d.byte p b = d.data p b := by
  rw [byte, hd]
  exact (if_neg hF).trans (if_neg hE)

theorem byte_flag_of_bodyEsc (hd : d.d_state = .bodyEsc) : d.byte p p.FLAG = d.err p .escape .start := by
  rw [byte, hd]
  exact if_pos rfl

theorem byte_of_bodyEsc_some (hl : p.legal = true) (hd : d.d_state = .bodyEsc) (hb : unesc p b = some v) :
    d.byte p b = d.data p v := by
  simp only [byte, hd, inBodyEsc, if_neg (ne_flag_of_unesc hl hb), hb]

theorem byte_of_bodyEsc_none (hd : d.d_state = .bodyEsc) (hF : b ≠ p.FLAG) (hb : unesc p b = none) :
    d.byte p b = d.err p .escape .hunt := by
  simp only [byte, hd, inBodyEsc, if_neg hF, hb]

theorem acceptLen_of_le (hv : v.toNat ≤ p.M) :
    d.acceptLen p v = ({ d with d_len := v, d_cnt := 0, d_state := .body }, .nop) :=
  if_neg (Nat.not_lt.mpr hv)

theorem data_of_room (room : ¬ ((p.LEN_FIELD = true ∧ d.d_cnt = d.d_len) ∨ d.d_cnt.toNat = p.M)) :
    d.data p v = ({ d with d_cnt := d.d_cnt + 1, d_state := .body }, .byte v) :=
  if_neg room

theorem endFrame_of_complete (hc : p.LEN_FIELD = false ∨ d.d_len.toNat ≤ d.d_cnt.toNat) :
    d.endFrame p =
      ({ d with d_ok_cnt := satInc p d.d_ok_cnt, d_state := .start, d_cnt := 0, d_len := 0 }, .commit) :=
  if_neg fun ⟨hlf, hlt⟩ => hc.elim (fun hno => by simp [hlf] at hno) (Nat.not_le_of_lt hlt)

end Frx

/-! ## The FRX step (43_framer_rx.md R220, R221) -/

/-- FRX takes a byte in one step with the operation it issues. -/
theorem frxStep_of_byte (hl : s.params.legal = true) (hb : s.frx.byte s.params b = (d', op))
    (hop : op.run s.params s.qh = .ok f) : frxStep b s = .next { s with frx := d', qh := f } :=
  frxStep_eq_next.mpr ⟨hl, f, by rwa [hb], by rw [hb]⟩

theorem frxStep_of_nop (hl : s.params.legal = true) (hb : s.frx.byte s.params b = (d', .nop)) :
    frxStep b s = .next { s with frx := d' } :=
  frxStep_of_byte hl hb rfl

theorem frxStep_of_err (hl : s.params.legal = true) (hb : s.frx.byte s.params b = s.frx.err s.params code next) :
    frxStep b s = .next (s.framingError code next) :=
  frxStep_of_byte hl hb rfl

/-- A byte that FRX takes with `accept_len(v)`. -/
theorem takesLength_of_acceptLen (hl : s.params.legal = true) (hi : exec i s = frxStep b s)
    (hb : s.frx.byte s.params b = s.frx.acceptLen s.params v) : TakesLength i v s := by
  refine ⟨fun hM => ?_, fun hM => ?_⟩ <;> rw [hi]
  · exact frxStep_of_err hl (hb.trans (if_pos hM))
  · exact frxStep_of_nop hl (hb.trans (Frx.acceptLen_of_le hM))

/-- A byte that FRX takes with `data(v)`; its `W_BYTE` finds room in slot memory. -/
theorem takesPayload_of_data (hl : s.params.legal = true) (hi : exec i s = frxStep b s)
    (hb : s.frx.byte s.params b = s.frx.data s.params v) : TakesPayload i v s := by
  refine ⟨fun hfull => ?_, fun room hM => ?_⟩ <;> rw [hi]
  · exact frxStep_of_err hl (hb.trans (if_pos hfull))
  · have hN : 0 < s.params.N .qh := by have := ring_of_legal hl .qh; omega
    obtain ⟨f, hf⟩ := Fq.wByte_ok (d := v) hN hM
    exact ⟨f, hf, frxStep_of_byte hl (hb.trans (Frx.data_of_room room)) hf⟩

/-! ## The five states -/

/-- Settles O34: in HUNT only `FLAG` makes a difference. -/
theorem frxInHunt : Obligations.FrxInHunt := by
  intro s hl hd
  refine ⟨frxStep_of_nop hl (Frx.byte_flag_of_hunt hd), ?_, fun i v hp => ?_⟩
  · exact frxStep_of_nop hl (Frx.byte_of_hunt hd (Params.legal_bytes hl).1.symm)
  · rw [hp.exec_eq]
    exact frxStep_of_nop hl (Frx.byte_of_hunt hd (hp.ne hl).1)

/-- Settles O35: in START the length field decides what the first byte after the delimiters is. -/
theorem frxInStart : Obligations.FrxInStart := by
  intro s hl hd
  have hesc := frxStep_of_nop hl (Frx.byte_esc_of_start hl hd)
  refine ⟨frxStep_of_nop hl (Frx.byte_flag_of_start hd), fun hlf => ?_, fun hlf => ?_, fun i v hp => ?_⟩
  · rwa [hlf] at hesc
  · rwa [hlf] at hesc
  · obtain ⟨hF, hE⟩ := hp.ne hl
    have hb := Frx.byte_of_start hd hF hE
    exact ⟨fun hlf => takesLength_of_acceptLen hl hp.exec_eq (hb.trans (if_pos hlf)),
      fun hlf => takesPayload_of_data hl hp.exec_eq (hb.trans (if_neg (by simp [hlf])))⟩

/-- Settles O36: after an `ESC` in the length position, the two escape codes are headers and all else is an error. -/
theorem frxInLenEsc : Obligations.FrxInLenEsc := by
  intro s hl hd
  refine ⟨frxStep_of_err hl (Frx.byte_flag_of_lenEsc hd), ?_, ?_, ?_, fun b hb => ?_⟩
  · exact frxStep_of_err hl (Frx.byte_of_lenEsc_none hd (Params.legal_bytes hl).1.symm (unesc_ESC hl))
  · exact takesLength_of_acceptLen hl rfl (Frx.byte_of_lenEsc_some hl hd unesc_T_FLAG)
  · exact takesLength_of_acceptLen hl rfl (Frx.byte_of_lenEsc_some hl hd (unesc_T_ESC hl))
  · obtain ⟨hF, -⟩ := Params.framingByte_eq_false.mp hb
    exact frxStep_of_err hl (Frx.byte_of_lenEsc_none hd hF (unesc_of_not_framing hb))

/-- Settles O37: in BODY a `FLAG` is `end_frame()`, and every byte that is not framing is payload. -/
theorem frxInBody : Obligations.FrxInBody := by
  intro s hl hd
  have hflag := Frx.byte_flag_of_body (p := s.params) hd
  refine ⟨fun hlf hlt => ?_, fun hc => ?_, frxStep_of_nop hl (Frx.byte_esc_of_body hl hd), fun i v hp => ?_⟩
  · exact frxStep_of_err hl (hflag.trans (if_pos ⟨hlf, hlt⟩))
  · exact frxStep_of_byte hl (hflag.trans (Frx.endFrame_of_complete hc)) rfl
  · obtain ⟨hF, hE⟩ := hp.ne hl
    exact takesPayload_of_data hl hp.exec_eq (Frx.byte_of_body hd hF hE)

/-- Settles O38: after an `ESC` inside a frame, the two escape codes are payload and everything else an error. -/
theorem frxInBodyEsc : Obligations.FrxInBodyEsc := by
  intro s hl hd
  refine ⟨frxStep_of_err hl (Frx.byte_flag_of_bodyEsc hd), ?_, ?_, ?_, fun b hb => ?_⟩
  · exact frxStep_of_err hl (Frx.byte_of_bodyEsc_none hd (Params.legal_bytes hl).1.symm (unesc_ESC hl))
  · exact takesPayload_of_data hl rfl (Frx.byte_of_bodyEsc_some hl hd unesc_T_FLAG)
  · exact takesPayload_of_data hl rfl (Frx.byte_of_bodyEsc_some hl hd (unesc_T_ESC hl))
  · obtain ⟨hF, -⟩ := Params.framingByte_eq_false.mp hb
    exact frxStep_of_err hl (Frx.byte_of_bodyEsc_none hd hF (unesc_of_not_framing hb))

end Sys2Proof.Machine
end

section
/-! What an FRX step leaves unchanged, and the one byte of `QH`'s slot memory that each wire byte can change
(spec/43_framer_rx.md R220; spec/20_memory.md R81; spec/40_queue_write.md R150, R151, R155). -/

namespace Sys2Proof.Machine

variable {p : Params} {a : Nat} {b v : Byte} {d : Frx} {op : FrxOp} {f g : Fq} {i : Instr}

/-! ## Which bytes issue `W_BYTE` and `W_COMMIT` -/

namespace Frx

theorem acceptLen_op_ne_commit : (d.acceptLen p v).2 ≠ .commit := by
  unfold acceptLen
  split <;> simp [err]

theorem data_op_ne_commit : (d.data p v).2 ≠ .commit := by
  unfold data
  split <;> simp [err]

theorem endFrame_op_ne_byte : (d.endFrame p).2 ≠ .byte v := by
  unfold endFrame
  split <;> simp [err]

/-- `FLAG` issues no `W_BYTE`. -/
theorem byte_flag_op : (d.byte p p.FLAG).2 ≠ .byte v := by
  cases hd : d.d_state with
  | hunt => simp [byte_flag_of_hunt hd]
  | start => simp [byte_flag_of_start hd]
  | lenEsc => simp [byte_flag_of_lenEsc hd, err]
  | body => exact byte_flag_of_body hd ▸ endFrame_op_ne_byte
  | bodyEsc => simp [byte_flag_of_bodyEsc hd, err]

/-- `ESC` issues no `W_BYTE`: it is never payload itself. -/
theorem byte_esc_op (hl : p.legal = true) : (d.byte p p.ESC).2 ≠ .byte v := by
  have hEF := (Params.legal_bytes hl).1.symm
  cases hd : d.d_state with
  | hunt => simp [byte_of_hunt hd hEF]
  | start => simp [byte_esc_of_start hl hd]
  | lenEsc => simp [byte_of_lenEsc_none hd hEF (unesc_ESC hl), err]
  | body => simp [byte_esc_of_body hl hd]
  | bodyEsc => simp [byte_of_bodyEsc_none hd hEF (unesc_ESC hl), err]

/-- Only `FLAG` issues `W_COMMIT`. -/
theorem byte_op_ne_commit (hl : p.legal = true) (hF : b ≠ p.FLAG) : (d.byte p b).2 ≠ .commit := by
  cases hd : d.d_state with
  | hunt => simp [byte_of_hunt hd hF]
  | start =>
    by_cases hE : b = p.ESC
    · simp [hE, byte_esc_of_start hl hd]
    · rw [byte_of_start hd hF hE]
      split
      · exact acceptLen_op_ne_commit
      · exact data_op_ne_commit
  | lenEsc =>
    cases hu : unesc p b with
    | some v => exact byte_of_lenEsc_some hl hd hu ▸ acceptLen_op_ne_commit
    | none => simp [byte_of_lenEsc_none hd hF hu, err]
  | body =>
    by_cases hE : b = p.ESC
    · simp [hE, byte_esc_of_body hl hd]
    · exact byte_of_body hd hF hE ▸ data_op_ne_commit
  | bodyEsc =>
    cases hu : unesc p b with
    | some v => exact byte_of_bodyEsc_some hl hd hu ▸ data_op_ne_commit
    | none => simp [byte_of_bodyEsc_none hd hF hu, err]

end Frx

/-! ## The operation on `QH` -/

/-- No operation FRX issues writes the read domain, `rsync` or `w_operr` (40_queue_write.md R150). -/
theorem FrxOp.run_frame (h : op.run p f = .ok g) : g.withForeign f = g ∧ g.w_operr = f.w_operr := by
  obtain ⟨-, rfl⟩ | ⟨v, -, hv⟩ | ⟨-, rfl⟩ | ⟨-, rfl⟩ := FrxOp.run_cases h
  · exact ⟨rfl, rfl⟩
  · obtain ⟨_, _, _, _, _, rfl⟩ := Fq.wByte_frame hv
    exact ⟨rfl, rfl⟩
  · obtain ⟨_, _, _, _, _, _, hc⟩ := Fq.wCommit_frame p .qh f
    rw [hc]
    exact ⟨rfl, rfl⟩
  · exact ⟨rfl, rfl⟩

/-- The operation FRX issues changes no byte but the one `W_BYTE` stores or the one `W_COMMIT` stores. -/
theorem FrxOp.run_read (h : op.run p f = .ok g)
    (hbyte : (∀ v, op ≠ .byte v) ∨ a ≠ dataAddr p (slotidx (p.N .qh) f.wbin) (f.assembly (p.N .qh)).len.toNat)
    (hcommit : op ≠ .commit ∨ a ≠ lenAddr p (slotidx (p.N .qh) f.wbin)) : g.mem.read a = f.mem.read a := by
  obtain ⟨-, rfl⟩ | ⟨v, rfl, hv⟩ | ⟨rfl, rfl⟩ | ⟨-, rfl⟩ := FrxOp.run_cases h
  · rfl
  · exact Fq.wByte_read hv (.inl (hbyte.resolve_left fun hne => hne v rfl))
  · exact Fq.wCommit_read (.inl (hcommit.resolve_left fun hne => hne rfl))
  · rfl

/-- A row that decodes and is not `WIRE_FLAG` is not the byte `FLAG` (30_encoding.md R119). -/
theorem wireByte_ne_flag (hl : p.legal = true) (hi : i.port = .rx) (hne : i ≠ .wireFlag) (hwf : i.wf p = true) :
    wireByte p i ≠ p.FLAG := by
  obtain ⟨hFE, hFT, hFU, -⟩ := Params.legal_bytes hl
  cases i with
  | wireFlag => exact absurd rfl hne
  | wireEsc => exact hFE.symm
  | wireTFlag => exact hFT.symm
  | wireTEsc => exact hFU.symm
  | wireData b =>
    rw [Instr.wf, Bool.not_eq_true'] at hwf
    exact (Params.framingByte_eq_false.mp hwf).1
  | _ => cases hi

/-- Settles O39: the step writes FRX and, through one producer operation, `QH`; `ESC` and `FLAG` issue no `W_BYTE`, and
only `FLAG` issues `W_COMMIT`. -/
theorem wireByteFrame : Obligations.WireByteFrame := by
  rintro s t i _ _ hi ht rfl rfl
  rw [exec_of_port_rx hi] at ht
  obtain ⟨hl, f, hf, rfl⟩ := frxStep_eq_next.mp ht
  have hread := fun a => FrxOp.run_read (a := a) hf
  obtain ⟨hforeign, hoperr⟩ := FrxOp.run_frame hf
  refine ⟨rfl, rfl, rfl, rfl, rfl, rfl, rfl, rfl, ?_⟩
  have hregs : f.rbin = s.qh.rbin ∧ f.rgray = s.qh.rgray ∧ f.wsync = s.qh.wsync ∧ f.r_rdata = s.qh.r_rdata
      ∧ f.r_result = s.qh.r_result ∧ f.r_operr = s.qh.r_operr ∧ f.rsync = s.qh.rsync := by
    rw [← hforeign]
    exact ⟨rfl, rfl, rfl, rfl, rfl, rfl, rfl⟩
  obtain ⟨hrbin, hrgray, hwsync, hrdata, hresult, hroperr, hrsync⟩ := hregs
  refine ⟨hrbin, hrgray, hwsync, hrdata, hresult, hroperr, hrsync, hoperr, ?_, ?_, fun hne hwf a ha => ?_,
    fun a hdata hlen => hread a (.inr hdata) (.inr hlen)⟩
  · rintro rfl a
    have hEF := (Params.legal_bytes hl).1.symm
    exact hread a (.inl fun _ => Frx.byte_esc_op hl) (.inl (Frx.byte_op_ne_commit hl hEF))
  · rintro rfl a hlen
    exact hread a (.inl fun _ => Frx.byte_flag_op) (.inr hlen)
  · have hF := wireByte_ne_flag hl hi hne hwf
    exact hread a (.inr ha) (.inl (Frx.byte_op_ne_commit hl hF))

end Sys2Proof.Machine
end

section
/-! FRX on the bytes of `encode(F)`: after any bytes whatever, its operations end in those of `F`, and FRX in START
(spec/30_encoding.md R117, R118; spec/43_framer_rx.md R237 to R239). -/

namespace Sys2Proof.Machine

variable {p : Params} {b v : Byte} {n : Nat} {F : Frame} {d d' d₁ : Frx} {bs bs' : List Byte} {op : FrxOp}
  {ops ops' : List FrxOp}

/-! ## Runs of the decoder (43_framer_rx.md R237) -/

theorem Frx.decode_append (p : Params) (d : Frx) (bs bs' : List Byte) :
    d.decode p (bs ++ bs') =
      (((d.decode p bs).1.decode p bs').1, (d.decode p bs).2 ++ ((d.decode p bs).1.decode p bs').2) := by
  induction bs generalizing d with
  | nil => rfl
  | cons b bs ih => simp only [List.cons_append, Frx.decode, ih]

theorem realOps_append (ops ops' : List FrxOp) : realOps (ops ++ ops') = realOps ops ++ realOps ops' :=
  List.filter_append ..

/-- The bytes `bs` take FRX from `d` to `d'`, and the operations it issues for them that are not `W_NOP` are `ops`. -/
structure Frx.Decodes (p : Params) (d : Frx) (bs : List Byte) (d' : Frx) (ops : List FrxOp) : Prop where
  regs : (d.decode p bs).1 = d'
  real : realOps (d.decode p bs).2 = ops

namespace Frx.Decodes

theorem nil : Decodes p d [] d [] := ⟨rfl, rfl⟩

theorem single (hb : d.byte p b = (d₁, op)) : Decodes p d [b] d₁ (realOps [op]) := by
  constructor <;> rw [decode, hb, decode]

theorem append (h : Decodes p d bs d₁ ops) (h' : Decodes p d₁ bs' d' ops') :
    Decodes p d (bs ++ bs') d' (ops ++ ops') := by
  obtain ⟨rfl, rfl⟩ := h
  obtain ⟨rfl, rfl⟩ := h'
  constructor <;> rw [decode_append]
  exact realOps_append _ _

theorem cons (hb : d.byte p b = (d₁, op)) (h : Decodes p d₁ bs d' ops) :
    Decodes p d (b :: bs) d' (realOps [op] ++ ops) :=
  (single hb).append h

/-- A byte for which FRX issues a `W_NOP` adds no operation. -/
theorem cons_nop (hb : d.byte p b = (d₁, .nop)) (h : Decodes p d₁ bs d' ops) : Decodes p d (b :: bs) d' ops :=
  h.cons hb

end Frx.Decodes

/-- Any bytes keep the invariant of FRX. -/
theorem Frx.Inv.decode (hl : p.legal = true) (h : d.Inv p) (bs : List Byte) : (d.decode p bs).1.Inv p := by
  induction bs generalizing d with
  | nil => exact h
  | cons b bs ih => exact ih ((Frx.Move.of_byte h b).inv hl h)

/-! ## Escaped bytes (30_encoding.md R117) -/

/-- `escb` sends an `ESC` and a code that `unesc` undoes, or a byte that is neither `FLAG` nor `ESC` as it is. -/
theorem escb_unesc_cases (hl : p.legal = true) (v : Byte) :
    (∃ t, unesc p t = some v ∧ escb p v = [p.ESC, t]) ∨ (v ≠ p.FLAG ∧ v ≠ p.ESC ∧ escb p v = [v]) := by
  rw [escb]
  split_ifs with hF hE
  · exact .inl ⟨p.T_FLAG, hF ▸ unesc_T_FLAG, rfl⟩
  · exact .inl ⟨p.T_ESC, hE ▸ unesc_T_ESC hl, rfl⟩
  · exact .inr ⟨hF, hE, rfl⟩

/-- In START with a length field, an escaped length is the header (43_framer_rx.md R222, R227, R228). -/
theorem Frx.decodes_header (hl : p.legal = true) (hlf : p.LEN_FIELD = true) (hd : d.d_state = .start)
    (hv : v.toNat ≤ p.M) : Decodes p d (escb p v) { d with d_len := v, d_cnt := 0, d_state := .body } [] := by
  obtain ⟨t, ht, he⟩ | ⟨hF, hE, he⟩ := escb_unesc_cases hl v <;> rw [he]
  · have hesc := byte_esc_of_start hl hd
    rw [if_pos hlf] at hesc
    have ht' := byte_of_lenEsc_some hl (d := { d with d_state := .lenEsc }) rfl ht
    exact .cons_nop hesc (.cons_nop (ht'.trans (acceptLen_of_le hv)) .nil)
  · have hb := (byte_of_start hd hF hE).trans (if_pos hlf)
    exact .cons_nop (hb.trans (acceptLen_of_le hv)) .nil

/-- FRX awaits `n` more bytes of a frame's payload: as many as the header says, or without a header any number up to
`M`, the first of them in START. -/
structure Frx.Awaits (p : Params) (d : Frx) (n : Nat) : Prop where
  state : d.d_state = .body ∨ (d.d_state = .start ∧ p.LEN_FIELD = false ∧ 0 < n)
  header : p.LEN_FIELD = true → d.d_cnt.toNat + n = d.d_len.toNat
  le : d.d_cnt.toNat + n ≤ p.M

namespace Frx.Awaits

/-- There is room for the next byte (43_framer_rx.md R223). -/
theorem room (h : Awaits p d (n + 1)) : ¬ ((p.LEN_FIELD = true ∧ d.d_cnt = d.d_len) ∨ d.d_cnt.toNat = p.M) := by
  have hle := h.le
  rintro (⟨hlf, heq⟩ | hM)
  · have hlen := h.header hlf
    rw [heq] at hlen
    omega
  · omega

/-- After a byte there is one less to come. -/
theorem succ (hl : p.legal = true) (h : Awaits p d (n + 1)) :
    Awaits p { d with d_cnt := d.d_cnt + 1, d_state := .body } n := by
  have hle := h.le
  have hsucc : (d.d_cnt + 1).toNat + n = d.d_cnt.toNat + (n + 1) := by
    rw [toNat_succ_of_lt_M hl (by omega)]
    omega
  exact ⟨.inl rfl, fun hlf => hsucc.trans (h.header hlf), hsucc.trans_le hle⟩

/-- `ESC` leads to BODY_ESC, from START as from BODY. -/
theorem byte_esc (hl : p.legal = true) (h : Awaits p d n) :
    d.byte p p.ESC = ({ d with d_state := .bodyEsc }, .nop) := by
  obtain hd | ⟨hd, hlf, -⟩ := h.state
  · exact byte_esc_of_body hl hd
  · rw [byte_esc_of_start hl hd, hlf]
    rfl

/-- A byte that is neither `FLAG` nor `ESC` is payload, in START as in BODY. -/
theorem byte_plain (h : Awaits p d n) (hF : b ≠ p.FLAG) (hE : b ≠ p.ESC) : d.byte p b = d.data p b := by
  obtain hd | ⟨hd, hlf, -⟩ := h.state
  · exact byte_of_body hd hF hE
  · rw [byte_of_start hd hF hE, hlf]
    rfl

/-- An escaped byte is one `W_BYTE` of the byte itself. -/
theorem decodes_escb (hl : p.legal = true) (h : Awaits p d (n + 1)) (v : Byte) :
    Decodes p d (escb p v) { d with d_cnt := d.d_cnt + 1, d_state := .body } [.byte v] := by
  obtain ⟨t, ht, he⟩ | ⟨hF, hE, he⟩ := escb_unesc_cases hl v <;> rw [he]
  · have ht' := byte_of_bodyEsc_some hl (d := { d with d_state := .bodyEsc }) rfl ht
    exact .cons_nop (h.byte_esc hl) (.cons (ht'.trans (data_of_room h.room)) .nil)
  · exact .cons ((h.byte_plain hF hE).trans (data_of_room h.room)) .nil

/-- The payload and the closing `FLAG`: one `W_BYTE` for each byte, and the `W_COMMIT` of a complete frame. -/
theorem decodes_payload (hl : p.legal = true) (h : Awaits p d F.length) :
    Decodes p d (F.flatMap (escb p) ++ [p.FLAG])
      { d with d_ok_cnt := satInc p d.d_ok_cnt, d_state := .start, d_cnt := 0, d_len := 0 }
      (F.map .byte ++ [.commit]) := by
  induction F generalizing d with
  | nil =>
    have hd : d.d_state = .body := h.state.resolve_right fun ⟨_, _, hpos⟩ => absurd hpos (Nat.lt_irrefl 0)
    have hcomplete : p.LEN_FIELD = false ∨ d.d_len.toNat ≤ d.d_cnt.toNat :=
      (Bool.eq_false_or_eq_true p.LEN_FIELD).symm.imp_right fun hlf => (h.header hlf).ge
    exact .cons ((byte_flag_of_body hd).trans (endFrame_of_complete hcomplete)) .nil
  | cons v F ih =>
    rw [List.flatMap_cons, List.append_assoc]
    exact (h.decodes_escb hl v).append (ih (h.succ hl))

end Frx.Awaits

/-! ## The encoded frame (30_encoding.md R118) -/

/-- What follows the opening `FLAG` of an encoded frame. -/
def encodedTail (p : Params) (F : Frame) : List Byte := lenHeader p F.length ++ (F.flatMap (escb p) ++ [p.FLAG])

theorem encodeFrame_eq_cons (p : Params) (F : Frame) : encodeFrame p F = p.FLAG :: encodedTail p F := by
  simp [encodeFrame, encodedTail]

namespace Frx

/-- From START the rest of `encode(F)` is the operations of `F`, and FRX is back in START with the frame counted. -/
theorem decodes_encodedTail (hl : p.legal = true) (h : d.Inv p) (hd : d.d_state = .start) (hF : F.length ≤ p.M)
    (hne : p.LEN_FIELD = false → F ≠ []) :
    Decodes p d (encodedTail p F)
      { d with d_ok_cnt := satInc p d.d_ok_cnt, d_state := .start, d_cnt := 0, d_len := 0 }
      (F.map .byte ++ [.commit]) := by
  obtain ⟨hcnt, -⟩ := h.outside (by rw [inFrame, hd])
  have hzero : (0 : Byte).toNat + F.length = F.length := Nat.zero_add _
  rw [encodedTail, lenHeader]
  split_ifs with hlf
  · have hM := (Params.legal_M hl).2
    have hlen : (BitVec.ofNat 8 F.length).toNat = F.length := by
      rw [BitVec.toNat_ofNat, Nat.mod_eq_of_lt (by omega)]
    have hawaits : Awaits p { d with d_len := .ofNat 8 F.length, d_cnt := 0, d_state := .body } F.length :=
      ⟨.inl rfl, fun _ => hzero.trans hlen.symm, hzero.trans_le hF⟩
    exact (decodes_header hl hlf hd (hlen.trans_le hF)).append (hawaits.decodes_payload hl)
  · have hno : p.LEN_FIELD = false := Bool.eq_false_iff.mpr hlf
    have hawaits : Awaits p d F.length :=
      ⟨.inr ⟨hd, hno, List.length_pos_iff.mpr (hne hno)⟩, fun hlf' => absurd hlf' hlf, by rwa [hcnt, hzero]⟩
    exact hawaits.decodes_payload hl

/-- `FLAG` leads to START from every state (43_framer_rx.md R235). -/
theorem byte_flag_d_state (p : Params) (d : Frx) : (d.byte p p.FLAG).1.d_state = .start := by
  cases hd : d.d_state with
  | hunt => rw [byte_flag_of_hunt hd]
  | start => rwa [byte_flag_of_start hd]
  | lenEsc => rw [byte_flag_of_lenEsc hd, err]
  | body =>
    rw [byte_flag_of_body hd, endFrame]
    split <;> rfl
  | bodyEsc => rw [byte_flag_of_bodyEsc hd, err]

/-- From every state the opening `FLAG` of `encode(F)` adds at most one operation, and the rest is that of `F`. -/
theorem decodes_encodeFrame (hl : p.legal = true) (h : d.Inv p) (hF : F.length ≤ p.M)
    (hne : p.LEN_FIELD = false → F ≠ []) (hb : d.byte p p.FLAG = (d₁, op)) :
    Decodes p d (encodeFrame p F)
      { d₁ with d_ok_cnt := satInc p d₁.d_ok_cnt, d_state := .start, d_cnt := 0, d_len := 0 }
      (realOps [op] ++ (F.map .byte ++ [.commit])) := by
  have hinv : d₁.Inv p := (hb ▸ Move.of_byte h p.FLAG).inv hl h
  have hstart := d.byte_flag_d_state p
  rw [hb] at hstart
  rw [encodeFrame_eq_cons]
  exact (decodes_encodedTail hl hinv hstart hF hne).cons hb

end Frx

/-- Settles O40: whatever the bytes before leave FRX in, the opening `FLAG` leads to START, and from there the rest of
`encode(F)` is the operations of `F`. -/
theorem frxDecodesTheEncodedFrame : Obligations.FrxDecodesTheEncodedFrame := by
  intro p d before F hl h hF hne
  have hframe := Frx.decodes_encodeFrame hl (h.decode hl before) hF hne rfl
  obtain ⟨hregs, hreal⟩ := Frx.Decodes.append ⟨rfl, rfl⟩ hframe
  rw [hregs, hreal, ← List.append_assoc, ← List.append_assoc]
  exact ⟨rfl, _, rfl⟩

end Sys2Proof.Machine
end

section
/-! HOST sends `encode(F)` while FRX is between frames: the steps run as FRX decodes the bytes, and `QH` gets `F` as from
any producer (spec/43_framer_rx.md R220, R238; spec/20_memory.md R85, R97; spec/40_queue_write.md R155). -/

namespace Sys2Proof.Machine

variable {p : Params} {b : Byte} {d d' : Frx} {bs : List Byte} {F : Frame} {op : FrxOp} {ops : List FrxOp} {f g : Fq}
  {s : State}

/-! ## The operations FRX issues, run on `QH` -/

/-- The operations `ops` one after the other. -/
def FrxOp.runAll (p : Params) (ops : List FrxOp) (f : Fq) : Except Fault Fq := ops.foldlM (FrxOp.run p) f

namespace FrxOp

theorem runAll_cons (p : Params) (op : FrxOp) (ops : List FrxOp) (f : Fq) :
    runAll p (op :: ops) f = op.run p f >>= runAll p ops :=
  List.foldlM_cons

/-- `W_NOP`s make no difference (40_queue_write.md R153). -/
theorem runAll_realOps (p : Params) (ops : List FrxOp) (f : Fq) : runAll p (realOps ops) f = runAll p ops f := by
  induction ops generalizing f with
  | nil => rfl
  | cons op ops ih =>
    by_cases hop : op = .nop
    · subst hop
      exact ih f
    · have hcons : realOps (op :: ops) = op :: realOps ops := List.filter_cons_of_pos (by simpa using hop)
      rw [hcons, runAll_cons, runAll_cons, funext ih]

/-- The operations of a frame are its bytes and the commit. -/
theorem runAll_frame (h : f.wBytes p .qh F = .ok g) :
    runAll p (F.map .byte ++ [.commit]) f = .ok (g.wCommit p .qh) := by
  have hbytes : (F.map .byte).foldlM (FrxOp.run p) f = f.wBytes p .qh F := List.foldlM_map
  rw [runAll, List.foldlM_append, hbytes, h]
  rfl

end FrxOp

/-! ## The bytes HOST sends -/

/-- A byte on `FRX.RX` is one FRX step (43_framer_rx.md R220). -/
theorem exec_decodeWire (b : Byte) (s : State) : exec (decodeWire s.params b) s = frxStep b s := by
  have hport : (decodeWire s.params b).port = .rx := port_of_encode (encode_decodeWire b).2
  rw [exec_of_port_rx hport, wireByte_decodeWire]

theorem step_load_frx {prog : List Stmt} (hl : s.params.legal = true)
    (hf : (s.frx.byte s.params b).2.run s.params s.qh = .ok f) :
    step (s.load (.frx b :: prog)) = .next ({ s with frx := (s.frx.byte s.params b).1, qh := f }.load prog) := by
  have hexec := exec_decodeWire b (s.load prog)
  rw [step_load_of_drive hl rfl rfl (decode_rx b)]
  exact hexec.trans (frxStep_of_byte hl rfl hf)

/-- The run of a sequence of bytes: FRX as it decodes them, and `QH` as the operations it issues leave it. -/
theorem runProg_frxStmts (hl : s.params.legal = true)
    (h : FrxOp.runAll s.params (s.frx.decode s.params bs).2 s.qh = .ok g) :
    runProg s (frxStmts bs) = .next { s with frx := (s.frx.decode s.params bs).1, qh := g } := by
  induction bs generalizing s with
  | nil =>
    obtain rfl : s.qh = g := Except.ok.inj h
    rfl
  | cons b bs ih =>
    rw [Frx.decode, FrxOp.runAll_cons] at h
    cases hf : (s.frx.byte s.params b).2.run s.params s.qh with
    | ok f =>
      rw [hf] at h
      have hrest := ih (s := { s with frx := (s.frx.byte s.params b).1, qh := f }) hl h
      exact (runProg_cons (step_load_frx hl hf)).trans hrest
    | error x =>
      rw [hf] at h
      cases h

/-- Bytes that FRX decodes to the operations of a frame, and that frame stored in `QH` as far as its `W_COMMIT`. -/
theorem runProg_frxStmts_of_decodes (hl : s.params.legal = true)
    (h : s.frx.Decodes s.params bs d' (F.map .byte ++ [.commit])) (hF : s.qh.wBytes s.params .qh F = .ok g) :
    runProg s (frxStmts bs) = .next { s with frx := d', qh := g.wCommit s.params .qh } := by
  obtain ⟨rfl, hreal⟩ := h
  refine runProg_frxStmts hl ?_
  rw [← FrxOp.runAll_realOps, hreal, FrxOp.runAll_frame hF]

/-! ## A frame from HOST -/

/-- Between frames the opening `FLAG` moves FRX to START and issues nothing (43_framer_rx.md R226, R227). -/
theorem Frx.byte_flag_of_between (hd : d.d_state = .hunt ∨ d.d_state = .start) :
    d.byte p p.FLAG = ({ d with d_state := .start }, .nop) := by
  obtain hd | hd := hd
  · exact byte_flag_of_hunt hd
  · rw [byte_flag_of_start hd, ← hd]

/-- Between frames no frame is open in `QH` (43_framer_rx.md R234). -/
theorem State.Inv.qh_closed (h : s.Inv) (hd : s.frx.d_state = .hunt ∨ s.frx.d_state = .start) :
    s.qh.w_open = false := by
  have hout : s.frx.inFrame = false := by obtain hd | hd := hd <;> rw [Frx.inFrame, hd]
  have hcnt := (h.frx.outside hout).1
  rw [Bool.eq_false_iff, ne_eq, h.rx.open_iff, hcnt]
  decide

/-- Settles O41: FRX decodes the bytes to the operations of `F`, which assemble it in `QH` and publish it. -/
theorem hostFrameReachesTheQueue : Obligations.HostFrameReachesTheQueue := by
  intro s F h hd hfull hF hne
  have hdec := Frx.decodes_encodeFrame h.legal h.frx hF hne (Frx.byte_flag_of_between hd)
  obtain ⟨g, hg, hoffered⟩ := (Fq.Offered.nil h.qh (h.qh_closed hd) hfull).wBytes h.legal F
  obtain ⟨hframes, -⟩ := hoffered.wCommit_published h.legal hF
  exact ⟨_, runProg_frxStmts_of_decodes h.legal hdec hg, hframes, rfl, rfl, rfl⟩

end Sys2Proof.Machine
end

section
/-! One FTX step in each `e_state`: the byte that goes out, and what is left pending (spec/44_framer_tx.md R260 to
R266). -/

namespace Sys2Proof.Machine

variable {p : Params} {v L : Byte} {e : Ftx} {s t : State} {rest : List Event} {x : Fault} {st : EState}

/-! ## `emit_esc` (44_framer_tx.md R261) -/

@[simp] theorem escFirst_FLAG (p : Params) : escFirst p p.FLAG = p.ESC := if_pos (.inl rfl)

@[simp] theorem escFirst_ESC (p : Params) : escFirst p p.ESC = p.ESC := if_pos (.inr rfl)

theorem escFirst_of_ne (hF : v ≠ p.FLAG) (hE : v ≠ p.ESC) : escFirst p v = v := if_neg (not_or.mpr ⟨hF, hE⟩)

@[simp] theorem Ftx.pendEsc_FLAG (p : Params) (e : Ftx) :
    e.pendEsc p p.FLAG = { e with e_pend := true, e_pbyte := p.T_FLAG } := if_pos rfl

theorem Ftx.pendEsc_ESC (hl : p.legal = true) (e : Ftx) :
    e.pendEsc p p.ESC = { e with e_pend := true, e_pbyte := p.T_ESC } :=
  (if_neg (Params.legal_bytes hl).1.symm).trans (if_pos rfl)

theorem Ftx.pendEsc_of_ne (hF : v ≠ p.FLAG) (hE : v ≠ p.ESC) (e : Ftx) : e.pendEsc p v = e :=
  (if_neg hF).trans (if_neg hE)

/-! ## The step in each state -/

theorem ftxStep_of_pend (hp : s.ftx.e_pend = true) : ftxStep s = .ok (ftxPending s) := if_pos hp

section
variable (hp : s.ftx.e_pend = false)
include hp

theorem ftxStep_of_idle (hst : s.ftx.e_state = .idle) : ftxStep s = ftxIdle s := by simp [ftxStep, hp, hst]

theorem ftxStep_of_len (hst : s.ftx.e_state = .len) : ftxStep s = .ok (ftxLen s) := by simp [ftxStep, hp, hst]

theorem ftxStep_of_data (hst : s.ftx.e_state = .data) : ftxStep s = ftxData s := by simp [ftxStep, hp, hst]

theorem ftxStep_of_close (hst : s.ftx.e_state = .close) : ftxStep s = .ok (ftxClose s) := by simp [ftxStep, hp, hst]

end

theorem ftxIdle_of_empty (he : s.qt.r_empty = true) : ftxIdle s = .ok s := if_pos he

theorem ftxIdle_of_r_len (he : s.qt.r_empty = false) (hL : s.qt.r_len s.params .qt = .ok L) :
    ftxIdle s = .ok ({ s with ftx := { s.ftx with
      e_len := L
      e_idx := 0
      e_state := if s.params.LEN_FIELD then .len else if L = 0 then .close else .data } }.emit s.params.FLAG) := by
  simp [ftxIdle, he, hL]

theorem ftxIdle_of_r_len_error (he : s.qt.r_empty = false) (hx : s.qt.r_len s.params .qt = .error x) :
    ftxIdle s = .error x := by
  simp [ftxIdle, he, hx]

theorem ftxData_of_readByte (hv : s.qt.readByte s.params .qt s.ftx.e_idx = .ok v) :
    ftxData s = .ok ({ s with
      qt := { s.qt with r_rdata := v }
      ftx := { s.ftx.pendEsc s.params v with
        e_idx := s.ftx.e_idx + 1
        e_state := if s.ftx.e_idx + 1 = s.ftx.e_len then .close else s.ftx.e_state } }.emit
        (escFirst s.params v)) := by
  rw [ftxData, Fq.rRead_of_readByte hv]

theorem ftxData_of_readByte_error (hx : s.qt.readByte s.params .qt s.ftx.e_idx = .error x) : ftxData s = .error x := by
  rw [ftxData, Fq.rRead, hx]

/-! ## The event -/

section
variable (hl : s.params.legal = true) (hp : s.pending = .ftx :: rest)
include hl hp

/-- The event `ftx` is one FTX step, and is gone. -/
theorem step_ftx_of_ok (h : ftxStep s = .ok t) : step s = .next { t with pending := rest } := by
  rw [step_of_pending_cons hl hp, runEvent, ftxStep_withPending, h]
  exact finish_ok hl

theorem step_ftx_of_error (h : ftxStep s = .error x) : step s = .fault x := by
  rw [step_of_pending_cons hl hp, runEvent, ftxStep_withPending, h]
  exact finish_eq_fault.mpr ⟨hl, rfl⟩

end

/-- Settles O42: the pending byte is looked at first. -/
theorem ftxSendsThePendingByte : Obligations.FtxSendsThePendingByte := by
  intro s rest hl hp hpend
  exact step_ftx_of_ok hl hp (ftxStep_of_pend hpend)

/-- Settles O43: the three cases of `r_len` while `QT` is not seen empty, and of the state that follows. -/
theorem ftxInIdle : Obligations.FtxInIdle := by
  rintro s rest _ hl hp hpend hst rfl
  have hidle := ftxStep_of_idle hpend hst
  refine ⟨fun he => ?_, fun L st he hL hnext => ?_, fun he hL => ?_⟩
  · exact step_ftx_of_ok hl hp (hidle.trans (ftxIdle_of_empty he))
  · have hlen := (Fq.r_len_of_nonempty he).trans (lenRead_eq_ok.mpr hL)
    have hst' : st = if s.params.LEN_FIELD then .len else if L = 0 then .close else .data := by
      obtain ⟨hlf, rfl⟩ | ⟨hlf, hL0, rfl⟩ | ⟨hlf, hL0, rfl⟩ := hnext <;> rw [hlf]
      · rfl
      · exact (if_pos hL0).symm
      · exact (if_neg hL0).symm
    rw [step_ftx_of_ok hl hp (hidle.trans (ftxIdle_of_r_len he hlen)), hst']
    rfl
  · exact step_ftx_of_error hl hp
      (hidle.trans (ftxIdle_of_r_len_error he ((Fq.r_len_of_nonempty he).trans (lenRead_of_unwritten hL))))

/-- Settles O44: `emit_esc` of the length, in its three cases. -/
theorem ftxInLen : Obligations.FtxInLen := by
  intro s rest st hl hp hpend hst hnext
  have hstep := step_ftx_of_ok hl hp (ftxStep_of_len hpend hst)
  have hst' : (if s.ftx.e_len = 0 then .close else .data) = st := by
    obtain ⟨h0, rfl⟩ | ⟨h0, rfl⟩ := hnext <;> [exact if_pos h0; exact if_neg h0]
  rw [ftxLen, hst'] at hstep
  refine ⟨fun hF => ?_, fun hE => ?_, fun hF hE => ?_⟩
  · rw [hstep, hF, escFirst_FLAG, Ftx.pendEsc_FLAG]
    rfl
  · rw [hstep, hE, escFirst_ESC, Ftx.pendEsc_ESC hl]
    rfl
  · rw [hstep, escFirst_of_ne hF hE, Ftx.pendEsc_of_ne hF hE]
    rfl

/-- Settles O45: `emit_esc` of the byte read, in its three cases; where the read stops, so does the step. -/
theorem ftxInData : Obligations.FtxInData := by
  intro s rest st hl hp hpend hst hnext
  have hdata := ftxStep_of_data hpend hst
  have hst' : (if s.ftx.e_idx + 1 = s.ftx.e_len then .close else s.ftx.e_state) = st := by
    obtain ⟨hlast, rfl⟩ | ⟨hlast, rfl⟩ := hnext <;> [exact if_pos hlast; exact (if_neg hlast).trans hst]
  refine ⟨fun v hv => ?_, fun x hx => step_ftx_of_error hl hp (hdata.trans (ftxData_of_readByte_error hx))⟩
  have hstep := step_ftx_of_ok hl hp (hdata.trans (ftxData_of_readByte hv))
  rw [hst'] at hstep
  refine ⟨?_, ?_, fun hF hE => ?_⟩
  · rintro rfl
    rw [hstep, escFirst_FLAG, Ftx.pendEsc_FLAG]
    rfl
  · rintro rfl
    rw [hstep, escFirst_ESC, Ftx.pendEsc_ESC hl]
    rfl
  · rw [hstep, escFirst_of_ne hF hE, Ftx.pendEsc_of_ne hF hE]
    rfl

/-- Settles O46: the step in CLOSE cannot fault. -/
theorem ftxInClose : Obligations.FtxInClose := by
  intro s rest hl hp hpend hst
  exact step_ftx_of_ok hl hp (ftxStep_of_close hpend hst)

end Sys2Proof.Machine
end

section
/-! FTX sends `encode(F)`: what FTX still has to send loses its first byte at every step, until the closing delimiter
goes out and `F` leaves `QT` (spec/44_framer_tx.md R260 to R268; spec/30_encoding.md R117, R118). -/

namespace Sys2Proof.Machine

variable {p : Params} {v b : Byte} {n : Nat} {bs : List Byte} {F : Frame} {e : Ftx} {f : Fq} {q : Queue} {s t : State}

/-! ## The bytes still to be sent -/

namespace Ftx

/-- The escape byte that goes out before anything else (44_framer_tx.md R260). -/
def pendingByte (e : Ftx) : List Byte := if e.e_pend then [e.e_pbyte] else []

theorem pendingByte_of_not_pend (hp : e.e_pend = false) : e.pendingByte = [] := if_neg (Bool.eq_false_iff.mp hp)

/-- `emit_esc(v)` sends the first byte of `escb(v)` and leaves the others pending. -/
theorem escb_eq_cons (hp : e.e_pend = false) (v : Byte) : escb p v = escFirst p v :: (e.pendEsc p v).pendingByte := by
  by_cases hF : v = p.FLAG
  · rw [hF, escFirst_FLAG, pendEsc_FLAG, escb, if_pos rfl]
    rfl
  by_cases hE : v = p.ESC
  · rw [escb, pendEsc, escFirst, if_neg hF, if_neg hF, if_pos hE, if_pos hE, if_pos (.inr hE)]
    rfl
  · rw [escb, if_neg hF, if_neg hE, escFirst_of_ne hF hE, pendEsc_of_ne hF hE, pendingByte_of_not_pend hp]

/-- What FTX has yet to send of `encode(F)` behind a pending byte: all of it in IDLE, and from the first byte on those
of index `e_idx` and above. -/
def bytesAhead (p : Params) (F : Frame) (e : Ftx) : List Byte :=
  match e.e_state with
  | .idle => encodeFrame p F
  | .len => encodedTail p F
  | .data => (F.drop e.e_idx.toNat).flatMap (escb p) ++ [p.FLAG]
  | .close => (F.drop e.e_idx.toNat).flatMap (escb p) ++ [p.FLAG]

/-- What FTX has yet to send of `encode(F)`. -/
def toSend (p : Params) (F : Frame) (e : Ftx) : List Byte := e.pendingByte ++ e.bytesAhead p F

theorem toSend_ne_nil (p : Params) (F : Frame) (e : Ftx) : e.toSend p F ≠ [] := by
  unfold toSend bytesAhead
  split <;> simp [encodeFrame, encodedTail]

theorem toSend_of_not_pend (hp : e.e_pend = false) : e.toSend p F = e.bytesAhead p F := by
  rw [toSend, pendingByte_of_not_pend hp, List.nil_append]

theorem toSend_of_pend (hp : e.e_pend = true) :
    e.toSend p F = e.e_pbyte :: { e with e_pend := false }.toSend p F := by
  rw [toSend, pendingByte, if_pos hp]
  rfl

/-- Behind the header FTX has the same ahead in DATA and in CLOSE. -/
theorem toSend_of_payload (hst : e.e_state = .data ∨ e.e_state = .close) :
    e.toSend p F = e.pendingByte ++ ((F.drop e.e_idx.toNat).flatMap (escb p) ++ [p.FLAG]) := by
  rw [toSend, bytesAhead]
  obtain hst | hst := hst <;> rw [hst]

theorem data_or_close_of_ite (c : Prop) [Decidable c] :
    (if c then EState.close else .data) = .data ∨ (if c then EState.close else .data) = .close := by
  split_ifs <;> simp

/-- The opening delimiter comes first; then the header, the first byte, or the closing delimiter of an empty frame. -/
theorem toSend_of_idle (hp : e.e_pend = false) (hst : e.e_state = .idle) (L : Byte) :
    e.toSend p F = p.FLAG :: { e with
      e_len := L
      e_idx := 0
      e_state := if p.LEN_FIELD then .len else if L = 0 then .close else .data : Ftx }.toSend p F := by
  rw [toSend_of_not_pend hp, bytesAhead, hst, encodeFrame_eq_cons]
  refine congrArg (List.cons _) ?_
  cases hlf : p.LEN_FIELD with
  | true => simp [toSend, pendingByte, hp, bytesAhead]
  | false =>
    have hnoHeader : encodedTail p F = F.flatMap (escb p) ++ [p.FLAG] := by simp [encodedTail, lenHeader, hlf]
    rw [hnoHeader, toSend_of_payload]
    · simp [pendingByte, hp]
    · exact data_or_close_of_ite _

/-- The header is the escaped length. -/
theorem toSend_of_len (hp : e.e_pend = false) (hst : e.e_state = .len) (hlf : p.LEN_FIELD = true)
    (hidx : e.e_idx = 0) (hlen : e.e_len = BitVec.ofNat 8 F.length) :
    e.toSend p F = escFirst p e.e_len ::
      { e.pendEsc p e.e_len with e_state := if e.e_len = 0 then .close else .data }.toSend p F := by
  have hheader : encodedTail p F = escb p e.e_len ++ (F.flatMap (escb p) ++ [p.FLAG]) := by
    rw [encodedTail, lenHeader, if_pos hlf, hlen]
  rw [toSend_of_not_pend hp, bytesAhead, hst, hheader, escb_eq_cons hp, List.cons_append, toSend_of_payload]
  · rw [pendEsc_e_idx, hidx]
    rfl
  · exact data_or_close_of_ite _

/-- The byte of index `e_idx` comes before those of the indices above it. -/
theorem toSend_of_data (hp : e.e_pend = false) (hst : e.e_state = .data) (hidx : e.e_idx.toNat < F.length)
    (hF : F.length ≤ 255) :
    e.toSend p F = escFirst p F[e.e_idx.toNat] ::
      { e.pendEsc p F[e.e_idx.toNat] with
        e_idx := e.e_idx + 1
        e_state := if e.e_idx + 1 = e.e_len then .close else e.e_state : Ftx }.toSend p F := by
  have hsucc : (e.e_idx + 1).toNat = e.e_idx.toNat + 1 :=
    BitVec.toNat_add_of_lt (show e.e_idx.toNat + 1 < 2 ^ 8 by omega)
  rw [toSend_of_not_pend hp, bytesAhead, hst, List.drop_eq_getElem_cons hidx, List.flatMap_cons, List.append_assoc,
    escb_eq_cons hp, List.cons_append, ← hsucc, toSend_of_payload]
  · rfl
  · exact data_or_close_of_ite _

/-- Behind the last byte comes the closing delimiter alone. -/
theorem toSend_of_close (hp : e.e_pend = false) (hst : e.e_state = .close) (hidx : F.length ≤ e.e_idx.toNat) :
    e.toSend p F = [p.FLAG] := by
  rw [toSend_of_not_pend hp, bytesAhead, hst, List.drop_of_length_le hidx]
  rfl

end Ftx

/-! ## One step of a frame -/

/-- `QT` shows FTX the frame `F` at its head, and `bs` is what FTX has yet to send of `encode(F)`. -/
structure State.Sends (F : Frame) (bs : List Byte) (s : State) : Prop where
  inv : s.Inv
  nonempty : s.qt.r_empty = false
  head : (s.qt.frames s.params .qt).head? = some (some F)
  ahead : s.ftx.toSend s.params F = bs

namespace State.Sends

/-- What FTX reads of `F`: its length, and each of its bytes. -/
theorem reads (h : s.Sends F bs) :
    s.qt.r_len s.params .qt = .ok (BitVec.ofNat 8 F.length) ∧ F.length ≤ 255
      ∧ ∀ (i : Byte) (hi : i.toNat < F.length), s.qt.readByte s.params .qt i = .ok F[i.toNat] := by
  obtain ⟨F', hhead, hlen, hle, hbytes⟩ := h.inv.qt.headFrame h.inv.legal h.nonempty
  obtain rfl : F = F' := Option.some.inj (Option.some.inj (h.head.symm.trans hhead))
  refine ⟨hlen, hle.trans (Params.legal_M h.inv.legal).2, fun i hi => ?_⟩
  have hread := hbytes i.toNat hi
  rwa [BitVec.ofNat_toNat, BitVec.setWidth_eq] at hread

/-- Inside the frame the length latched is that of `F`. -/
theorem e_len_eq (h : s.Sends F bs) (hst : s.ftx.e_state ≠ .idle) :
    s.ftx.e_len = BitVec.ofNat 8 F.length ∧ s.ftx.e_len.toNat = F.length := by
  obtain ⟨hlen, hF, -⟩ := h.reads
  obtain ⟨he, hread⟩ := h.inv.tx hst
  have hlatched := (Fq.r_len_of_nonempty he).trans (lenRead_eq_ok.mpr hread)
  have heq : s.ftx.e_len = BitVec.ofNat 8 F.length := Except.ok.inj (hlatched.symm.trans hlen)
  refine ⟨heq, ?_⟩
  rw [heq, BitVec.toNat_ofNat, Nat.mod_eq_of_lt (by omega)]

end State.Sends

/-- `t` is `s` with `b` sent and `bs` yet to send, the frames of `QT` and the count as they were. -/
structure State.SendsByte (F : Frame) (b : Byte) (bs : List Byte) (s t : State) : Prop where
  params : t.params = s.params
  txlog : t.txlog = s.txlog ++ [b]
  frames : t.qt.frames s.params .qt = s.qt.frames s.params .qt
  count : t.ftx.e_ok_cnt = s.ftx.e_ok_cnt
  sends : t.Sends F bs

/-- `t` is `s` after `n` of the bytes `bs` left of the head frame: with the last of them the frame is popped and
counted, and not before (44_framer_tx.md R265, R268). -/
structure State.HasSent (bs : List Byte) (n : Nat) (s t : State) : Prop where
  txlog : t.txlog = s.txlog ++ bs.take n
  kept : n < bs.length → t.qt.frames s.params .qt = s.qt.frames s.params .qt
  done : n = bs.length → t.qt.frames s.params .qt = (s.qt.frames s.params .qt).tail
    ∧ t.ftx.e_state = .idle ∧ t.ftx.e_pend = false ∧ t.ftx.e_ok_cnt = satInc s.params s.ftx.e_ok_cnt

/-- A pop takes the head frame from the front of what the consumer sees as non-empty. -/
theorem Fq.Inv.frames_rPop (hl : p.legal = true) (h : f.Inv p q) (he : f.r_empty = false) :
    (f.rPop (p.N q)).frames p q = (f.frames p q).tail := by
  refine (Fq.Move.of_rPop.frames_of_rbin_ne hl h ?_).1
  rw [Fq.rPop_of_nonempty he]
  exact ptrSucc_ne (ring_of_legal hl q).2 h.pointers.rbin_lt

namespace State.Sends

/-- A step that does no more to `QT` than read it keeps its frames, and `F` at their head. -/
theorem sendsByte_of_read {b' : Byte} (h : s.Sends F (b :: bs)) (ht : ftxStep s = .ok t)
    (htxlog : t.txlog = s.txlog ++ [b']) (hqt : ∃ v, t.qt = { s.qt with r_rdata := v })
    (hcount : t.ftx.e_ok_cnt = s.ftx.e_ok_cnt)
    (hahead : s.ftx.toSend s.params F = b' :: t.ftx.toSend s.params F) : s.SendsByte F b bs t := by
  obtain ⟨rfl, rfl⟩ := List.cons.inj (hahead.symm.trans h.ahead)
  obtain ⟨v, hqt⟩ := hqt
  obtain ⟨hparams, -⟩ := ftxStep_frame ht
  have hframes : t.qt.frames s.params .qt = s.qt.frames s.params .qt := by rw [hqt]; rfl
  refine ⟨hparams, htxlog, hframes, hcount, h.inv.ftxStep ht, ?_, ?_, by rw [hparams]⟩
  · rw [hqt]
    exact h.nonempty
  · rw [hparams, hframes, h.head]

/-- The step in CLOSE sends the last byte and pops the frame. -/
theorem hasSent_of_close (h : s.Sends F (b :: bs)) (hp : s.ftx.e_pend = false) (hst : s.ftx.e_state = .close) :
    bs = [] ∧ s.HasSent [b] 1 (ftxClose s) := by
  obtain ⟨-, hlen⟩ := h.e_len_eq (by simp [hst])
  have hidx : F.length ≤ s.ftx.e_idx.toNat := by rw [h.inv.ftx.close hst, hlen]
  obtain ⟨rfl, rfl⟩ := List.cons.inj (h.ahead.symm.trans (Ftx.toSend_of_close hp hst hidx))
  exact ⟨rfl, rfl, fun hlt => absurd hlt (Nat.lt_irrefl 1),
    fun _ => ⟨h.inv.qt.frames_rPop h.inv.legal h.nonempty, rfl, hp, rfl⟩⟩

/-- Every step sends the next byte: inside the frame it leaves the others to be sent, and the step in CLOSE none. -/
theorem step (h : s.Sends F (b :: bs)) :
    ∃ t, ftxStep s = .ok t ∧ (s.SendsByte F b bs t ∨ (bs = [] ∧ s.HasSent [b] 1 t)) := by
  obtain ⟨hrlen, hF, hread⟩ := h.reads
  cases hp : s.ftx.e_pend with
  | true =>
    have ht := ftxStep_of_pend hp
    exact ⟨_, ht, .inl (h.sendsByte_of_read ht rfl ⟨_, rfl⟩ rfl (Ftx.toSend_of_pend hp))⟩
  | false =>
    cases hst : s.ftx.e_state with
    | idle =>
      have ht := (ftxStep_of_idle hp hst).trans (ftxIdle_of_r_len h.nonempty hrlen)
      exact ⟨_, ht, .inl (h.sendsByte_of_read ht rfl ⟨_, rfl⟩ rfl (Ftx.toSend_of_idle hp hst _))⟩
    | len =>
      have ht := ftxStep_of_len hp hst
      obtain ⟨hlf, hidx, -⟩ := h.inv.ftx.len hst
      obtain ⟨hlen, -⟩ := h.e_len_eq (by simp [hst])
      exact ⟨_, ht, .inl (h.sendsByte_of_read ht rfl ⟨_, rfl⟩ (Ftx.pendEsc_e_ok_cnt ..)
        (Ftx.toSend_of_len hp hst hlf hidx hlen))⟩
    | data =>
      obtain ⟨-, hlen⟩ := h.e_len_eq (by simp [hst])
      have hidx := hlen ▸ h.inv.ftx.data hst
      have ht := (ftxStep_of_data hp hst).trans (ftxData_of_readByte (hread _ hidx))
      exact ⟨_, ht, .inl (h.sendsByte_of_read ht rfl ⟨_, rfl⟩ (Ftx.pendEsc_e_ok_cnt ..)
        (Ftx.toSend_of_data hp hst hidx hF))⟩
    | close => exact ⟨_, ftxStep_of_close hp hst, .inr (h.hasSent_of_close hp hst)⟩

end State.Sends

/-! ## The steps of a frame -/

/-- The byte before the others. -/
theorem State.HasSent.cons {r : State} (hs : s.SendsByte F b bs r) (h : r.HasSent bs n t) :
    s.HasSent (b :: bs) (n + 1) t := by
  obtain ⟨htxlog, hkept, hdone⟩ := h
  rw [hs.params, hs.frames] at hkept hdone
  rw [hs.count] at hdone
  refine ⟨?_, fun hlt => hkept (Nat.lt_of_succ_lt_succ hlt), fun hn => hdone (Nat.succ.inj hn)⟩
  rw [htxlog, hs.txlog, List.take_succ_cons, List.append_assoc, List.singleton_append]

/-- FTX leaves the model's own list of steps to come alone. -/
theorem ftxStep_pending (h : ftxStep s = .ok t) : t.pending = s.pending := by
  have hmap := ftxStep_withPending (s := s) (l := s.pending)
  rw [h] at hmap
  exact (congrArg State.pending (Except.ok.inj hmap) :)

theorem step_load_ftx {prog : List Stmt} (hl : s.params.legal = true) (h : ftxStep s = .ok t) :
    step (s.load (.ftx :: prog)) = .next (t.load prog) := by
  have hload : ftxStep (s.load (.ftx :: prog)) = .ok (t.load (.ftx :: prog)) := by
    rw [State.load, ftxStep_withPending, h, ← ftxStep_pending h]
    rfl
  rw [step_ftx_of_ok (s := s.load _) hl rfl hload, ← ftxStep_pending h]
  rfl

/-- As many steps as there are bytes to send, or fewer, send as many of them. -/
theorem State.Sends.runProg_ftxStmts (h : s.Sends F bs) (hn : n ≤ bs.length) :
    ∃ t, runProg s (ftxStmts n) = .next t ∧ s.HasSent bs n t := by
  induction n generalizing s bs with
  | zero =>
    have hpos : 0 < bs.length := by
      rw [← h.ahead, List.length_pos_iff]
      exact Ftx.toSend_ne_nil _ _ _
    exact ⟨s, rfl, (List.append_nil _).symm, fun _ => rfl, fun h0 => absurd h0 hpos.ne⟩
  | succ n ih =>
    obtain ⟨b, bs, rfl⟩ := List.exists_cons_of_length_pos (Nat.lt_of_lt_of_le n.succ_pos hn)
    obtain ⟨r, hr, hs | ⟨rfl, hsent⟩⟩ := h.step
    · obtain ⟨t, hrun, hsent⟩ := ih hs.sends (Nat.le_of_succ_le_succ hn)
      exact ⟨t, (runProg_cons (step_load_ftx h.inv.legal hr)).trans hrun, .cons hs hsent⟩
    · obtain rfl : n = 0 := Nat.le_zero.mp (Nat.le_of_succ_le_succ hn)
      exact ⟨r, runProg_cons (step_load_ftx h.inv.legal hr), hsent⟩

/-- Settles O47: in IDLE all of `encode(F)` is to be sent, every step sends the next byte of it, and the step that sends
the last pops `F`. -/
theorem ftxSendsTheEncodedFrame : Obligations.FtxSendsTheEncodedFrame := by
  intro s F h hst he hhead
  obtain ⟨-, -, hpend⟩ := h.ftx.idle hst
  have hahead : s.ftx.toSend s.params F = encodeFrame s.params F := by
    rw [Ftx.toSend_of_not_pend hpend, Ftx.bytesAhead, hst]
  have hsends : s.Sends F (encodeFrame s.params F) := ⟨h, he, hhead, hahead⟩
  refine ⟨fun n hn => ?_, ?_⟩
  · obtain ⟨t, hrun, hsent⟩ := hsends.runProg_ftxStmts hn
    exact ⟨t, hrun, hsent.txlog, hsent.kept⟩
  · obtain ⟨t, hrun, hsent⟩ := hsends.runProg_ftxStmts le_rfl
    exact ⟨t, hrun, hsent.done rfl⟩

end Sys2Proof.Machine
end

section
/-! `sat_inc` in numbers, and that every event but `RESET` moves a counter by at most one `sat_inc`, the producer
counters under `W_CLRCNT` apart (spec/00_scope.md R13; spec/60_exceptions.md R314; spec/70_reset_and_hazards.md R344). -/

namespace Sys2Proof.Machine

variable {p : Params} {q : Queue} {c c' : Cnt} {i : Instr} {e : Event} {d : Byte} {f g : Fq} {s t : State}

/-! ## `sat_inc` in numbers (00_scope.md R13) -/

theorem cntMax_toNat (hl : p.legal = true) : (cntMax p).toNat = 2 ^ p.CNT_W - 1 := by
  obtain ⟨-, -, -, -, -, -, hW, -⟩ := Params.legal_iff.mp hl
  have hpow : 2 ^ p.CNT_W ≤ 2 ^ 32 := Nat.pow_le_pow_right Nat.two_pos hW
  have hpos := Nat.two_pow_pos p.CNT_W
  rw [cntMax, BitVec.toNat_ofNat, Nat.mod_eq_of_lt (by omega)]

theorem satInc_cntMax (p : Params) : satInc p (cntMax p) = cntMax p := if_pos rfl

theorem satInc_toNat_of_lt (hc : c < cntMax p) : (satInc p c).toNat = c.toNat + 1 := by
  have hlt : c.toNat < (cntMax p).toNat := hc
  rw [satInc, if_neg (BitVec.ne_of_lt hc)]
  bv_omega

theorem satInc_in_numbers (hl : p.legal = true) (c : Cnt) :
    (c.toNat = 2 ^ p.CNT_W - 1 → satInc p c = c)
    ∧ (c.toNat < 2 ^ p.CNT_W - 1 → (satInc p c).toNat = c.toNat + 1) := by
  rw [← cntMax_toNat hl, BitVec.toNat_inj]
  exact ⟨fun hc => hc ▸ satInc_cntMax p, satInc_toNat_of_lt⟩

/-! ## A counter that counts -/

/-- The counter `c` moves to `c'` by one `sat_inc` or not at all. -/
def CountsUp (p : Params) (c c' : Cnt) : Prop := c' = c ∨ c' = satInc p c

theorem CountsUp.refl : CountsUp p c c := .inl rfl

theorem CountsUp.inc : CountsUp p c (satInc p c) := .inr rfl

/-- Where the invariant bounds a counter, one that counts moves as the claims say. -/
theorem CountsUp.counterMoves (h : CountsUp s.params c c') (hle : s.Inv → c ≤ cntMax s.params) :
    CounterMoves s c c' := by
  refine ⟨h, fun hinv => ?_⟩
  obtain rfl | rfl := h
  · exact .inl rfl
  · by_cases hmax : c = cntMax s.params
    · exact .inl (hmax ▸ satInc_cntMax _)
    · have hlt : c < cntMax s.params := BitVec.lt_of_le_ne (hle hinv) hmax
      exact .inr ⟨cntMax_toNat hinv.legal ▸ hlt, satInc_toNat_of_lt hlt⟩

/-! ## The producer counters (10_state.md R38) -/

/-- Each producer counter of a queue counts. -/
structure Fq.Counts (p : Params) (f g : Fq) : Prop where
  drop : CountsUp p f.w_drop_cnt g.w_drop_cnt
  long : CountsUp p f.w_long_cnt g.w_long_cnt

namespace Fq.Counts

theorem refl : Counts p f f := ⟨.refl, .refl⟩

theorem of_wByte (hg : f.wByte p q d = .ok g) : Counts p f g := by
  obtain ⟨_, _, _, _, _, rfl⟩ := Fq.wByte_frame hg
  exact ⟨.refl, .refl⟩

/-- `W_COMMIT` counts the frame it drops, the oversize frame it refuses, or nothing (40_queue_write.md R155). -/
theorem of_wCommit : Counts p f (f.wCommit p q) := by
  obtain ⟨-, hc⟩ | ⟨-, -, hc⟩ | ⟨-, -, hc⟩ := Fq.wCommit_cases p q f <;> rw [hc]
  · exact ⟨.inc, .refl⟩
  · exact ⟨.refl, .inc⟩
  · exact ⟨.refl, .refl⟩

/-- Of the producer operations only `W_CLRCNT` clears the counters (40_queue_write.md R158). -/
theorem of_wOp (hg : f.wOp p q i = .ok g) :
    (∃ q' d, i = .wClrcnt q' d ∧ g.w_drop_cnt = 0 ∧ g.w_long_cnt = 0) ∨ Counts p f g := by
  cases i with
  | wClrcnt q' d => cases hg; exact .inl ⟨q', d, rfl, rfl, rfl⟩
  | wByte => exact .inr (of_wByte hg)
  | wCommit => cases hg; exact .inr of_wCommit
  | _ => cases hg; exact .inr ⟨.refl, .refl⟩

theorem of_rOp (hg : f.rOp p q i = .ok g) : Counts p f g := by
  obtain ⟨_, _, _, _, _, rfl⟩ := Fq.rOp_frame hg
  exact ⟨.refl, .refl⟩

/-- FRX issues no `W_CLRCNT` (43_framer_rx.md R220). -/
theorem of_frxOp {op : FrxOp} (hg : op.run p f = .ok g) : Counts p f g := by
  obtain ⟨-, rfl⟩ | ⟨_, -, hv⟩ | ⟨-, rfl⟩ | ⟨-, rfl⟩ := FrxOp.run_cases hg
  · exact .refl
  · exact of_wByte hv
  · exact of_wCommit
  · exact ⟨.refl, .refl⟩

end Fq.Counts

/-! ## The counters of FRX (10_state.md R47) -/

/-- Each counter of FRX counts. -/
structure Frx.Counts (p : Params) (d d' : Frx) : Prop where
  err : CountsUp p d.d_err_cnt d'.d_err_cnt
  ok : CountsUp p d.d_ok_cnt d'.d_ok_cnt

namespace Frx.Counts

theorem of_err {d : Frx} {code : DError} {next : DState} : Counts p d (d.err p code next).1 := ⟨.inc, .refl⟩

theorem of_move {d : Frx} {r : Frx × FrxOp} (hm : Frx.Move p d r) : Counts p d r.1 := by
  cases hm with
  | stay | await | header | payload => exact ⟨.refl, .refl⟩
  | complete => exact ⟨.refl, .inc⟩
  | error => exact of_err

/-- `accept_len(v)` counts a length error or nothing, with a length field or without (43_framer_rx.md R222). -/
theorem of_acceptLen {d : Frx} {v : Byte} : Counts p d (d.acceptLen p v).1 := by
  unfold Frx.acceptLen
  split
  · exact of_err
  · exact ⟨.refl, .refl⟩

theorem of_inLenEsc {d : Frx} {b : Byte} : Counts p d (d.inLenEsc p b).1 := by
  unfold Frx.inLenEsc
  split
  · exact of_err
  · split
    · exact of_acceptLen
    · exact of_err

/-- Every byte counts one frame, one error or nothing, in every state: LEN_ESC without a length field, which the
invariant excludes, included. -/
theorem of_byte (d : Frx) (b : Byte) : Counts p d (d.byte p b).1 := by
  unfold Frx.byte
  split
  case h_1 => exact of_move (.inHunt ‹_›)
  case h_2 => exact of_move (.inStart ‹_›)
  case h_3 => exact of_inLenEsc
  case h_4 => exact of_move .inBody
  case h_5 => exact of_move .inBodyEsc

end Frx.Counts

/-! ## The counter of FTX (10_state.md R51) -/

/-- FTX counts the frame it closes; it reads and pops `QT` without touching its counters (44_framer_tx.md R264, R265). -/
theorem ftxStep_counts (h : ftxStep s = .ok t) :
    CountsUp s.params s.ftx.e_ok_cnt t.ftx.e_ok_cnt ∧ Fq.Counts s.params s.qt t.qt := by
  obtain ⟨-, rfl⟩ | ⟨-, ⟨-, hi⟩ | ⟨-, rfl⟩ | ⟨-, hd⟩ | ⟨-, rfl⟩⟩ := ftxStep_cases h
  · exact ⟨.refl, .refl⟩
  · obtain ⟨-, rfl⟩ | ⟨-, _, -, rfl⟩ := ftxIdle_cases hi <;> exact ⟨.refl, .refl⟩
  · exact ⟨.inl (Ftx.pendEsc_e_ok_cnt ..), .refl⟩
  · obtain ⟨_, -, rfl⟩ := ftxData_cases hd
    exact ⟨.inl (Ftx.pendEsc_e_ok_cnt ..), ⟨.refl, .refl⟩⟩
  · exact ⟨.inc, .of_rOp (i := .rPop .qt 0) rfl⟩

/-! ## The counters of the machine -/

/-- Every counter counts, but for the two of a queue that is `cleared`. -/
structure State.Counts (cleared : Queue → Prop) (s t : State) : Prop where
  frx : Frx.Counts s.params s.frx t.frx
  sent : CountsUp s.params s.ftx.e_ok_cnt t.ftx.e_ok_cnt
  fq : ∀ q, (cleared q ∧ (t.fq q).w_drop_cnt = 0 ∧ (t.fq q).w_long_cnt = 0) ∨ Fq.Counts s.params (s.fq q) (t.fq q)

namespace State.Counts

variable {cleared cleared' : Queue → Prop}

theorem mono (h : Counts cleared s t) (himp : ∀ q, cleared q → cleared' q) : Counts cleared' s t :=
  ⟨h.frx, h.sent, fun q => (h.fq q).imp_left fun ⟨hq, hzero⟩ => ⟨himp q hq, hzero⟩⟩

theorem of_still (hfrx : t.frx = s.frx) (hftx : t.ftx = s.ftx) (hfq : ∀ q, t.fq q = s.fq q) : Counts cleared s t where
  frx := hfrx ▸ ⟨.refl, .refl⟩
  sent := hftx ▸ .refl
  fq q := .inr (hfq q ▸ .refl)

/-- A step of one queue leaves every counter outside it. -/
theorem setFq (h : (cleared q ∧ g.w_drop_cnt = 0 ∧ g.w_long_cnt = 0) ∨ Fq.Counts s.params (s.fq q) g) :
    Counts cleared s (s.setFq q g) where
  frx := by rw [State.setFq_frx]; exact ⟨.refl, .refl⟩
  sent := by rw [State.setFq_ftx]; exact .refl
  fq q' := by
    obtain ⟨rfl, hg⟩ | hg := State.fq_setFq_cases s q q' g <;> rw [hg]
    · exact h
    · exact .inr .refl

theorem of_frxStep {b : Byte} (h : frxStep b s = .next t) : Counts cleared s t := by
  obtain ⟨-, f, hf, rfl⟩ := frxStep_eq_next.mp h
  refine ⟨.of_byte _ _, .refl, fun q => .inr ?_⟩
  cases q with
  | qh => exact .of_frxOp hf
  | qr | qt => exact .refl

/-- Of the instructions only a queue's `W_CLRCNT` clears counters. -/
theorem of_exec (h : exec i s = .next t) : Counts (fun q => ∃ d, i = .wClrcnt q d) s t := by
  cases hport : i.port with
  | w q =>
    obtain ⟨-, g, hg, rfl⟩ := (exec_of_port_w_eq_next hport).mp h
    refine setFq ((Fq.Counts.of_wOp hg).imp_left ?_)
    rintro ⟨_, d, rfl, hzero⟩
    cases hport
    exact ⟨⟨d, rfl⟩, hzero⟩
  | r q =>
    obtain ⟨-, g, hg, rfl⟩ := (exec_of_port_r_eq_next hport).mp h
    exact setFq (.inr (.of_rOp hg))
  | rx =>
    rw [exec_of_port_rx hport] at h
    exact of_frxStep h

/-- An FTX step leaves the counters of FRX and of the queues. -/
theorem of_ftxStep (h : ftxStep s = .ok t) : Counts cleared s t := by
  obtain ⟨-, hqr, hqh, hfrx⟩ := ftxStep_frame h
  obtain ⟨hsent, hqt⟩ := ftxStep_counts h
  refine ⟨hfrx ▸ ⟨.refl, .refl⟩, hsent, fun q => .inr ?_⟩
  cases q with
  | qr => rw [State.fq_qr, State.fq_qr, hqr]; exact .refl
  | qh => rw [State.fq_qh, State.fq_qh, hqh]; exact .refl
  | qt => exact hqt

theorem of_sample {d : Domain} {o : Output} (h : sample d o s = .ok t) : Counts cleared s t := by
  obtain ⟨-, _, -, rfl⟩ | ⟨-, rfl⟩ := sample_cases h
  · exact of_still rfl rfl fun q => State.fq_with_seen s q _
  · exact of_still rfl rfl fun q => State.fq_with_seen_draws s q _ _

end State.Counts

/-! ## The step -/

/-- The word of a `W_CLRCNT` is on its queue's producer port and has `OP` 4 (30_encoding.md R111, R112). -/
theorem wClrcnt_of_decode {port : Port} {raw : Nat} (h : decode p port raw = .ok (.wClrcnt q d)) :
    port = .w q ∧ raw / 256 = 4 := by
  obtain ⟨hport, hraw⟩ := Prod.mk.inj (encodeOfDecode p port raw _ h).2
  rw [commandWord_eq_add] at hraw
  have hd := d.isLt
  have hop : (0b100 : BitVec 3).toNat = 4 := rfl
  exact ⟨hport.symm, by omega⟩

/-- Every event but `RESET` counts, and clears the counters of a queue only as a word of `OP` 4 on its producer port. -/
theorem runEvent_counts (h : runEvent e s = .next t) (hne : e ≠ .reset) :
    State.Counts (fun q => ∃ a raw, e = .command a (.w q) raw ∧ raw / 256 = 4) s t := by
  obtain ⟨a, port, raw, i, rfl, -, hdec, hi⟩ | ⟨-, hf⟩ | ⟨q, -, rfl⟩ | ⟨q, -, rfl⟩ | ⟨rfl, -⟩ | ⟨d, o, -, ho⟩ :=
    runEvent_cases h
  · refine (State.Counts.of_exec hi).mono ?_
    rintro q ⟨d, rfl⟩
    obtain ⟨rfl, hop⟩ := wClrcnt_of_decode hdec
    exact ⟨a, raw, rfl, hop⟩
  · exact .of_ftxStep hf
  · exact .setFq (.inr ⟨.refl, .refl⟩)
  · exact .setFq (.inr ⟨.refl, .refl⟩)
  · exact absurd rfl hne
  · exact .of_sample ho

theorem step_counts (h : step s = .next t) (hne : s.pending.head? ≠ some .reset) :
    State.Counts (fun q => ∃ a raw, s.pending.head? = some (.command a (.w q) raw) ∧ raw / 256 = 4) s t := by
  obtain ⟨-, ⟨-, rfl⟩ | ⟨e, rest, hp, he⟩⟩ := step_cases h
  · exact .of_still rfl rfl fun _ => rfl
  · rw [hp, List.head?_cons, ne_eq, Option.some_inj] at hne
    obtain ⟨hfrx, hsent, hfq⟩ := runEvent_counts he hne
    refine ⟨hfrx, hsent, fun q => ?_⟩
    simpa [hp] using hfq q

/-- Settles O58: a counter at its largest value is the one `sat_inc` keeps; and every step counts, which in numbers is
one more below that value because the invariant bounds each counter by it. -/
theorem countersOnlyCount : Obligations.CountersOnlyCount := by
  refine ⟨fun p c hl => satInc_in_numbers hl c, fun s t h hne => ?_⟩
  obtain ⟨hfrx, hsent, hfq⟩ := step_counts h hne
  refine ⟨hfrx.err.counterMoves fun hinv => hinv.frx.err_le, hfrx.ok.counterMoves fun hinv => hinv.frx.ok_le,
    hsent.counterMoves fun hinv => hinv.ftx.ok_le, fun q => (hfq q).imp ?_ fun hcounts => ?_⟩
  · rintro ⟨⟨a, raw, hcmd, hop⟩, hzero⟩
    exact ⟨a, raw, hcmd, hop, hzero⟩
  · exact ⟨hcounts.drop.counterMoves fun hinv => (hinv.fq q).drop_le,
      hcounts.long.counterMoves fun hinv => (hinv.fq q).long_le⟩

end Sys2Proof.Machine
end

section
/-! What no step changes, who may use a port, and what `RESET` sets: the registers, the outputs and the invariant right
after it (spec/70_reset_and_hazards.md R330 to R335, R340). -/

namespace Sys2Proof.Machine

variable {p : Params} {a : Agent} {port : Port} {s : State} {rest : List Event}

/-- Settles O56: a stutter keeps the parameters, and so does every event. -/
theorem parametersAreFixed : Obligations.ParametersAreFixed := fun _ _ => step_params

/-! ## The drivers of the ports (70_reset_and_hazards.md R333, R335) -/

/-- The agents that present words, each with the ports it drives; FRX's `QH.W` and FTX's `QT.R` are not among them. -/
theorem mayPresent_iff : mayPresent a port = true ↔
    (a, port) ∈ [(.radio, .w .qr), (.task, .r .qr), (.task, .r .qh), (.task, .w .qt), (.host, .rx)] := by
  cases port with
  | w q | r q => cases q <;> cases a <;> decide
  | rx => cases a <;> decide

theorem present_of_not_mayPresent (h : mayPresent a port ≠ true) (raw : Nat) :
    present a port raw s = .refused .notTheDriver := if_neg h

/-- Settles O9: `present` looks at the agent and the port before the word, and a partial reset is always refused. -/
theorem onlyTheDriverMayUseAPort : Obligations.OnlyTheDriverMayUseAPort := by
  intro s rest hl
  refine ⟨fun a port raw hp hnot => ?_, fun d hp => step_of_pending_cons hl hp⟩
  rw [step_of_pending_cons hl hp]
  exact present_of_not_mayPresent (mt mayPresent_iff.mp hnot) raw

/-! ## The step of `RESET` (70_reset_and_hazards.md R330) -/

theorem step_reset (hl : s.params.legal = true) (hp : s.pending = .reset :: rest) :
    step s = .next (resetAll { s with pending := rest }) :=
  (step_of_pending_cons hl hp).trans (finish_ok (s := { s with pending := rest }) hl)

/-- Settles O48: each queue is `Fq.resetTo` on the memory it had, and the framer's registers are those of
`Frx.reset` and `Ftx.reset`. -/
theorem resetSetsEveryRegister : Obligations.ResetSetsEveryRegister := by
  intro s rest hl hp
  refine ⟨_, step_reset hl hp, fun q => ⟨(s.fq q).mem, ?_, rfl⟩, rfl, rfl, rfl, rfl⟩
  rw [State.fq_resetAll, State.fq_with_pending]
  rfl

/-! ## The levels, `r_len` and the status words of a queue after `RESET` (70_reset_and_hazards.md R332) -/

theorem ptrDiff_self (N : Nat) (b : Ptr) : ptrDiff N b b = 0 := by
  simp [ptrDiff]

namespace Fq

theorem rq_resetTo (S : Nat) (m : Memory) : (resetTo S m).rq = 0 := lastStage_replicate_zero S

theorem wq_resetTo (S : Nat) (m : Memory) : (resetTo S m).wq = 0 := lastStage_replicate_zero S

theorem w_level_resetTo (N S : Nat) (m : Memory) : (resetTo S m).w_level N = 0 := by
  rw [w_level, rq_resetTo]
  exact ptrDiff_self N 0

theorem r_level_resetTo (N S : Nat) (m : Memory) : (resetTo S m).r_level N = 0 := by
  rw [r_level, wq_resetTo]
  exact ptrDiff_self N 0

theorem r_len_resetTo (p : Params) (q : Queue) (S : Nat) (m : Memory) : (resetTo S m).r_len p q = .ok 0 :=
  if_pos (r_empty_resetTo S m)

theorem W_STATUS_resetTo (hl : p.legal = true) (q : Queue) (S : Nat) (m : Memory) :
    (resetTo S m).W_STATUS (p.N q) = 0x0000 := by
  rw [W_STATUS, w_level_resetTo, w_full_resetTo hl]
  simp only [resetTo]
  decide

theorem R_STATUS_resetTo (N S : Nat) (m : Memory) : (resetTo S m).R_STATUS N = 0x0001 := by
  rw [R_STATUS, r_level_resetTo, r_empty_resetTo]
  simp only [resetTo]
  decide

end Fq

theorem Frx.D_STATUS_reset : Frx.reset.D_STATUS = 0x00 := by decide

theorem Ftx.E_STATUS_reset : Ftx.reset.E_STATUS = 0x00 := by decide

/-- Settles O49: the outputs of a queue are those of `Fq.resetTo`, an empty queue to both its sides. -/
theorem outputsAfterReset : Obligations.OutputsAfterReset := by
  intro s t rest q hl hp ht
  obtain rfl : resetAll { s with pending := rest } = t := Host.Outcome.next.inj ((step_reset hl hp).symm.trans ht)
  have hq : (resetAll { s with pending := rest }).fq q = Fq.resetTo (s.params.S q) (s.fq q).mem := by
    rw [State.fq_resetAll, State.fq_with_pending]
  have hfrx : (resetAll { s with pending := rest }).frx = Frx.reset := rfl
  have hftx : (resetAll { s with pending := rest }).ftx = Ftx.reset := rfl
  simp only [Output.value, hq, hfrx, hftx, State.resetAll_params, Fq.w_irq, Fq.w_full_resetTo hl, Fq.w_level_resetTo,
    Fq.W_STATUS_resetTo hl, Fq.r_irq, Fq.r_empty_resetTo, Fq.r_level_resetTo, Fq.r_len_resetTo, Fq.R_STATUS_resetTo,
    Frx.D_STATUS_reset, Ftx.E_STATUS_reset]
  exact ⟨rfl, rfl, rfl, rfl, rfl, rfl, rfl, rfl, rfl, rfl, rfl, rfl, rfl, rfl, rfl, rfl⟩

/-! ## The invariant at reset (70_reset_and_hazards.md R330, 42_sync.md R209) -/

theorem Fq.inv_resetTo_nil (hl : p.legal = true) (q : Queue) : (Fq.resetTo (p.S q) []).Inv p q :=
  Fq.inv_resetTo hl .nil nofun

theorem Frx.inv_reset (p : Params) : Frx.reset.Inv p :=
  Frx.inv_of_clear rfl rfl (.inl rfl) (Nat.zero_le _) (Nat.zero_le _)

theorem Ftx.inv_reset (p : Params) : Ftx.reset.Inv p :=
  ⟨fun _ => ⟨rfl, rfl, rfl⟩, nofun, nofun, nofun, nofun, Nat.zero_le _⟩

/-- The reset state of a legal configuration: every queue empty, FRX between frames and FTX idle. -/
theorem State.inv_resetWith (hl : p.legal = true) : (State.resetWith p).Inv where
  legal := hl
  qr := Fq.inv_resetTo_nil hl .qr
  qh := Fq.inv_resetTo_nil hl .qh
  qt := Fq.inv_resetTo_nil hl .qt
  frx := Frx.inv_reset p
  rx := RxInv.of_closed rfl rfl rfl rfl
  ftx := Ftx.inv_reset p
  tx := fun hne => absurd rfl hne

/-- Settles O53: the default configuration is one of the legal ones. -/
theorem invariantHoldsAtReset : Obligations.InvariantHoldsAtReset :=
  ⟨fun _ => State.inv_resetWith, State.inv_resetWith (p := .default) (by decide)⟩

end Sys2Proof.Machine
end
